-- ==== Sys2Proof/Word.lean ====
section
/-!
DEFINITION. The words of the block: a token byte, a 12-bit colour word (spec/10_state.md R28), a row pattern of one
channel (R24). Numbers are unsigned with bit 0 the least significant (spec/00_scope.md R10).
-/

namespace Sys2Proof

/-- A byte: a token (30 R80), an LED mask, one channel of a column pattern. -/
abbrev Byte := BitVec 8

/-- A colour word, red in bits 11:8, green in bits 7:4 and blue in bits 3:0 (10 R28). -/
abbrev Colour := BitVec 12

/-- A 4-bit brightness level or channel intensity (00 R6). -/
abbrev Level := BitVec 4

end Sys2Proof
end

