-- ==== Sys2Proof/Config.lean ====
section
/-!
DEFINITION. The parameters of the block (spec/00_scope.md R6, R7) and the free values: constants with no body, of which
Lean can prove no value.
-/

namespace Sys2Proof

/-- The two agents (00 R8, 60 R271). -/
inductive Agent where
  | tick
  | host
  deriving DecidableEq, Repr, Inhabited

namespace Config

/-- N_ROWS (00 R7). -/
@[simp] abbrev nRows : Nat := 8
/-- N_COLS (00 R7). -/
@[simp] abbrev nCols : Nat := 8
/-- N_LEVELS (00 R7). -/
@[simp] abbrev nLevels : Nat := 16
/-- N_AUX (00 R7). -/
@[simp] abbrev nAux : Nat := 8
/-- N_BUTTONS (00 R7). -/
@[simp] abbrev nButtons : Nat := 6
/-- DIVISORS (00 R7), in the order of their 2-bit fields (10 R26). -/
def divisors : List Int := [1, 2, 4, 8]
/-- F_TICK_NOMINAL in Hz (00 R7): timing only, no rule of the model reads it. -/
def fTickNominal : Nat := 15360
/-- W_FRAME_COUNT: the width of FRAME_COUNT in bits (00 R7). -/
@[simp] abbrev wFrameCount : Nat := 32
/-- W_FRAME_SIGNAL: the width of FRAME_SIGNAL, and so of what HOST_WAIT records of it (00 R7, 43 R224). -/
@[simp] abbrev wFrameSignal : Nat := 8
/-- W_CLOCK: the width of CLOCK_US, LAST_TS and SWEEP_DUR, in microseconds (00 R7). -/
@[simp] abbrev wClock : Nat := 32
/-- W_TADDR: the width of a token memory address (00 R7). -/
@[simp] abbrev wTaddr : Nat := 16
/-- W_PERIOD: the width of TONE_PERIOD (00 R7). -/
@[simp] abbrev wPeriod : Nat := 16
/-- N_NOTES (00 R7). -/
@[simp] abbrev nNotes : Nat := 128
/-- SEQ_ROW: the sequencer runs in the tick steps of this row (00 R7, 40 R109). -/
def seqRow : BitVec 3 := 6
/-- TEMPO_TABLE[0..15] (00 R7, 30 R85), in sequencer ticks per 1/64 note. -/
def tempoTable : Vector Byte 16 :=
  #v[150, 144, 120, 100, 96, 90, 80, 75, 72, 60, 50, 48, 45, 40, 36, 30]
/-- TEMPO_DEFAULT (00 R7). -/
def tempoDefault : Byte := 60
/-- The largest TOKEN_MEM_SIZE there can be, 2^W_TADDR (00 R7, 20 R60). -/
@[simp] abbrev tokenMemMax : Nat := 2 ^ wTaddr

/-- FREE VALUE. NOTE_PERIOD[0..127], OPEN (00 R7, 92 D18): no claim may rest on an entry. Log entry 12. -/
opaque notePeriod : Fin nNotes → BitVec wPeriod

/-- FREE VALUE. What CLOCK_US shows at the n-th draw (10 R47). Log entry 6. -/
opaque clockDraw : Nat → BitVec wClock

/-- FREE VALUE. What BTN_IN shows at the n-th draw (10 R46). Log entry 6. -/
opaque buttonDraw : Nat → BitVec 6

/-- FREE VALUE. What a sequencer read of a raced token byte returns at the n-th draw (20 R75). Log entry 5. -/
opaque tokenDraw : Nat → Byte

/-- FREE VALUE. What load_bar gives for D = 0, where its pseudocode divides by zero (44 R245). Log entry 23. -/
opaque loadBarZero : Nat → Byte

/-- FREE VALUE. Which agent moves at the n-th draw (60 R265: either order is admitted). Log entry 10. -/
opaque agentDraw : Nat → Agent

end Config

end Sys2Proof
end

