-- ==== Sys2Proof/Syntax.lean ====
section
/-!
DEFINITION. The instructions: the sound tokens (spec/30_encoding.md R81) and the host commands (R88, R89), one
constructor for each row of spec/opcode_table.json. Integer operands are Int: the spec calls x, y, i, w, h and div
integers that may lie out of range (R88), and what the interface can carry of them is checked in WellFormed.lean.
-/

namespace Sys2Proof

/-- The operand of SCROLL (44 R242). -/
inductive Dir where
  | left
  | right
  | down
  | up
  deriving DecidableEq, Repr

/-- The two encoded languages of the block (30, opening paragraph). -/
inductive Language where
  | token
  | command
  deriving DecidableEq, Repr

/-- One instruction: a sound token or a host command. -/
inductive Instr where
  -- Sound tokens (42 R181 to R192).
  | endTok
  | play (d : BitVec 3)
  | playr (d : BitVec 3)
  | plays (d : BitVec 3)
  | pause (d : BitVec 3)
  | tempo (k : BitVec 4)
  | fadeoff
  | fadeup (v : BitVec 3)
  | fadedn (v : BitVec 3)
  | note (n : BitVec 7)
  | unrecognized (b : Byte)
  -- Host primitives (43 R200 to R226).
  | setup (div : Int)
  | clear
  | clearPixels
  | setPixel (x y : Int) (c : Colour)
  | setPixelS (x y : Int) (c : Colour)
  | getPixel (x y : Int)
  | getPixelS (x y : Int)
  | setAux (mask : Byte)
  | getAux
  | auxEnable (k : Int)
  | auxDisable (k : Int)
  | auxIsEnabled (k : Int)
  | getButtonsCur
  | getButtonsLast
  | buttonPressed (k : Int)
  | buttonDown (k : Int)
  | buttonReleased (k : Int)
  | playSound (a : BitVec Config.wTaddr)
  | stopSound
  | disableSound
  | getPlayedNote
  | frameSync
  | getLoadSample
  -- Host library routines (44 R240 to R244).
  | fillRect (x y w h : Int) (c : Colour)
  | fillRectS (x y w h : Int) (c : Colour)
  | scroll (dir : Dir)
  | fadePixels
  | frameSyncShowLoad
  -- Any other command id (43 R227).
  | badCommand (id : Byte)
  deriving DecidableEq, Repr

/-- The language an instruction belongs to. -/
def Instr.language : Instr → Language
  | .endTok => .token
  | .play _ => .token
  | .playr _ => .token
  | .plays _ => .token
  | .pause _ => .token
  | .tempo _ => .token
  | .fadeoff => .token
  | .fadeup _ => .token
  | .fadedn _ => .token
  | .note _ => .token
  | .unrecognized _ => .token
  | .setup _ => .command
  | .clear => .command
  | .clearPixels => .command
  | .setPixel _ _ _ => .command
  | .setPixelS _ _ _ => .command
  | .getPixel _ _ => .command
  | .getPixelS _ _ => .command
  | .setAux _ => .command
  | .getAux => .command
  | .auxEnable _ => .command
  | .auxDisable _ => .command
  | .auxIsEnabled _ => .command
  | .getButtonsCur => .command
  | .getButtonsLast => .command
  | .buttonPressed _ => .command
  | .buttonDown _ => .command
  | .buttonReleased _ => .command
  | .playSound _ => .command
  | .stopSound => .command
  | .disableSound => .command
  | .getPlayedNote => .command
  | .frameSync => .command
  | .getLoadSample => .command
  | .fillRect _ _ _ _ _ => .command
  | .fillRectS _ _ _ _ _ => .command
  | .scroll _ => .command
  | .fadePixels => .command
  | .frameSyncShowLoad => .command
  | .badCommand _ => .command

end Sys2Proof
end

