-- ==== Sys2Proof/WellFormed.lean ====
section
/-!
DEFINITION. Which instructions an encoding exists for: the operand ranges of the token table (spec/30_encoding.md R81,
R83), the command ids (R89) and the operand types of the commands (R88).
-/

namespace Sys2Proof

/-- An int8 operand (30 R88, 92 D6). -/
def int8 (v : Int) : Bool := decide (-128 ≤ v) && decide (v < 128)

/-- The ranges of 30 R83: the 68 bytes no token class has. -/
def reservedRanges : List (Nat × Nat) :=
  [(0x01, 0x0F), (0x17, 0x1F), (0x27, 0x2F), (0x37, 0x3F), (0x47, 0x4F), (0x68, 0x68), (0x70, 0x7F)]

/-- A reserved token byte (30 R83). -/
def reservedToken (b : Byte) : Bool :=
  reservedRanges.any fun r => decide (r.1 ≤ b.toNat) && decide (b.toNat ≤ r.2)

/-- A command id that 30 R89 lists: 0x01 to 0x17 and 0x20 to 0x24. -/
def listedId (id : Byte) : Bool :=
  (decide (0x01 ≤ id.toNat) && decide (id.toNat ≤ 0x17)) || (decide (0x20 ≤ id.toNat) && decide (id.toNat ≤ 0x24))

/-- The duration codes of 30 R81: d ≤ 6. -/
def durationCode (d : BitVec 3) : Bool := decide (d ≤ 6#3)

/-- The fade speeds of FADEUP and FADEDN: s ≥ 1 (30 R81). -/
def fadeSpeed (v : BitVec 3) : Bool := decide (v ≠ 0#3)

/-- The operands are ones the encoding of the instruction admits. -/
def Instr.wellFormed : Instr → Bool
  | .endTok => true
  | .play d => durationCode d
  | .playr d => durationCode d
  | .plays d => durationCode d
  | .pause d => durationCode d
  | .tempo _ => true
  | .fadeoff => true
  | .fadeup v => fadeSpeed v
  | .fadedn v => fadeSpeed v
  | .note _ => true
  | .unrecognized b => reservedToken b
  | .setup _ => true
  | .clear => true
  | .clearPixels => true
  | .setPixel x y _ => int8 x && int8 y
  | .setPixelS x y _ => int8 x && int8 y
  | .getPixel x y => int8 x && int8 y
  | .getPixelS x y => int8 x && int8 y
  | .setAux _ => true
  | .getAux => true
  | .auxEnable k => int8 k
  | .auxDisable k => int8 k
  | .auxIsEnabled k => int8 k
  | .getButtonsCur => true
  | .getButtonsLast => true
  | .buttonPressed k => int8 k
  | .buttonDown k => int8 k
  | .buttonReleased k => int8 k
  | .playSound _ => true
  | .stopSound => true
  | .disableSound => true
  | .getPlayedNote => true
  | .frameSync => true
  | .getLoadSample => true
  | .fillRect x y w h _ => int8 x && int8 y && int8 w && int8 h
  | .fillRectS x y w h _ => int8 x && int8 y && int8 w && int8 h
  | .scroll _ => true
  | .fadePixels => true
  | .frameSyncShowLoad => true
  | .badCommand id => !listedId id

end Sys2Proof
end

