-- ==== Sys2Proof/Decode.lean ====
section
/-!
DEFINITION. The decoders of the two languages and their encoders. A token is one byte (spec/30_encoding.md R80 to R83,
R86). A host command is an id with typed operands (R88, R89); the spec gives it no byte layout, so the model fixes a
frame: the id, then the operands in the order of R89, an int8 as one byte, a colour and a token address as two bytes, low
byte first, and SETUP's integer in two's complement as any number of bytes but none, so that every integer has a frame
(DESIGN CHOICE, unsafe, log entry 13).
-/

namespace Sys2Proof

/-- Why some bytes are no instruction. -/
inductive DecodeError where
  /-- There is no byte at all. -/
  | noBytes
  /-- A token is exactly one byte (30 R80), and there are more. -/
  | tokenLength
  /-- The command `id` is listed and its operands have another length. -/
  | operandLength (id : Byte)
  deriving DecidableEq, Repr

/-! ### Sound tokens -/

/-- The token decode function of 30 R82, line by line; the first line that holds wins. -/
def decodeToken (t : Byte) : Instr :=
  let c : BitVec 4 := t.extractLsb' 4 4
  let a : BitVec 4 := t.extractLsb' 0 4
  if t.getLsbD 7 then .note (t.extractLsb' 0 7)
  else if t = 0x00#8 then .endTok
  else if c = 1#4 ∧ a ≤ 6#4 then .play (a.setWidth 3)
  else if c = 2#4 ∧ a ≤ 6#4 then .playr (a.setWidth 3)
  else if c = 3#4 ∧ a ≤ 6#4 then .plays (a.setWidth 3)
  else if c = 4#4 ∧ a ≤ 6#4 then .pause (a.setWidth 3)
  else if c = 5#4 then .tempo a
  else if c = 6#4 ∧ a = 0#4 then .fadeoff
  else if c = 6#4 ∧ a.getLsbD 3 = false then .fadeup (a.setWidth 3)
  else if c = 6#4 ∧ a ≠ 8#4 then .fadedn (a.setWidth 3)
  else .unrecognized t

/-! ### Host command frames -/

/-- An int8 operand from its byte. -/
def int8Of (b : Byte) : Int := b.toInt

/-- The byte of an int8 operand. -/
def byteOf (v : Int) : Byte := BitVec.ofInt 8 v

/-- Two bytes, low byte first. -/
def half (lo hi : Byte) : BitVec 16 := hi ++ lo

/-- A colour operand c[11:0] from its two bytes (43 R203). -/
def colourOf (lo hi : Byte) : Colour := (half lo hi).setWidth 12

/-- SETUP's integer from its bytes, two's complement, low byte first (30 R88: div is an integer). -/
def intOf : List Byte → Int
  | [] => 0
  | [b] => b.toInt
  | b :: bs => b.toNat + 256 * intOf bs

/-- The direction code of SCROLL (44 R242). -/
def dirOf (b : BitVec 2) : Dir :=
  if b = 0#2 then .left else if b = 1#2 then .right else if b = 2#2 then .down else .up

/-- The code of a direction (44 R242). -/
def dirCode : Dir → BitVec 2
  | .left => 0
  | .right => 1
  | .down => 2
  | .up => 3

/-- A command with no operand. -/
def frame0 (id : Byte) (f : Instr) : List Byte → Except DecodeError Instr
  | [] => .ok f
  | _ => .error (.operandLength id)

/-- A command with one operand of one byte. -/
def frame1 (id : Byte) (f : Byte → Instr) : List Byte → Except DecodeError Instr
  | [a] => .ok (f a)
  | _ => .error (.operandLength id)

/-- A command with a coordinate pair, or with one two-byte operand. -/
def frame2 (id : Byte) (f : Byte → Byte → Instr) : List Byte → Except DecodeError Instr
  | [a, b] => .ok (f a b)
  | _ => .error (.operandLength id)

/-- A command with four operand bytes. -/
def frame4 (id : Byte) (f : Byte → Byte → Byte → Byte → Instr) : List Byte → Except DecodeError Instr
  | [a, b, c, d] => .ok (f a b c d)
  | _ => .error (.operandLength id)

/-- A command with six operand bytes. -/
def frame6 (id : Byte) (f : Byte → Byte → Byte → Byte → Byte → Byte → Instr) :
    List Byte → Except DecodeError Instr
  | [a, b, c, d, e, g] => .ok (f a b c d e g)
  | _ => .error (.operandLength id)

/-- SETUP, with one operand byte or more. -/
def frameInt (id : Byte) (f : Int → Instr) : List Byte → Except DecodeError Instr
  | [] => .error (.operandLength id)
  | b :: bs => .ok (f (intOf (b :: bs)))

/-- A command id with its operand bytes (30 R89); any other id is BAD_COMMAND, whatever follows it (43 R227). -/
def decodeCommand (id : Byte) (ops : List Byte) : Except DecodeError Instr :=
  match id.toNat with
  | 0x01 => frameInt id .setup ops
  | 0x02 => frame0 id .clear ops
  | 0x03 => frame0 id .clearPixels ops
  | 0x04 => frame4 id (fun x y lo hi => .setPixel (int8Of x) (int8Of y) (colourOf lo hi)) ops
  | 0x05 => frame4 id (fun x y lo hi => .setPixelS (int8Of x) (int8Of y) (colourOf lo hi)) ops
  | 0x06 => frame2 id (fun x y => .getPixel (int8Of x) (int8Of y)) ops
  | 0x07 => frame2 id (fun x y => .getPixelS (int8Of x) (int8Of y)) ops
  | 0x08 => frame1 id .setAux ops
  | 0x09 => frame0 id .getAux ops
  | 0x0A => frame1 id (fun k => .auxEnable (int8Of k)) ops
  | 0x0B => frame1 id (fun k => .auxDisable (int8Of k)) ops
  | 0x0C => frame1 id (fun k => .auxIsEnabled (int8Of k)) ops
  | 0x0D => frame0 id .getButtonsCur ops
  | 0x0E => frame0 id .getButtonsLast ops
  | 0x0F => frame1 id (fun k => .buttonPressed (int8Of k)) ops
  | 0x10 => frame1 id (fun k => .buttonDown (int8Of k)) ops
  | 0x11 => frame1 id (fun k => .buttonReleased (int8Of k)) ops
  | 0x12 => frame2 id (fun lo hi => .playSound (half lo hi)) ops
  | 0x13 => frame0 id .stopSound ops
  | 0x14 => frame0 id .disableSound ops
  | 0x15 => frame0 id .getPlayedNote ops
  | 0x16 => frame0 id .frameSync ops
  | 0x17 => frame0 id .getLoadSample ops
  | 0x20 => frame6 id
      (fun x y w h lo hi => .fillRect (int8Of x) (int8Of y) (int8Of w) (int8Of h) (colourOf lo hi)) ops
  | 0x21 => frame6 id
      (fun x y w h lo hi => .fillRectS (int8Of x) (int8Of y) (int8Of w) (int8Of h) (colourOf lo hi)) ops
  | 0x22 => frame1 id (fun b => .scroll (dirOf (b.setWidth 2))) ops
  | 0x23 => frame0 id .fadePixels ops
  | 0x24 => frame0 id .frameSyncShowLoad ops
  | _ => .ok (.badCommand id)

/-- The decoder of one language on any bytes: one whole instruction, or the reason there is none. -/
def decode : Language → List Byte → Except DecodeError Instr
  | .token, [t] => .ok (decodeToken t)
  | .token, [] => .error .noBytes
  | .token, _ :: _ :: _ => .error .tokenLength
  | .command, [] => .error .noBytes
  | .command, id :: ops => decodeCommand id ops

/-! ### The encoder, from the same tables (30 R81, R89) -/

/-- A token of class `c` with operand `a` (30 R80). -/
def tokenByte (c a : BitVec 4) : Byte := c ++ a

/-- The two bytes of a 16-bit operand, low byte first. -/
def halfBytes (v : BitVec 16) : List Byte := [v.extractLsb' 0 8, v.extractLsb' 8 8]

/-- The two bytes of a colour operand. -/
def colourBytes (c : Colour) : List Byte := halfBytes (c.setWidth 16)

/-- The low `n` bytes of an integer in two's complement, low byte first. -/
def intBytes : Nat → Int → List Byte
  | 0, _ => []
  | n + 1, v => BitVec.ofInt 8 v :: intBytes n (v / 256)

/-- A number of bytes that holds an integer in two's complement. -/
def intLength (v : Int) : Nat := v.natAbs.log2 / 8 + 2

/-- The bytes of an instruction in its language. -/
def encode : Instr → List Byte
  | .endTok => [0x00#8]
  | .play d => [tokenByte 1 (d.setWidth 4)]
  | .playr d => [tokenByte 2 (d.setWidth 4)]
  | .plays d => [tokenByte 3 (d.setWidth 4)]
  | .pause d => [tokenByte 4 (d.setWidth 4)]
  | .tempo k => [tokenByte 5 k]
  | .fadeoff => [tokenByte 6 0]
  | .fadeup v => [tokenByte 6 (0#1 ++ v)]
  | .fadedn v => [tokenByte 6 (1#1 ++ v)]
  | .note n => [1#1 ++ n]
  | .unrecognized b => [b]
  | .setup div => 0x01#8 :: intBytes (intLength div) div
  | .clear => [0x02#8]
  | .clearPixels => [0x03#8]
  | .setPixel x y c => 0x04#8 :: byteOf x :: byteOf y :: colourBytes c
  | .setPixelS x y c => 0x05#8 :: byteOf x :: byteOf y :: colourBytes c
  | .getPixel x y => [0x06#8, byteOf x, byteOf y]
  | .getPixelS x y => [0x07#8, byteOf x, byteOf y]
  | .setAux mask => [0x08#8, mask]
  | .getAux => [0x09#8]
  | .auxEnable k => [0x0A#8, byteOf k]
  | .auxDisable k => [0x0B#8, byteOf k]
  | .auxIsEnabled k => [0x0C#8, byteOf k]
  | .getButtonsCur => [0x0D#8]
  | .getButtonsLast => [0x0E#8]
  | .buttonPressed k => [0x0F#8, byteOf k]
  | .buttonDown k => [0x10#8, byteOf k]
  | .buttonReleased k => [0x11#8, byteOf k]
  | .playSound a => 0x12#8 :: halfBytes a
  | .stopSound => [0x13#8]
  | .disableSound => [0x14#8]
  | .getPlayedNote => [0x15#8]
  | .frameSync => [0x16#8]
  | .getLoadSample => [0x17#8]
  | .fillRect x y w h c => 0x20#8 :: byteOf x :: byteOf y :: byteOf w :: byteOf h :: colourBytes c
  | .fillRectS x y w h c => 0x21#8 :: byteOf x :: byteOf y :: byteOf w :: byteOf h :: colourBytes c
  | .scroll dir => [0x22#8, (dirCode dir).setWidth 8]
  | .fadePixels => [0x23#8]
  | .frameSyncShowLoad => [0x24#8]
  | .badCommand id => [id]

/-! ### The opcode table's numbering

The two languages share the byte values 0x00 to 0xFF, and the block never has to tell them apart: a token comes from
token memory and a command from the host. A word of the table does not say which it is, so the functions below read a
word of one byte as a host command where 30 R89 lists its id and as a token otherwise, and a longer word as a command
frame (DESIGN CHOICE, log entry 15). -/

/-- How many operand bytes the shortest frame of a command id has. -/
def operandBytes (id : Byte) : Nat :=
  match id.toNat with
  | 0x01 => 1
  | 0x04 => 4
  | 0x05 => 4
  | 0x06 => 2
  | 0x07 => 2
  | 0x08 => 1
  | 0x0A => 1
  | 0x0B => 1
  | 0x0C => 1
  | 0x0F => 1
  | 0x10 => 1
  | 0x11 => 1
  | 0x12 => 2
  | 0x20 => 6
  | 0x21 => 6
  | 0x22 => 1
  | _ => 0

/-- The bytes of a word of `n` bytes, the least significant first. -/
def wordBytes : Nat → Nat → List Byte
  | 0, _ => []
  | n + 1, w => BitVec.ofNat 8 w :: wordBytes n (w / 256)

/-- The language a word of the table is read in. -/
def tableLanguage (nbits w : Nat) : Language :=
  if nbits ≤ 8 ∧ listedId (BitVec.ofNat 8 w) = false then .token else .command

/-- The whole instruction of a word of the table: the bits above `nbits` are zero. -/
def tableFrame (nbits w : Nat) : List Byte :=
  match tableLanguage nbits w with
  | .token => [BitVec.ofNat 8 w]
  | .command =>
    wordBytes (nbits / 8) w ++ List.replicate (1 + operandBytes (BitVec.ofNat 8 w) - nbits / 8) 0#8

/-- What the decoder reads from a word of the opcode table; none where it refuses. -/
def decodeTableWord (nbits w : Nat) : Option Instr :=
  if nbits < 8 ∨ 2 ^ nbits ≤ w then none
  else
    match decode (tableLanguage nbits w) (tableFrame nbits w) with
    | .ok i => some i
    | .error _ => none

end Sys2Proof
end

