-- ==== Sys2Proof/Machine/State.lean ====
section
/-!
DEFINITION. The state of the block (spec/10_state.md S01 to S27, O1 to O4, I1, I2, FAULTS), of the host agent
(spec/43_host_interface.md R224, spec/44_host_library.md) and of token memory (spec/20_memory.md R60), as plain data,
grouped by the unit each element belongs to (spec/00_scope.md R1); the reasons a step can stop; the state after reset.
-/

namespace Sys2Proof.Machine

/-! ### Names for the legal values -/

/-- SND_STATE (10 R34); the values 6 and 7 are never written, so they are not there. -/
inductive SndState where
  | idle
  | playing
  | paused
  | stopRequested
  | startRequested
  | disabled
  deriving DecidableEq, Repr

/-- SND_FADE_DIR (10 R40); the value 3 is never written. -/
inductive FadeDir where
  | off
  | up
  | down
  deriving DecidableEq, Repr

/-- MEAS_STATE (10 R50); the value 3 is never reached. -/
inductive MeasState where
  | noBoundary
  | discarded
  | valid
  deriving DecidableEq, Repr

/-- An Out on the hardware surface (10 R48). -/
inductive Event where
  | rowEn (v : BitVec 8)
  | colOut (v : BitVec 32)
  | toneOn (v : Bool)
  | tonePeriod (v : BitVec Config.wPeriod)
  deriving DecidableEq, Repr

/-- A member of FAULTS: a fault code with its recorded information (60 R260). -/
inductive ModelFault where
  /-- Code 1, with the command id. -/
  | notConfigured (id : Byte)
  /-- Code 2, with the divisor. -/
  | badDivisor (div : Int)
  /-- Code 3, with the coordinates. -/
  | uncheckedRange (x y : Int)
  /-- Code 4, with SND_CURSOR. -/
  | tokenOob (cursor : BitVec 17)
  /-- Code 5, with the id. -/
  | badCommand (id : Byte)
  deriving DecidableEq, Repr

/-- The typed result of a host command (30 R88, R89). -/
inductive Result where
  | colour (c : Colour)
  | mask (m : Byte)
  | flag (b : Bool)
  | note (n : BitVec 8)
  | frames (n : BitVec Config.wFrameCount)
  | load (elapsed dur : BitVec Config.wClock) (valid : Bool)
  deriving DecidableEq, Repr

/-- One of the 64 cells, number 8·y + x. -/
abbrev Cell := Fin 64

/-- A picture: 64 colour words, cell 8·y + x holding pixel (x, y) (10 R28). -/
abbrev Picture := Vector Colour 64

/-- A library routine in progress: which primitive comes next (44 R240 to R244). -/
inductive Routine where
  /-- FILL_RECT (unchecked) or FILL_RECT_S (checked): the next cell is (x + i, y + j), with i < w and j < h. -/
  | fill (checked : Bool) (x y : Int) (w h : Nat) (c : Colour) (j i : Nat)
  /-- SCROLL reading: the words read so far, in the order of their cells; `todo` is the order of the writes to come. -/
  | scrollRead (dir : Dir) (todo : List Cell) (old : List Colour)
  /-- SCROLL writing: the cells still to write. -/
  | scrollWrite (dir : Dir) (todo : List Cell) (old : List Colour)
  /-- FADE_PIXELS about to read the first cell of `todo`. -/
  | fadeRead (todo : List Cell)
  /-- FADE_PIXELS about to write the first cell of `todo`, whose word was `c`. -/
  | fadeWrite (c : Colour) (todo : List Cell)
  /-- FRAME_SYNC_SHOW_LOAD about to issue GET_LOAD_SAMPLE. -/
  | loadSample
  /-- FRAME_SYNC_SHOW_LOAD about to issue SET_AUX. -/
  | loadBar (bar : Byte)
  /-- FRAME_SYNC_SHOW_LOAD about to issue FRAME_SYNC. -/
  | loadSync
  deriving DecidableEq, Repr

/-- What the host does next when it is free: issue a command, given by its frame, or write a byte of token memory, which
it does outside the block (20 R60, R61). -/
inductive HostAct where
  | command (frame : List Byte)
  | writeToken (a : BitVec Config.wTaddr) (b : Byte)
  deriving DecidableEq, Repr

/-! ### The units -/

/-- The drive cursor, S01 to S04 (10 R22 to R25). -/
structure Drive where
  row : BitVec 3
  level : Level
  nextPat : BitVec 24
  divc : BitVec 4
  deriving DecidableEq, Repr

/-- Configuration, S05 and S06 (10 R26, R27). -/
structure Control where
  frameDivLog2 : BitVec 2
  configured : Bool
  deriving DecidableEq, Repr

/-- The picture store, S07 to S10 (10 R28 to R31). -/
structure Store where
  front : Picture
  back : Picture
  auxFront : Byte
  auxActive : Byte
  deriving DecidableEq, Repr

/-- The frame state, S11 to S15 (10 R32, R33, R50). -/
structure Frame where
  count : BitVec Config.wFrameCount
  signal : BitVec Config.wFrameSignal
  lastTs : BitVec Config.wClock
  sweepDur : BitVec Config.wClock
  meas : MeasState
  deriving DecidableEq, Repr

/-- The button state, S16 and S17 (10 R51). -/
structure Buttons where
  cur : Byte
  prev : Byte
  deriving DecidableEq, Repr

/-- The sound state, S18 to S27 (10 R21, R34 to R40). -/
structure Sound where
  state : SndState
  cursor : BitVec 17
  cursorValid : Bool
  note : BitVec 7
  dur : BitVec 7
  thr : BitVec 7
  subtick : BitVec 8
  tempo : Byte
  fadeDir : FadeDir
  fadeSpeed : BitVec 3
  deriving DecidableEq, Repr

/-- The held outputs, O1 to O4, and the history of every Out, oldest first (10 R44, R45, R48). -/
structure Outputs where
  rowEn : BitVec 8
  colOut : BitVec 32
  toneOn : Bool
  tonePeriod : BitVec Config.wPeriod
  events : List Event
  deriving DecidableEq, Repr

/-- The inputs I1 and I2 (10 R46, R47): the values the environment presents at the coming samples, oldest first. Past
the end of a list the sample is a free value of Config. Log entry 6. -/
structure Inputs where
  buttons : List (BitVec 6)
  clock : List (BitVec Config.wClock)
  deriving DecidableEq, Repr

/-- The host agent: HOST_WAIT (43 R224), the routine in progress (44 R246), the result of the last completed command
(30 R88), and what it will do next: a finite list, so no host issues commands for ever (DESIGN CHOICE, log entry 7). -/
structure HostAgent where
  wait : Option (BitVec Config.wFrameSignal)
  routine : Option Routine
  result : Option Result
  prog : List HostAct
  deriving DecidableEq, Repr

/-- The bytes of token memory that read other than 0x00, addresses strictly rising. -/
abbrev Memory := List Host.Cell

/-- The host's duty toward one stream, to leave its bytes alone (20 R70, 70 R285): the address that PLAY_SOUND named, and
the addresses the host wrote all the same (20 R75). -/
structure Duty where
  start : BitVec Config.wTaddr
  raced : List Nat
  deriving DecidableEq, Repr

/-- Token memory (20 R60), and the host's duties (the model's own, log entry 5): toward the stream started last, and after it
toward those abandoned since the last sequencer tick. -/
structure TokenMemory where
  bytes : Memory
  duties : List Duty
  deriving DecidableEq, Repr

/-- What is fixed for one machine and left open by the spec: TOKEN_MEM_SIZE (00 R7) and the cell orders of SCROLL and
FADE_PIXELS (44 R242, R243). Log entries 4 and 11. -/
structure Params where
  tokenMemSize : Fin (Config.tokenMemMax + 1)
  scrollOrder : List Cell
  fadeOrder : List Cell
  deriving DecidableEq, Repr

/-- The state of the block and its two agents. -/
structure State where
  drive : Drive
  ctl : Control
  store : Store
  frame : Frame
  btn : Buttons
  snd : Sound
  out : Outputs
  inp : Inputs
  /-- FAULTS (10 R49), without repeats. -/
  faults : List ModelFault
  host : HostAgent
  tmem : TokenMemory
  par : Params
  /-- The model's own: which agent moves at the coming steps, oldest first (60 R265). Log entry 10. -/
  sched : List Agent
  /-- The model's own: how many free values have been drawn. Log entry 6. -/
  draws : Nat
  deriving DecidableEq, Repr

/-! ### How a step can stop -/

/-- A fault of a step. -/
inductive Fault where
  /-- Raised by step where FAULTS is not empty: no agent takes a further step (60 R261). Safe: the chip may carry on
  where the model stops. -/
  | quiescent
  /-- Raised by the host agent's write of a token byte at an address at or above TOKEN_MEM_SIZE, which does not exist
  (20 R60, R73). Safe: the spec gives no such write a meaning. -/
  | pokeOutside (a : BitVec Config.wTaddr)
  deriving DecidableEq, Repr

/-- A refusal of a step. -/
inductive Refusal where
  /-- Raised by an arm of exec for an instruction without a meaning. Safe. -/
  | notModelled (mnemonic : String)
  /-- Raised by the host agent's step for a frame that is no whole command of 30 R89 in the model's own layout (log
  entry 13). Safe: every command the spec gives has a frame. -/
  | malformedFrame (e : DecodeError)
  deriving DecidableEq, Repr

/-! ### Reset -/

/-- The black picture. -/
def blackPicture : Picture := Vector.replicate 64 0#12

/-- The state right after reset: "reset" means the setup command (10, header), and these are the values of 10 R52 for a
divisor of 1 (DESIGN CHOICE, unsafe, log entry 1; the other choices are log entries 2 to 11). -/
def State.reset : State where
  drive := { row := 0, level := 0, nextPat := 0, divc := 1 }
  ctl := { frameDivLog2 := 0, configured := true }
  store := { front := blackPicture, back := blackPicture, auxFront := 0, auxActive := 0 }
  frame := { count := 0, signal := 0, lastTs := Config.clockDraw 0, sweepDur := 0, meas := .noBoundary }
  btn := { cur := 0, prev := 0 }
  snd :=
    { state := .idle, cursor := 0, cursorValid := false, note := 0, dur := 0, thr := 0, subtick := 0, tempo := 60,
      fadeDir := .off, fadeSpeed := 0 }
  out :=
    { rowEn := 0, colOut := 0, toneOn := false, tonePeriod := 0,
      events := [.rowEn 0, .colOut 0, .toneOn false, .tonePeriod 0] }
  inp := { buttons := [], clock := [] }
  faults := []
  host := { wait := none, routine := none, result := none, prog := [] }
  tmem := { bytes := [], duties := [] }
  par := { tokenMemSize := 65536, scrollOrder := List.finRange 64, fadeOrder := List.finRange 64 }
  sched := []
  draws := 1

end Sys2Proof.Machine
end

