-- ==== Sys2Proof/Machine/Ops.lean ====
section
/-!
DEFINITION. The named operations over memory, pictures, outputs, inputs and the host's answer, and the one operation that
raises a model fault (spec/60_exceptions.md R260).
-/

namespace Sys2Proof.Machine

/-- A step's result in this machine. -/
abbrev Answer := Host.Outcome State Fault Refusal

/-! ### Taking an exception

The block has no exception and no trap (60 R262). What a command or a fetch takes instead is a model fault: `raise`
records it, saves no register and changes no mode. There is no return (60 R267): the machine is quiescent from the next
step on (60 R261, runStep in Scheduler.lean). -/

/-- The number of a fault code (60 R260). -/
def ModelFault.code : ModelFault → Nat
  | .notConfigured _ => 1
  | .badDivisor _ => 2
  | .uncheckedRange _ _ => 3
  | .tokenOob _ => 4
  | .badCommand _ => 5

/-- raise Fault(code): the pair enters the set FAULTS (60 R260, 10 R49). The caller makes no further write. -/
def State.raise (s : State) (f : ModelFault) : State :=
  { s with faults := if s.faults.contains f then s.faults else s.faults ++ [f] }

/-- Continue with `k`, unless a raise has ended the step (60 R260). -/
def unlessRaised (s : State) (k : State → Answer) : Answer :=
  if s.faults = [] then k s else .next s

/-! ### Outputs (10 R44, R45, R48) -/

/-- Out(ROW_EN, v). -/
def State.outRowEn (s : State) (v : BitVec 8) : State :=
  { s with out := { s.out with rowEn := v, events := s.out.events ++ [.rowEn v] } }

/-- Out(COL_OUT, v). -/
def State.outColOut (s : State) (v : BitVec 32) : State :=
  { s with out := { s.out with colOut := v, events := s.out.events ++ [.colOut v] } }

/-- Out(TONE_ON, v). -/
def State.outToneOn (s : State) (v : Bool) : State :=
  { s with out := { s.out with toneOn := v, events := s.out.events ++ [.toneOn v] } }

/-- Out(TONE_PERIOD, v). -/
def State.outTonePeriod (s : State) (v : BitVec Config.wPeriod) : State :=
  { s with out := { s.out with tonePeriod := v, events := s.out.events ++ [.tonePeriod v] } }

/-! ### Inputs (10 R46, R47): the value of a sample, and the state after taking it -/

/-- The value In(CLOCK_US) samples now. -/
def State.clockNow (s : State) : BitVec Config.wClock :=
  match s.inp.clock with
  | v :: _ => v
  | [] => Config.clockDraw s.draws

/-- The state once In(CLOCK_US) has been sampled. -/
def State.clockTaken (s : State) : State :=
  match s.inp.clock with
  | _ :: vs => { s with inp := { s.inp with clock := vs } }
  | [] => { s with draws := s.draws + 1 }

/-- The value In(BTN_IN) samples now. -/
def State.buttonsNow (s : State) : BitVec 6 :=
  match s.inp.buttons with
  | v :: _ => v
  | [] => Config.buttonDraw s.draws

/-- The state once In(BTN_IN) has been sampled. -/
def State.buttonsTaken (s : State) : State :=
  match s.inp.buttons with
  | _ :: vs => { s with inp := { s.inp with buttons := vs } }
  | [] => { s with draws := s.draws + 1 }

/-! ### Token memory (20 R60, R61) -/

/-- What an address that the list does not name reads as (DESIGN CHOICE, unsafe, log entry 3). -/
def unlistedByte : Byte := 0x00#8

/-- The byte at an address. -/
def Memory.read : Memory → Nat → Byte
  | [], _ => unlistedByte
  | (k, v) :: m, a => if a = k then v else Memory.read m a

/-- Memory with the byte at an address replaced, in canonical form. -/
def Memory.write : Memory → Nat → Byte → Memory
  | [], a, b => if b = unlistedByte then [] else [(a, b)]
  | (k, v) :: m, a, b =>
    if a < k then (if b = unlistedByte then (k, v) :: m else (a, b) :: (k, v) :: m)
    else if a = k then (if b = unlistedByte then m else (a, b) :: m)
    else (k, v) :: Memory.write m a b

/-- Every address of the list is above `lo`. -/
def Memory.above (lo : Nat) : Memory → Bool
  | [] => true
  | (k, _) :: m => decide (lo < k) && Memory.above lo m

/-- The canonical form: addresses strictly rising, no entry that an unlisted address reads as. -/
def Memory.wf : Memory → Bool
  | [] => true
  | (k, v) :: m => decide (v ≠ unlistedByte) && Memory.above k m && Memory.wf m

/-- TOKEN_MEM_SIZE. -/
def State.tokenSize (s : State) : Nat := s.par.tokenMemSize.val

/-- The host raced the byte at `a` with a stream it still has a duty toward (20 R75). -/
def TokenMemory.isRaced (m : TokenMemory) (a : Nat) : Bool := m.duties.any fun d => d.raced.contains a

/-- MemRead(a, 1): the byte at a token address, or a free value where the host raced with the stream (20 R61, R75). -/
def State.tokenByte (s : State) (a : Nat) : Byte :=
  if s.tmem.isRaced a then Config.tokenDraw s.draws else Memory.read s.tmem.bytes a

/-- The state once the byte at a token address has been read: only a free value leaves a trace, in the model's own
counter. -/
def State.tokenRead (s : State) (a : Nat) : State :=
  if s.tmem.isRaced a then { s with draws := s.draws + 1 } else s

/-- The states in which the sequencer may still read the running stream (20 R70). -/
def SndState.live : SndState → Bool
  | .startRequested => true
  | .playing => true
  | .paused => true
  | .idle => false
  | .stopRequested => false
  | .disabled => false

/-- Some address of the `n` from `a` on surely holds END: it is not raced and reads 0x00. -/
def TokenMemory.endWithin (m : TokenMemory) : Nat → Nat → Bool
  | _, 0 => false
  | a, n + 1 => (!m.isRaced a && decide (Memory.read m.bytes a = 0x00#8)) || TokenMemory.endWithin m (a + 1) n

/-- A stream read from `c` on may reach the byte at `a` (20 R70): no address from `c` up to the one before `a` surely
holds its END. -/
def TokenMemory.reaches (m : TokenMemory) (c a : Nat) : Bool := decide (c ≤ a) && !m.endWithin c (a - c)

/-- The byte at `a` is one the host must leave alone for the stream of a duty: a byte of that stream (70 R285), and where it
is the running stream, one the sequencer may still read from SND_CURSOR on (20 R70). -/
def State.mustLeave (s : State) (running : Bool) (d : Duty) (a : Nat) : Bool :=
  s.tmem.reaches d.start.toNat a ||
    (running && s.snd.state.live && s.tmem.reaches s.snd.cursor.toNat a)

/-- A duty after the host has written the byte at `a`: a byte it had to leave alone is raced (20 R75, 70 R285), in whatever
SND_STATE (log entry 24). -/
def State.dutyAfter (s : State) (a : Nat) (running : Bool) (d : Duty) : Duty :=
  if s.mustLeave running d a && !d.raced.contains a then { d with raced := d.raced ++ [a] } else d

/-- The duties after the host has written the byte at `a`. The first is the one toward the running stream, if one runs. -/
def State.dutiesAfter (s : State) (a : Nat) : List Duty :=
  match s.tmem.duties with
  | [] => []
  | d :: ds => s.dutyAfter a true d :: ds.map (s.dutyAfter a false)

/-- The addresses raced with the stream that starts at `a`. -/
def TokenMemory.racedWith (m : TokenMemory) (a : BitVec Config.wTaddr) : List Nat :=
  (m.duties.filter fun d => d.start == a).flatMap Duty.raced

/-- PLAY_SOUND `a` begins a duty toward the stream at `a`; if the host still had one toward that stream, what it raced stays
raced (70 R285). -/
def State.beginDuty (s : State) (a : BitVec Config.wTaddr) : State :=
  { s with tmem := { s.tmem with
      duties := { start := a, raced := s.tmem.racedWith a } :: s.tmem.duties.filter fun d => d.start != a } }

/-- What the end of a sequencer tick leaves of the duties: the one toward the stream that is live, if one is (70 R285). -/
def State.dutiesEnd (s : State) : State :=
  { s with tmem := { s.tmem with duties := if s.snd.state.live then s.tmem.duties.take 1 else [] } }

/-- The host writes a byte of token memory, outside the block (20 R61), with what that does to its duties (20 R70, R75);
an address at or above TOKEN_MEM_SIZE does not exist. -/
def State.writeToken (s : State) (a : BitVec Config.wTaddr) (b : Byte) : Answer :=
  if a.toNat < s.tokenSize then
    .next { s with
      tmem := { bytes := Memory.write s.tmem.bytes a.toNat b, duties := s.dutiesAfter a.toNat } }
  else .fault (.pokeOutside a)

/-! ### Pictures (10 R28) -/

/-- The cell of pixel (x, y). -/
def cellOf (x y : Fin 8) : Cell := ⟨8 * y.val + x.val, by omega⟩

/-- The column of a cell. -/
def Cell.x (k : Cell) : Fin 8 := ⟨k.val % 8, by omega⟩

/-- The row of a cell. -/
def Cell.y (k : Cell) : Fin 8 := ⟨k.val / 8, by omega⟩

/-- The word of a cell. -/
def Picture.cell (p : Picture) (k : Cell) : Colour := p[k.val]

/-- The word of pixel (x, y). -/
def Picture.pixel (p : Picture) (x y : Fin 8) : Colour := Picture.cell p (cellOf x y)

/-- The picture with the word of pixel (x, y) replaced. -/
def Picture.withPixel (p : Picture) (x y : Fin 8) (c : Colour) : Picture :=
  p.set (cellOf x y).val c (cellOf x y).isLt

/-- FRONT with the word of pixel (x, y) replaced. -/
def State.setFront (s : State) (x y : Fin 8) (c : Colour) : State :=
  { s with store := { s.store with front := Picture.withPixel s.store.front x y c } }

/-- AUX_FRONT replaced. -/
def State.setAuxFront (s : State) (m : Byte) : State :=
  { s with store := { s.store with auxFront := m } }

/-! ### The host agent -/

/-- A command completes with a result, or with none. -/
def State.answer (s : State) (r : Option Result) : State :=
  { s with host := { s.host with result := r } }

/-- The command completes: the next state, with the host's result. -/
def complete (s : State) (r : Option Result) : Answer := .next (s.answer r)

/-- The precondition of every command but SETUP (43 R219, tested first: 60 R263). -/
def ifConfigured (id : Byte) (s : State) (k : Answer) : Answer :=
  if s.ctl.configured then k else .next (s.raise (.notConfigured id))

/-- The host enters a library routine, or has nothing to do in it. -/
def State.startRoutine (s : State) (r : Option Routine) : State :=
  { s with host := { s.host with routine := r, result := none } }

/-! ### Configuration and reset -/

/-- FRAME_DIV from its 2-bit field (10 R26): 1, 2, 4 or 8. -/
def frameDivOf (log2 : BitVec 2) : BitVec 4 := 1#4 <<< log2.toNat

/-- The 2-bit field for a legal divisor, its place in DIVISORS, and none for any other integer (10 R26, 43 R200). -/
def frameDivLog2Of (div : Int) : Option (BitVec 2) := (Config.divisors.idxOf? div).map (BitVec.ofNat 2)

/-- RESET (70 R280) with the divisor whose field is `log2`. FAULTS, the bytes of token memory and what the host will do next
are not touched. The host's duty toward a stream that ran stays until the next sequencer tick (70 R285). -/
def State.resetWith (s : State) (log2 : BitVec 2) : State :=
  let t := s.clockTaken
  let u : State :=
    { t with
      drive := { row := 0, level := 0, nextPat := 0, divc := frameDivOf log2 }
      ctl := { frameDivLog2 := log2, configured := true }
      store := { front := blackPicture, back := blackPicture, auxFront := 0, auxActive := 0 }
      frame := { count := 0, signal := 0, lastTs := s.clockNow, sweepDur := 0, meas := .noBoundary }
      btn := { cur := 0, prev := 0 }
      snd :=
        { state := .idle, cursor := 0, cursorValid := false, note := 0, dur := 0, thr := 0, subtick := 0,
          tempo := Config.tempoDefault, fadeDir := .off, fadeSpeed := 0 }
      host := { t.host with wait := none } }
  (((u.outRowEn 0x00).outColOut 0).outToneOn false).outTonePeriod 0

/-- The power-on state (70 R281): CONFIGURED = 0, FAULTS empty, HOST_WAIT none and no routine begun; everything else
is whatever `u` holds, since the spec leaves it unspecified. No stream has been started yet, so the host has no duty toward
one, and no write of a token byte reads an unspecified value. -/
def State.powerOn (u : State) : State :=
  { u with
    ctl := { u.ctl with configured := false }
    faults := []
    host := { u.host with wait := none, routine := none }
    tmem := { u.tmem with duties := [] } }

end Sys2Proof.Machine
end

