-- ==== Sys2Proof/Machine/Operands.lean ====
section
/-!
DEFINITION. Every operand form: ranges of coordinates and indices, colours (spec/43_host_interface.md R207, R208),
durations and tempo (spec/30_encoding.md R84, R85), the load bar (spec/44_host_library.md R245), the scroll map (R242) and
the fade of a colour (R243).
-/

namespace Sys2Proof.Machine

/-! ### Integers that may lie out of range (30 R88) -/

/-- An integer as an index below `n`, none where it is out of range. -/
def indexBelow (n : Nat) (v : Int) : Option (Fin n) :=
  if h : 0 ≤ v ∧ v < n then some ⟨v.toNat, by omega⟩ else none

/-- A coordinate pair of the matrix, none unless 0 ≤ x < 8 and 0 ≤ y < 8 (43 R203). -/
def inMatrix (x y : Int) : Option (Fin 8 × Fin 8) :=
  match indexBelow Config.nCols x, indexBelow Config.nRows y with
  | some cx, some cy => some (cx, cy)
  | some _, none => none
  | none, _ => none

/-- An auxiliary LED index, 0 ≤ i < 8 (43 R211). -/
def auxIndex (v : Int) : Option (Fin 8) := indexBelow Config.nAux v

/-- A button index, 0 ≤ i < 6 (43 R216). -/
def buttonIndex (v : Int) : Option (Fin 6) := indexBelow Config.nButtons v

/-! ### Colours (43 R207, R208) -/

/-- COLOR(r, g, b) = {r[3:0], g[3:0], b[3:0]}; a larger operand keeps its low 4 bits. -/
def color (r g b : Nat) : Colour := BitVec.ofNat 4 r ++ BitVec.ofNat 4 g ++ BitVec.ofNat 4 b

/-- RED(c) = c[11:8]. -/
def red (c : Colour) : Level := c.extractLsb' 8 4

/-- GREEN(c) = c[7:4]. -/
def green (c : Colour) : Level := c.extractLsb' 4 4

/-- BLUE(c) = c[3:0]. -/
def blue (c : Colour) : Level := c.extractLsb' 0 4

/-- FADE_PIXELS on one word (44 R243): each channel falls by one, saturating at zero. -/
def fadeColour (c : Colour) : Colour :=
  color ((red c).toNat - 1) ((green c).toNat - 1) ((blue c).toNat - 1)

/-! ### Sound operands -/

/-- DUR(d) = 64 >> d, in 1/64-note units (30 R84). -/
def durOf (d : BitVec 3) : BitVec 7 := 64#7 >>> d.toNat

/-- TEMPO_TABLE[i] (30 R85). -/
def tempoOf (k : BitVec 4) : Byte := Config.tempoTable[k.toNat]'(by omega)

/-- NOTE_PERIOD[n], whose entries are free values (30 R87). -/
def periodOf (n : BitVec 7) : BitVec Config.wPeriod := Config.notePeriod n.toFin

/-- The period one fade step down in pitch or up (42 R168), saturating at the extremes 0 and 0xFFFF. -/
def fadePeriod (dir : FadeDir) (v : BitVec 3) (p : BitVec Config.wPeriod) : BitVec Config.wPeriod :=
  match dir with
  | .up => BitVec.ofNat 16 (p.toNat - v.toNat)
  | .off => BitVec.ofNat 16 (min (p.toNat + v.toNat) 0xFFFF)
  | .down => BitVec.ofNat 16 (min (p.toNat + v.toNat) 0xFFFF)

/-! ### Library operands -/

/-- LOAD_BAR(e, D) on unbounded non-negative integers (44 R245). At D = 0 the pseudocode divides by zero and the spec gives no
value: a free value stands there (DESIGN CHOICE, log entry 23). No step of the machine asks for it (44 R244: D > 0). -/
def loadBar (e d : Nat) : Byte :=
  if d = 0 then Config.loadBarZero e
  else if e ≤ d then BitVec.ofNat 8 (2 ^ (8 * e / d) - 1)
  else 0xFF#8 <<< min 7 (8 * (e - d) / (3 * d))

/-- The cell whose old word SCROLL writes into a cell (44 R242). -/
def scrollSource (dir : Dir) (k : Cell) : Cell :=
  match dir with
  | .left => cellOf (Cell.x k + 1) (Cell.y k)
  | .right => cellOf (Cell.x k + 7) (Cell.y k)
  | .down => cellOf (Cell.x k) (Cell.y k + 1)
  | .up => cellOf (Cell.x k) (Cell.y k + 7)

/-- A coordinate of a cell as the integer operand of a pixel command. -/
def coord (v : Fin 8) : Int := (v.val : Int)

end Sys2Proof.Machine
end

