-- ==== Sys2Proof/Machine/Flags.lean ====
section
/-!
DEFINITION. The block has no arithmetic flag (spec/10_state.md R42). What it computes as bits stands here: the status
codes of R34, R40 and R50, the lanes of the threshold compare (spec/40_multiplexer.md R106), the button edges and the
played note (spec/43_host_interface.md R213, R216 to R218, R223).
-/

namespace Sys2Proof.Machine

/-! ### Status codes -/

/-- The 3-bit encoding of SND_STATE (10 R34). -/
def SndState.code : SndState → BitVec 3
  | .idle => 0
  | .playing => 1
  | .paused => 2
  | .stopRequested => 3
  | .startRequested => 4
  | .disabled => 5

/-- The 2-bit encoding of SND_FADE_DIR (10 R40). -/
def FadeDir.code : FadeDir → BitVec 2
  | .off => 0
  | .up => 1
  | .down => 2

/-- The 2-bit encoding of MEAS_STATE (10 R50). -/
def MeasState.code : MeasState → BitVec 2
  | .noBoundary => 0
  | .discarded => 1
  | .valid => 2

/-- MEAS_STATE = 2: the measurement is valid (10 R42, R50). -/
def MeasState.isValid : MeasState → Bool
  | .noBoundary => false
  | .discarded => false
  | .valid => true

/-! ### Lanes -/

/-- The byte whose bit x is `f x`. -/
def byteOfLanes (f : Fin 8 → Bool) : Byte :=
  BitVec.ofBool (f 7) ++ BitVec.ofBool (f 6) ++ BitVec.ofBool (f 5) ++ BitVec.ofBool (f 4) ++
    BitVec.ofBool (f 3) ++ BitVec.ofBool (f 2) ++ BitVec.ofBool (f 1) ++ BitVec.ofBool (f 0)

/-- A channel is lit at threshold `t`: strictly greater, unsigned over 4 bits (40 R106). -/
def lit (v t : Level) : Bool := decide (t < v)

/-- PATTERN (40 R106): {R, G, B} of row `y` at threshold `t`. -/
def pattern (p : Picture) (y : Fin 8) (t : Level) : BitVec 24 :=
  byteOfLanes (fun x => lit (red (Picture.pixel p x y)) t) ++
    byteOfLanes (fun x => lit (green (Picture.pixel p x y)) t) ++
      byteOfLanes (fun x => lit (blue (Picture.pixel p x y)) t)

/-! ### Bits of masks -/

/-- Bit `k` of a mask. -/
def bitAt (m : Byte) (k : Fin 8) : Bool := m.getLsbD k.val

/-- A mask with bit `k` set or cleared (43 R211, R212). -/
def withBit (m : Byte) (k : Fin 8) (b : Bool) : Byte :=
  if b then m ||| (1#8 <<< k.val) else m &&& ~~~(1#8 <<< k.val)

/-- Bit now set and was clear (43 R216). -/
def pressedBit (cur prev : Byte) (k : Fin 6) : Bool := cur.getLsbD k.val && !prev.getLsbD k.val

/-- Bit currently set (43 R217). -/
def downBit (cur : Byte) (k : Fin 6) : Bool := cur.getLsbD k.val

/-- Bit now clear and was set (43 R218). -/
def releasedBit (cur prev : Byte) (k : Fin 6) : Bool := !cur.getLsbD k.val && prev.getLsbD k.val

/-- 0 if silent, else the 1-based note index (43 R223). -/
def playedNote (toneOn : Bool) (n : BitVec 7) : BitVec 8 := if toneOn then n.setWidth 8 + 1 else 0

end Sys2Proof.Machine
end

