-- ==== Sys2Proof/Machine/HostAux.lean ====
section
/-!
DEFINITION. The auxiliary LED commands (spec/43_host_interface.md R209 to R213).
-/

namespace Sys2Proof.Machine

/-- SET_AUX mask (43 R209). -/
def execSetAux (mask : Byte) (s : State) : Answer :=
  ifConfigured 0x08 s (complete (s.setAuxFront mask) none)

/-- GET_AUX (43 R210). -/
def execGetAux (s : State) : Answer :=
  ifConfigured 0x09 s (complete s (some (.mask s.store.auxFront)))

/-- AUX_ENABLE i (43 R211): nothing where i is out of range. -/
def execAuxEnable (k : Int) (s : State) : Answer :=
  ifConfigured 0x0A s
    (match auxIndex k with
    | some n => complete (s.setAuxFront (withBit s.store.auxFront n true)) none
    | none => complete s none)

/-- AUX_DISABLE i (43 R212): nothing where i is out of range. -/
def execAuxDisable (k : Int) (s : State) : Answer :=
  ifConfigured 0x0B s
    (match auxIndex k with
    | some n => complete (s.setAuxFront (withBit s.store.auxFront n false)) none
    | none => complete s none)

/-- AUX_IS_ENABLED i (43 R213): false where i is out of range. -/
def execAuxIsEnabled (k : Int) (s : State) : Answer :=
  ifConfigured 0x0C s
    (match auxIndex k with
    | some n => complete s (some (.flag (bitAt s.store.auxFront n)))
    | none => complete s (some (.flag false)))

end Sys2Proof.Machine
end

