-- ==== Sys2Proof/Machine/HostButtons.lean ====
section
/-!
DEFINITION. The button queries (spec/43_host_interface.md R214 to R218). Index 0 is B, 1 A, 2 Up, 3 Down, 4 Left, 5 Right
(R228, spec/10_state.md R51).
-/

namespace Sys2Proof.Machine

/-- GET_BUTTONS_CUR (43 R214). -/
def execGetButtonsCur (s : State) : Answer :=
  ifConfigured 0x0D s (complete s (some (.mask s.btn.cur)))

/-- GET_BUTTONS_LAST (43 R215). -/
def execGetButtonsLast (s : State) : Answer :=
  ifConfigured 0x0E s (complete s (some (.mask s.btn.prev)))

/-- A button query: false where the index is out of range (43 R216 to R218). -/
def buttonQuery (k : Int) (f : Fin 6 → Bool) (s : State) : Answer :=
  match buttonIndex k with
  | some n => complete s (some (.flag (f n)))
  | none => complete s (some (.flag false))

/-- BUTTON_PRESSED i (43 R216). -/
def execButtonPressed (k : Int) (s : State) : Answer :=
  ifConfigured 0x0F s (buttonQuery k (pressedBit s.btn.cur s.btn.prev) s)

/-- BUTTON_DOWN i (43 R217). -/
def execButtonDown (k : Int) (s : State) : Answer :=
  ifConfigured 0x10 s (buttonQuery k (downBit s.btn.cur) s)

/-- BUTTON_RELEASED i (43 R218). -/
def execButtonReleased (k : Int) (s : State) : Answer :=
  ifConfigured 0x11 s (buttonQuery k (releasedBit s.btn.cur s.btn.prev) s)

end Sys2Proof.Machine
end

