-- ==== Sys2Proof/Machine/HostFrame.lean ====
section
/-!
DEFINITION. Frame synchronisation (spec/43_host_interface.md R224 to R226). FRAME_SYNC is two host steps: the command is
the call step, and the return step is frameSyncReturn, which the host agent takes when it is enabled.
-/

namespace Sys2Proof.Machine

/-- FRAME_SYNC, call step (43 R224). -/
def execFrameSync (s : State) : Answer :=
  ifConfigured 0x16 s (.next { s with host := { s.host with wait := some s.frame.signal } })

/-- FRAME_SYNC, return step (43 R225): the wait ends, the result is FRAME_COUNT read whole. -/
def frameSyncReturn (s : State) : Answer :=
  complete { s with host := { s.host with wait := none } } (some (.frames s.frame.count))

/-- GET_LOAD_SAMPLE (43 R226): the time since LAST_TS mod 2^32, SWEEP_DUR and whether the measurement is valid. -/
def execGetLoadSample (s : State) : Answer :=
  ifConfigured 0x17 s
    (complete s.clockTaken
      (some (.load (s.clockNow - s.frame.lastTs) s.frame.sweepDur s.frame.meas.isValid)))

end Sys2Proof.Machine
end

