-- ==== Sys2Proof/Machine/HostLibrary.lean ====
section
/-!
DEFINITION. The library routines (spec/44_host_library.md). None is atomic (R246): issuing one begins a routine, and each
later host step performs the routine's next primitive through that primitive's own meaning (routineStep in
HostAgent.lean), with tick steps allowed in between. So the definition of a routine is its sequence of primitives:
Routine.primitive says which comes next, and Routine.after what remains once it has completed.
-/

namespace Sys2Proof.Machine

/-- The primitive a routine issues next (44 R240 to R244). A routine with no cell left issues none; it does not arise,
because Routine.after ends it. -/
def Routine.primitive : Routine → Option Instr
  | .fill checked x y _ _ c j i =>
    if checked then some (.setPixelS (x + i) (y + j) c) else some (.setPixel (x + i) (y + j) c)
  | .scrollRead _ _ old =>
    if h : old.length < 64 then
      let k : Cell := ⟨old.length, h⟩
      some (.getPixel (coord (Cell.x k)) (coord (Cell.y k)))
    else none
  | .scrollWrite _ [] _ => none
  | .scrollWrite dir (k :: _) old =>
    some (.setPixel (coord (Cell.x k)) (coord (Cell.y k)) (old.getD (scrollSource dir k).val 0))
  | .fadeRead [] => none
  | .fadeRead (k :: _) => some (.getPixel (coord (Cell.x k)) (coord (Cell.y k)))
  | .fadeWrite _ [] => none
  | .fadeWrite c (k :: _) => some (.setPixel (coord (Cell.x k)) (coord (Cell.y k)) (fadeColour c))
  | .loadSample => some .getLoadSample
  | .loadBar bar => some (.setAux bar)
  | .loadSync => some .frameSync

/-- SCROLL's writes, or nothing where there is none. -/
def scrollWrites (dir : Dir) (todo : List Cell) (old : List Colour) : Option Routine :=
  match todo with
  | [] => none
  | k :: ks => some (.scrollWrite dir (k :: ks) old)

/-- FADE_PIXELS from its next cell, or nothing where there is none. -/
def fadeCells (todo : List Cell) : Option Routine :=
  match todo with
  | [] => none
  | k :: ks => some (.fadeRead (k :: ks))

/-- What remains of a routine once its primitive has completed with a result (44 R240 to R244). -/
def Routine.after (r : Routine) (result : Option Result) : Option Routine :=
  match r, result with
  | .fill checked x y w h c j i, _ =>
    if i + 1 < w then some (.fill checked x y w h c j (i + 1))
    else if j + 1 < h then some (.fill checked x y w h c (j + 1) 0)
    else none
  | .scrollRead dir todo old, some (.colour c) =>
    if old.length + 1 < 64 then some (.scrollRead dir todo (old ++ [c]))
    else scrollWrites dir todo (old ++ [c])
  | .scrollRead _ _ _, _ => none
  | .scrollWrite dir todo old, _ => scrollWrites dir todo.tail old
  | .fadeRead todo, some (.colour c) => some (.fadeWrite c todo)
  | .fadeRead _, _ => none
  | .fadeWrite _ todo, _ => fadeCells todo.tail
  | .loadSample, some (.load e d valid) =>
    if valid = true ∧ 0 < d.toNat then some (.loadBar (Sys2Proof.Machine.loadBar e.toNat d.toNat)) else some .loadSync
  | .loadSample, _ => none
  | .loadBar _, _ => some .loadSync
  | .loadSync, _ => none

/-- The cells of FILL_RECT and FILL_RECT_S, row after row; none where w ≤ 0 or h ≤ 0 (44 R240). -/
def fillRoutine (checked : Bool) (x y w h : Int) (c : Colour) : Option Routine :=
  if 0 < w ∧ 0 < h then some (.fill checked x y w.toNat h.toNat c 0 0) else none

/-- FILL_RECT x, y, w, h, c (44 R240): SET_PIXEL for each cell. -/
def execFillRect (x y w h : Int) (c : Colour) (s : State) : Answer :=
  ifConfigured 0x20 s (.next (s.startRoutine (fillRoutine false x y w h c)))

/-- FILL_RECT_S x, y, w, h, c (44 R241): SET_PIXEL_S for each cell. -/
def execFillRectS (x y w h : Int) (c : Colour) (s : State) : Answer :=
  ifConfigured 0x21 s (.next (s.startRoutine (fillRoutine true x y w h c)))

/-- SCROLL dir (44 R242): 64 reads, then 64 writes in the machine's own order (log entry 11). -/
def execScroll (dir : Dir) (s : State) : Answer :=
  ifConfigured 0x22 s (.next (s.startRoutine (some (.scrollRead dir s.par.scrollOrder []))))

/-- FADE_PIXELS (44 R243): a read and a write of each cell, in the machine's own order (log entry 11). -/
def execFadePixels (s : State) : Answer :=
  ifConfigured 0x23 s (.next (s.startRoutine (fadeCells s.par.fadeOrder)))

/-- FRAME_SYNC_SHOW_LOAD (44 R244). -/
def execFrameSyncShowLoad (s : State) : Answer :=
  ifConfigured 0x24 s (.next (s.startRoutine (some .loadSample)))

end Sys2Proof.Machine
end

