-- ==== Sys2Proof/Machine/HostPixels.lean ====
section
/-!
DEFINITION. The pixel commands (spec/43_host_interface.md R201 to R206).
-/

namespace Sys2Proof.Machine

/-- CLEAR (43 R201): FRONT and AUX_FRONT. -/
def execClear (s : State) : Answer :=
  ifConfigured 0x02 s (complete { s with store := { s.store with front := blackPicture, auxFront := 0 } } none)

/-- CLEAR_PIXELS (43 R202): FRONT only. -/
def execClearPixels (s : State) : Answer :=
  ifConfigured 0x03 s (complete { s with store := { s.store with front := blackPicture } } none)

/-- SET_PIXEL x, y, c, unchecked (43 R203). -/
def execSetPixel (x y : Int) (c : Colour) (s : State) : Answer :=
  ifConfigured 0x04 s
    (match inMatrix x y with
    | some p => complete (s.setFront p.1 p.2 c) none
    | none => .next (s.raise (.uncheckedRange x y)))

/-- SET_PIXEL_S x, y, c, checked: an out-of-range write is dropped (43 R204). -/
def execSetPixelS (x y : Int) (c : Colour) (s : State) : Answer :=
  ifConfigured 0x05 s
    (match inMatrix x y with
    | some p => complete (s.setFront p.1 p.2 c) none
    | none => complete s none)

/-- GET_PIXEL x, y, unchecked (43 R205): FRONT, not BACK. -/
def execGetPixel (x y : Int) (s : State) : Answer :=
  ifConfigured 0x06 s
    (match inMatrix x y with
    | some p => complete s (some (.colour (Picture.pixel s.store.front p.1 p.2)))
    | none => .next (s.raise (.uncheckedRange x y)))

/-- GET_PIXEL_S x, y, checked: an out-of-range read returns black (43 R206). -/
def execGetPixelS (x y : Int) (s : State) : Answer :=
  ifConfigured 0x07 s
    (match inMatrix x y with
    | some p => complete s (some (.colour (Picture.pixel s.store.front p.1 p.2)))
    | none => complete s (some (.colour 0x000)))

end Sys2Proof.Machine
end

