-- ==== Sys2Proof/Machine/HostSetup.lean ====
section
/-!
DEFINITION. SETUP (spec/43_host_interface.md R200) and the meaning of an unknown command id (R227).
-/

namespace Sys2Proof.Machine

/-- SETUP div (43 R200, 70 R280, R283): legal whether or not the block is configured. -/
def execSetup (div : Int) (s : State) : Answer :=
  match frameDivLog2Of div with
  | some log2 => complete (s.resetWith log2) none
  | none => .next (s.raise (.badDivisor div))

/-- BAD_COMMAND (43 R227), after the configuration test (60 R263). -/
def execBadCommand (id : Byte) (s : State) : Answer :=
  ifConfigured id s (.next (s.raise (.badCommand id)))

end Sys2Proof.Machine
end

