-- ==== Sys2Proof/Machine/HostSound.lean ====
section
/-!
DEFINITION. The sound commands (spec/43_host_interface.md R220 to R223).
-/

namespace Sys2Proof.Machine

/-- PLAY_SOUND a (43 R220): cursor and state together; nothing while Disabled. From now on the host must leave the
stream's bytes alone (70 R285). -/
def execPlaySound (a : BitVec Config.wTaddr) (s : State) : Answer :=
  ifConfigured 0x12 s
    (if s.snd.state = .disabled then complete s none
    else complete
      { s.beginDuty a with
        snd := { s.snd with cursor := a.setWidth 17, cursorValid := true, state := .startRequested } }
      none)

/-- STOP_SOUND (43 R221): nothing while Disabled. -/
def execStopSound (s : State) : Answer :=
  ifConfigured 0x13 s
    (if s.snd.state = .disabled then complete s none
    else complete { s with snd := { s.snd with state := .stopRequested } } none)

/-- DISABLE_SOUND (43 R222): at once, from any state. -/
def execDisableSound (s : State) : Answer :=
  let t := s.outToneOn false
  ifConfigured 0x14 s
    (complete { t with snd := { t.snd with state := .disabled, cursorValid := false } } none)

/-- GET_PLAYED_NOTE (43 R223). -/
def execGetPlayedNote (s : State) : Answer :=
  ifConfigured 0x15 s (complete s (some (.note (playedNote s.out.toneOn s.snd.note))))

end Sys2Proof.Machine
end

