-- ==== Sys2Proof/Machine/Tokens.lean ====
section
/-!
DEFINITION. The meaning of each sound token (spec/42_sound_sequencer.md R181 to R192), run inside a scan after the fetch
has advanced the cursor. Whether the scan goes on is Instr.endsScan in Sequencer.lean.
-/

namespace Sys2Proof.Machine

/-- START_NOTE (42 R169), shared by PLAY, PLAYR and PLAYS: the duration, the silence threshold, the sub-tick timer, the
period of the last selected note, then the tone on. -/
def startNote (s : State) (dur thr : BitVec 7) : State :=
  let t : State := { s with snd := { s.snd with dur := dur, thr := thr, subtick := s.snd.tempo } }
  let u := (t.outTonePeriod (periodOf t.snd.note)).outToneOn true
  { u with snd := { u.snd with state := .playing } }

/-- The fade fields (42 R189 to R191). -/
def State.setFade (s : State) (dir : FadeDir) (v : BitVec 3) : State :=
  { s with snd := { s.snd with fadeDir := dir, fadeSpeed := v } }

/-- The tone off, the sound Idle and the cursor no longer valid (42 R162, R182). -/
def State.silence (s : State) : State :=
  let t := s.outToneOn false
  { t with snd := { t.snd with state := .idle, cursorValid := false } }

/-- NOTE n (42 R181): SND_NOTE only. -/
def execNote (n : BitVec 7) (s : State) : Answer := .next { s with snd := { s.snd with note := n } }

/-- END (42 R182). -/
def execEndTok (s : State) : Answer := .next s.silence

/-- PLAY d (42 R183): threshold 0. -/
def execPlay (d : BitVec 3) (s : State) : Answer := .next (startNote s (durOf d) 0)

/-- PLAYR d (42 R184): threshold 1. -/
def execPlayr (d : BitVec 3) (s : State) : Answer := .next (startNote s (durOf d) 1)

/-- PLAYS d (42 R185): threshold DUR(d) / 2. -/
def execPlays (d : BitVec 3) (s : State) : Answer := .next (startNote s (durOf d) (durOf d / 2))

/-- PAUSE d (42 R186). -/
def execPause (d : BitVec 3) (s : State) : Answer :=
  let t := s.outToneOn false
  .next { t with snd := { t.snd with state := .paused, dur := durOf d, thr := 0, subtick := t.snd.tempo } }

/-- TEMPO i (42 R187): SND_TEMPO only. -/
def execTempo (k : BitVec 4) (s : State) : Answer := .next { s with snd := { s.snd with tempo := tempoOf k } }

/-- FADEOFF (42 R189). -/
def execFadeoff (s : State) : Answer := .next (s.setFade .off 0)

/-- FADEUP v (42 R190). -/
def execFadeup (v : BitVec 3) (s : State) : Answer := .next (s.setFade .up v)

/-- FADEDN v (42 R191). -/
def execFadedn (v : BitVec 3) (s : State) : Answer := .next (s.setFade .down v)

/-- UNRECOGNIZED (42 R192): nothing; the fetch has already advanced the cursor. -/
def execUnrecognized (_b : Byte) (s : State) : Answer := .next s

end Sys2Proof.Machine
end

