-- ==== Sys2Proof/Machine/Dispatch.lean ====
section
/-!
DEFINITION. exec: one arm for each instruction, a direct call of its meaning.
-/

namespace Sys2Proof.Machine

def exec (i : Instr) (s : State) : Host.Outcome State Fault Refusal :=
  match i with
  | .endTok => Sys2Proof.Machine.execEndTok s
  | .play d => Sys2Proof.Machine.execPlay d s
  | .playr d => Sys2Proof.Machine.execPlayr d s
  | .plays d => Sys2Proof.Machine.execPlays d s
  | .pause d => Sys2Proof.Machine.execPause d s
  | .tempo k => Sys2Proof.Machine.execTempo k s
  | .fadeoff => Sys2Proof.Machine.execFadeoff s
  | .fadeup v => Sys2Proof.Machine.execFadeup v s
  | .fadedn v => Sys2Proof.Machine.execFadedn v s
  | .note n => Sys2Proof.Machine.execNote n s
  | .unrecognized b => Sys2Proof.Machine.execUnrecognized b s
  | .setup div => Sys2Proof.Machine.execSetup div s
  | .clear => Sys2Proof.Machine.execClear s
  | .clearPixels => Sys2Proof.Machine.execClearPixels s
  | .setPixel x y c => Sys2Proof.Machine.execSetPixel x y c s
  | .setPixelS x y c => Sys2Proof.Machine.execSetPixelS x y c s
  | .getPixel x y => Sys2Proof.Machine.execGetPixel x y s
  | .getPixelS x y => Sys2Proof.Machine.execGetPixelS x y s
  | .setAux mask => Sys2Proof.Machine.execSetAux mask s
  | .getAux => Sys2Proof.Machine.execGetAux s
  | .auxEnable k => Sys2Proof.Machine.execAuxEnable k s
  | .auxDisable k => Sys2Proof.Machine.execAuxDisable k s
  | .auxIsEnabled k => Sys2Proof.Machine.execAuxIsEnabled k s
  | .getButtonsCur => Sys2Proof.Machine.execGetButtonsCur s
  | .getButtonsLast => Sys2Proof.Machine.execGetButtonsLast s
  | .buttonPressed k => Sys2Proof.Machine.execButtonPressed k s
  | .buttonDown k => Sys2Proof.Machine.execButtonDown k s
  | .buttonReleased k => Sys2Proof.Machine.execButtonReleased k s
  | .playSound a => Sys2Proof.Machine.execPlaySound a s
  | .stopSound => Sys2Proof.Machine.execStopSound s
  | .disableSound => Sys2Proof.Machine.execDisableSound s
  | .getPlayedNote => Sys2Proof.Machine.execGetPlayedNote s
  | .frameSync => Sys2Proof.Machine.execFrameSync s
  | .getLoadSample => Sys2Proof.Machine.execGetLoadSample s
  | .fillRect x y w h c => Sys2Proof.Machine.execFillRect x y w h c s
  | .fillRectS x y w h c => Sys2Proof.Machine.execFillRectS x y w h c s
  | .scroll dir => Sys2Proof.Machine.execScroll dir s
  | .fadePixels => Sys2Proof.Machine.execFadePixels s
  | .frameSyncShowLoad => Sys2Proof.Machine.execFrameSyncShowLoad s
  | .badCommand id => Sys2Proof.Machine.execBadCommand id s

end Sys2Proof.Machine
end

