-- ==== Sys2Proof/Machine/HostAgent.lean ====
section
/-!
DEFINITION. The host agent's step (spec/00_scope.md R8): the return step of a FRAME_SYNC it waits in
(spec/43_host_interface.md R225), else the next primitive of a routine in progress (spec/44_host_library.md R246), else the
next action of its program.
-/

namespace Sys2Proof.Machine

/-- The host agent has a step: a wait that has ended, a routine in progress, or something left to do (43 R225). -/
def hostEnabled (s : State) : Bool :=
  match s.host.wait with
  | some s0 => decide (s.frame.signal ≠ s0)
  | none => s.host.routine.isSome || !s.host.prog.isEmpty

/-- What a routine goes on with once its primitive has answered. `routine` is the model's own field, which 60 R260 does not
name: it moves on also in the step whose primitive raises (DESIGN CHOICE, log entry 8); the block is quiescent from then on,
so nothing reads it. -/
def routineAfter (r : Routine) : Answer → Answer
  | .next t => .next { t with host := { t.host with routine := r.after t.host.result } }
  | .fault f => .fault f
  | .refused e => .refused e

/-- One step of a routine: its next primitive, by that primitive's own meaning (44 R246). -/
def routineStep (r : Routine) (s : State) : Answer :=
  match r.primitive with
  | some i => routineAfter r (exec i s)
  | none => .next { s with host := { s.host with routine := none } }

/-- The first action of the host's program leaves it. -/
def State.popAct (s : State) (rest : List HostAct) : State := { s with host := { s.host with prog := rest } }

/-- A command, from its frame. -/
def commandStep (frame : List Byte) (s : State) : Answer :=
  match decode .command frame with
  | .ok i => exec i s
  | .error e => .refused (.malformedFrame e)

/-- The next action of the host's program. -/
def programStep (s : State) : Answer :=
  match s.host.prog with
  | [] => .next s
  | .command frame :: rest => commandStep frame (s.popAct rest)
  | .writeToken a b :: rest => (s.popAct rest).writeToken a b

/-- The host agent's step. While it waits it issues nothing (43 R219): it holds until FRAME_SIGNAL has changed. -/
def hostStep (s : State) : Answer :=
  match s.host.wait with
  | some s0 => if s.frame.signal = s0 then .next s else frameSyncReturn s
  | none =>
    match s.host.routine with
    | some r => routineStep r s
    | none => programStep s

end Sys2Proof.Machine
end

