-- ==== Sys2Proof/Machine/Multiplexer.lean ====
section
/-!
DEFINITION. The row/brightness multiplexer (spec/40_multiplexer.md R101, R102, R105, R107).
-/

namespace Sys2Proof.Machine

/-- The cursor successor (40 R101): the row advances every tick, the level when the row wraps from 7 to 0. Its level is
the successor threshold of R102. -/
def nextCursor (r : BitVec 3) (b : Level) : BitVec 3 × Level :=
  if r = 7#3 then (0, b + 1) else (r + 1, b)

/-- A row register as a row of the picture. -/
def rowIndex (r : BitVec 3) : Fin 8 := r.toFin

/-- DISPLAY_STEP (40 R105), its four actions in order. -/
def displayStep (s : State) : State :=
  let r := s.drive.row
  let n := nextCursor r s.drive.level
  let t := (s.outRowEn 0x00).outColOut (s.store.auxActive ++ s.drive.nextPat)
  let u : State := { t with drive := { t.drive with nextPat := pattern t.store.back (rowIndex n.1) n.2 } }
  u.outRowEn (1#8 <<< r.toNat)

end Sys2Proof.Machine
end

