-- ==== Sys2Proof/Machine/FrameSync.lean ====
section
/-!
DEFINITION. The frame synchronizer, the buffer-swap gate and the button sampler (spec/41_frame_sync.md R130 to R138).
-/

namespace Sys2Proof.Machine

/-- The tick step at this cursor is a sweep boundary (41 R130). -/
def State.atBoundary (s : State) : Bool := decide (s.drive.row = 7#3 ∧ s.drive.level = 15#4)

/-- FRAME_DIV of this state (10 R26). -/
def State.frameDiv (s : State) : BitVec 4 := frameDivOf s.ctl.frameDivLog2

/-- The boundary qualifies: the decremented count is 0 (41 R131). -/
def State.qualifies (s : State) : Bool := decide (s.drive.divc - 1 = 0#4)

/-- DIVIDER (41 R131): decrement, and reload at 0. -/
def divider (s : State) : State :=
  { s with drive := { s.drive with divc := if s.drive.divc - 1 = 0#4 then s.frameDiv else s.drive.divc - 1 } }

/-- The copy of the front picture and the auxiliary mask (41 R133). -/
def copyBuffers (s : State) : State :=
  { s with store := { s.store with back := s.store.front, auxActive := s.store.auxFront } }

/-- The frame counters (41 R134). -/
def countFrame (s : State) : State :=
  { s with frame := { s.frame with count := s.frame.count + 1, signal := s.frame.signal + 1 } }

/-- The load measurement with a clock sample (41 R135). -/
def measure (now : BitVec Config.wClock) (s : State) : State :=
  match s.frame.meas with
  | .noBoundary => { s with frame := { s.frame with meas := .discarded, lastTs := now } }
  | .discarded =>
    { s with frame := { s.frame with sweepDur := now - s.frame.lastTs, meas := .valid, lastTs := now } }
  | .valid =>
    { s with frame := { s.frame with sweepDur := now - s.frame.lastTs, meas := .valid, lastTs := now } }

/-- The button sampler with a sample of the raw lines (41 R136). -/
def sampleButtons (raw : BitVec 6) (s : State) : State :=
  { s with btn := { cur := raw.setWidth 8, prev := s.btn.cur } }

/-- SWAP_STEP (41 R137), in the order of its pseudocode; the last line is the pattern recompute of R138. -/
def swapStep (s : State) : State :=
  let t := countFrame (copyBuffers (s.outRowEn 0x00))
  let u := measure t.clockNow t.clockTaken
  let v := sampleButtons u.buttonsNow u.buttonsTaken
  { v with drive := { v.drive with nextPat := pattern v.store.back 0 0 } }

/-- What the multiplexer and the frame synchronizer do in one tick step (40 R100): the swap step at a qualifying
boundary, a display step everywhere else (41 R132). -/
def displayOrSwap (s : State) : State :=
  if s.atBoundary then
    if s.qualifies then swapStep (divider s) else displayStep (divider s)
  else displayStep s

end Sys2Proof.Machine
end

