-- ==== Sys2Proof/Machine/Sequencer.lean ====
section
/-!
DEFINITION. The sound sequencer (spec/42_sound_sequencer.md R160 to R170): fetch, scan, countdown and the requests. The
scan runs each token through exec.
-/

namespace Sys2Proof.Machine

/-- FETCH (42 R164): none where it raises TOKEN_OOB, else the token; and the state after. -/
def fetch (s : State) : Option Byte × State :=
  let a := s.snd.cursor.toNat
  if s.tokenSize ≤ a then (none, s.raise (.tokenOob s.snd.cursor))
  else
    let t := s.tokenRead a
    (some (s.tokenByte a), { t with snd := { t.snd with cursor := s.snd.cursor + 1 } })

/-- The tokens that end a scan (42 R180). A host command is no token. -/
def endsScan : Instr → Bool
  | .endTok => true
  | .play _ => true
  | .playr _ => true
  | .plays _ => true
  | .pause _ => true
  | .tempo _ => false
  | .fadeoff => false
  | .fadeup _ => false
  | .fadedn _ => false
  | .note _ => false
  | .unrecognized _ => false
  | .setup _ => true
  | .clear => true
  | .clearPixels => true
  | .setPixel _ _ _ => true
  | .setPixelS _ _ _ => true
  | .getPixel _ _ => true
  | .getPixelS _ _ => true
  | .setAux _ => true
  | .getAux => true
  | .auxEnable _ => true
  | .auxDisable _ => true
  | .auxIsEnabled _ => true
  | .getButtonsCur => true
  | .getButtonsLast => true
  | .buttonPressed _ => true
  | .buttonDown _ => true
  | .buttonReleased _ => true
  | .playSound _ => true
  | .stopSound => true
  | .disableSound => true
  | .getPlayedNote => true
  | .frameSync => true
  | .getLoadSample => true
  | .fillRect _ _ _ _ _ => true
  | .fillRectS _ _ _ _ _ => true
  | .scroll _ => true
  | .fadePixels => true
  | .frameSyncShowLoad => true
  | .badCommand _ => true

/-- SCAN (42 R165) with `n` bytes of token memory from the cursor on: fetch, run the token, go on unless it ends the
scan. With no byte left the fetch raises TOKEN_OOB. -/
def scanBytes : Nat → State → Answer
  | 0, s => .next (fetch s).2
  | n + 1, s =>
    match fetch s with
    | (none, t) => .next t
    | (some b, t) =>
      match exec (decodeToken b) t with
      | .next u => if endsScan (decodeToken b) then .next u else scanBytes n u
      | .fault f => .fault f
      | .refused r => .refused r

/-- SCAN from the cursor (42 R165, R172): at most the bytes from the cursor to the end of token memory are read. -/
def scan (s : State) : Answer := scanBytes (s.tokenSize - s.snd.cursor.toNat) s

/-- STOP_REQUEST handling (42 R162). -/
def stopRequest (s : State) : State := s.silence

/-- START_REQUEST handling up to its scan (42 R163): tempo to its default, no fade, Idle. -/
def startDefaults (s : State) : State :=
  { s with snd := { s.snd with tempo := Config.tempoDefault, fadeDir := .off, fadeSpeed := 0, state := .idle } }

/-- START_REQUEST handling (42 R163). -/
def startRequest (s : State) : Answer := scan (startDefaults s)

/-- FADE_STEP (42 R168): a retune is written on every application. -/
def fadeStep (s : State) : State :=
  s.outTonePeriod (fadePeriod s.snd.fadeDir s.snd.fadeSpeed s.out.tonePeriod)

/-- The fade of one sequencer tick: only in Playing, with a direction (42 R167). -/
def fadeTick (s : State) : State :=
  if s.snd.state = .playing ∧ s.snd.fadeDir ≠ .off then fadeStep s else s

/-- The sub-tick timer counts down one sequencer tick (42 R167). -/
def countSubtick (s : State) : State := { s with snd := { s.snd with subtick := s.snd.subtick - 1 } }

/-- The sub-tick timer reloads from the tempo and the duration counts down one unit (42 R167). -/
def countUnit (s : State) : State :=
  { s with snd := { s.snd with subtick := s.snd.tempo, dur := s.snd.dur - 1 } }

/-- The cut at the silence threshold (42 R167). -/
def cutNote (s : State) : State :=
  let t := s.outToneOn false
  { t with snd := { t.snd with state := .paused } }

/-- COUNTDOWN (42 R167): the test for zero comes before the test for the threshold. -/
def countdown (s : State) : Answer :=
  let t := countSubtick (fadeTick s)
  if t.snd.subtick = 0#8 then
    let u := countUnit t
    if u.snd.dur = 0#7 then scan u
    else if u.snd.dur = u.snd.thr then .next (cutNote u)
    else .next u
  else .next t

/-- SEQ_TICK (42 R160, R161). -/
def seqTick (s : State) : Answer :=
  match s.snd.state with
  | .disabled => .next s
  | .idle => .next s
  | .stopRequested => .next (stopRequest s)
  | .startRequested => startRequest s
  | .playing => countdown s
  | .paused => countdown s

end Sys2Proof.Machine
end

