-- ==== Sys2Proof/Machine/Tick.lean ====
section
/-!
DEFINITION. The tick step (spec/40_multiplexer.md R100): the handler of the block's one interrupt (spec/60_exceptions.md
R264 to R267), one atomic transition.
-/

namespace Sys2Proof.Machine

/-- The cursor moves to its successor (40 R100, R101). -/
def advanceCursor (s : State) : State :=
  let n := nextCursor s.drive.row s.drive.level
  { s with drive := { s.drive with row := n.1, level := n.2 } }

/-- A sequencer tick that raised nothing leaves the host no duty but the one toward a stream still live (70 R285). -/
def endDuties : Answer → Answer
  | .next t => unlessRaised t fun u => .next u.dutiesEnd
  | .fault f => .fault f
  | .refused r => .refused r

/-- The sequencer's part of a tick step: it runs at row 6, after that step's display step (40 R109). -/
def sequencerPart (s : State) : Answer :=
  if s.drive.row = Config.seqRow then endDuties (seqTick s) else .next s

/-- The cursor advance that ends a tick step, unless a raise has ended it (40 R100, 60 R260). -/
def finishTick : Answer → Answer
  | .next t => unlessRaised t fun u => .next (advanceCursor u)
  | .fault f => .fault f
  | .refused r => .refused r

/-- TICK (40 R100). Nothing while CONFIGURED = 0 (70 R282). -/
def tick (s : State) : Answer :=
  if s.ctl.configured then finishTick (sequencerPart (displayOrSwap s)) else .next s

end Sys2Proof.Machine
end

