-- ==== Sys2Proof/Machine/Scheduler.lean ====
section
/-!
DEFINITION. Which agent moves (spec/60_exceptions.md R265: either order is admitted; spec/00_scope.md R8), the end of
every step once FAULTS is not empty (R261), and the placing of an instruction where the next step runs it.
-/

namespace Sys2Proof.Machine

/-- The agent the schedule names: the first of the list, or a free value past its end. -/
def State.turn (s : State) : Agent :=
  match s.sched with
  | g :: _ => g
  | [] => Config.agentDraw s.draws

/-- The schedule once it has been read. -/
def State.turnTaken (s : State) : State :=
  match s.sched with
  | _ :: gs => { s with sched := gs }
  | [] => { s with draws := s.draws + 1 }

/-- The agent that moves. A tick step is enabled in every state (00 R9), a host step only where hostEnabled says so. -/
def acting (s : State) : Agent :=
  if hostEnabled s then s.turn else .tick

/-- One step of an agent. -/
def agentStep (g : Agent) (s : State) : Answer :=
  match g with
  | .tick => tick s
  | .host => hostStep s

/-- One transition of the block: quiescent once FAULTS is not empty (60 R261), else the acting agent's step. -/
def runStep (s : State) : Answer :=
  if s.faults = [] then agentStep (acting s) s.turnTaken else .fault .quiescent

/-! ### Placing one instruction

The block fetches no command from an address, and a token only while the sequencer scans. So placing an instruction sets
all that its fetch takes (log entry 16): for a command, the frame at the head of the host's program and a free host
whose turn it is; for a token, the byte at token address 0 and a configured block at row 6 with a start request for that
address. -/

/-- The state whose next step runs the command of a frame. -/
def State.withCommand (s : State) (frame : List Byte) : State :=
  { s with
    host := { s.host with wait := none, routine := none, prog := .command frame :: s.host.prog }
    sched := .host :: s.sched }

/-- The state whose next step scans the token byte `b` first. -/
def State.withToken (s : State) (b : Byte) : State :=
  { s with
    ctl := { s.ctl with configured := true }
    drive := { s.drive with row := Config.seqRow }
    snd := { s.snd with state := .startRequested, cursor := 0, cursorValid := true }
    tmem := { bytes := Memory.write s.tmem.bytes 0 b, duties := [{ start := 0, raced := [] }] }
    sched := .tick :: s.sched }

/-- The state whose next step runs the instruction of a word of the opcode table. -/
def State.withTableWord (s : State) (nbits w : Nat) : State :=
  match tableLanguage nbits w with
  | .token => s.withToken (BitVec.ofNat 8 w)
  | .command => s.withCommand (tableFrame nbits w)

end Sys2Proof.Machine
end

