-- ==== Sys2Proof/Machine/Step.lean ====
section
/-!
DEFINITION. The step of the machine, and the placing of one instruction for it.
-/

namespace Sys2Proof.Machine

/-- One step: one transition of one agent (spec/20_memory.md R64). -/
def step (s : State) : Host.Outcome State Fault Refusal := runStep s

/-- The state with the instruction of a word of spec/opcode_table.json placed where the next step runs it. -/
def State.withFetchWord (s : State) (nbits w : Nat) : State := s.withTableWord nbits w

end Sys2Proof.Machine
end

