-- ==== Sys2Proof/Safety.lean ====
section
/-!
DEFINITION. The terms of claims about runs: no fault (spec/60_exceptions.md R261), the invariants the spec states
(spec/10_state.md R35, spec/40_multiplexer.md R108, spec/42_sound_sequencer.md R170, spec/70_reset_and_hazards.md R285), interleavings of the two agents
(spec/44_host_library.md R246), fair infinite runs (spec/00_scope.md R9, spec/70_reset_and_hazards.md R287), and the events of
spec/70_reset_and_hazards.md R295.
-/

namespace Sys2Proof.Machine

/-- No model fault has been recorded: the premise of every claim (60 R261). -/
def State.safe (s : State) : Prop := s.faults = []

/-! ### Invariants -/

/-- The pipeline invariant (40 R108). -/
def State.pipeline (s : State) : Prop :=
  s.drive.nextPat = pattern s.store.back (rowIndex s.drive.row) s.drive.level

/-- SND_CURSOR_VALID against SND_STATE (10 R35). -/
def Sound.cursorOk (x : Sound) : Prop :=
  ((x.state = .playing ∨ x.state = .paused ∨ x.state = .startRequested) → x.cursorValid = true) ∧
    ((x.state = .idle ∨ x.state = .disabled) → x.cursorValid = false)

/-- The counters of a running play or pause (42 R170). -/
def Sound.countersOk (x : Sound) : Prop :=
  (x.state = .playing ∨ x.state = .paused) →
    1 ≤ x.dur.toNat ∧ x.dur.toNat ≤ 64 ∧ 1 ≤ x.subtick.toNat ∧ x.subtick.toNat ≤ x.tempo.toNat ∧
      x.thr.toNat ≤ 32

/-- SND_TEMPO is an entry of TEMPO_TABLE (42 R170). -/
def Sound.tempoOk (x : Sound) : Prop := ∃ k : BitVec 4, x.tempo = tempoOf k

/-- The tone is on only in Playing or while a request is pending (42 R170). -/
def State.toneOk (s : State) : Prop :=
  s.out.toneOn = true →
    s.snd.state = .playing ∨ s.snd.state = .stopRequested ∨ s.snd.state = .startRequested

/-- The invariants of the sound state (10 R35, 42 R170), and the cursor's range 0 to 2^16 (10 R21). -/
def State.soundOk (s : State) : Prop :=
  s.snd.cursorOk ∧ s.snd.countersOk ∧ s.snd.tempoOk ∧ s.toneOk ∧ s.snd.cursor.toNat ≤ 65536

/-- DIVC lies in 1 to FRAME_DIV (10 R25). -/
def State.divcOk (s : State) : Prop :=
  1 ≤ s.drive.divc.toNat ∧ s.drive.divc.toNat ≤ s.frameDiv.toNat

/-- Bits 7:6 of the button bytes read 0 (10 R51). -/
def Buttons.clean (x : Buttons) : Prop := x.cur.toNat < 64 ∧ x.prev.toNat < 64

/-- ROW_EN is 0 or one-hot (10 R44). -/
def State.rowEnOk (s : State) : Prop := s.out.rowEn = 0 ∨ ∃ y : Fin 8, s.out.rowEn = 1#8 <<< y.val

/-- The first duty is the one toward the stream that is live, which starts at or below the cursor (the model's own form of
70 R285, log entry 5). -/
def State.dutyOk (s : State) : Prop :=
  s.snd.state.live = true → ∃ d ∈ s.tmem.duties.head?, d.start.toNat ≤ s.snd.cursor.toNat

/-- What holds of a configured block after every step that raised no fault. -/
def State.inv (s : State) : Prop :=
  s.safe → s.ctl.configured = true →
    s.pipeline ∧ s.soundOk ∧ s.divcOk ∧ s.btn.clean ∧ s.rowEnOk ∧ s.dutyOk

/-- The machine's cell orders visit every cell once (44 R242, R243: every (x, y)). -/
def Params.ordersOk (p : Params) : Prop :=
  p.scrollOrder.Perm (List.finRange 64) ∧ p.fadeOrder.Perm (List.finRange 64)

/-! ### Interleavings -/

/-- The agents' steps in an order, stopping at the first fault or refusal, and at a raise (60 R261). -/
def runAgents : List Agent → State → Answer
  | [], s => .next s
  | g :: gs, s =>
    match agentStep g s with
    | .next t => if t.faults = [] then runAgents gs t else .next t
    | .fault f => .fault f
    | .refused r => .refused r

/-- `n` tick steps in a row (30 R92, TICK*n). -/
def ticks (n : Nat) (s : State) : Answer := runAgents (List.replicate n .tick) s

/-- `n` sequencer ticks in a row. -/
def seqTicks : Nat → State → Answer
  | 0, s => .next s
  | n + 1, s =>
    match seqTick s with
    | .next t => if t.faults = [] then seqTicks n t else .next t
    | .fault f => .fault f
    | .refused r => .refused r

/-! ### What the host is about to do -/

/-- The host's next action is SETUP. -/
def State.setupNext (s : State) : Prop :=
  ∃ frame rest div, s.host.prog = .command frame :: rest ∧ decode .command frame = .ok (.setup div)

/-- No action left to the host is SETUP. -/
def State.noSetup (s : State) : Prop :=
  ∀ frame div, .command frame ∈ s.host.prog → decode .command frame ≠ .ok (.setup div)

/-- The cursor after `n` tick steps (40 R101, R103). -/
def cursorAfter : Nat → BitVec 3 × Level → BitVec 3 × Level
  | 0, c => c
  | n + 1, c => cursorAfter n (nextCursor c.1 c.2)

/-- The step from here is the host's, and it issues the command `i` of its program. -/
def State.issues (s : State) (i : Instr) : Prop :=
  acting s = .host ∧ s.host.wait = none ∧ s.host.routine = none ∧
    ∃ frame rest, s.host.prog = .command frame :: rest ∧ decode .command frame = .ok i

/-- The step from here is the host's SETUP. -/
def State.issuesSetup (s : State) : Prop :=
  acting s = .host ∧ s.host.wait = none ∧ s.host.routine = none ∧ s.setupNext

/-! ### Fair infinite runs, and their finite prefixes (70 R295)

A run is a sequence of states, one for each point between two steps. -/

/-- `n` steps of the machine. -/
def steps : Nat → State → Answer
  | 0, s => .next s
  | n + 1, s =>
    match step s with
    | .next t => steps n t
    | .fault f => .fault f
    | .refused e => .refused e

/-- A finite prefix of a run, of `N` steps: `steps n (r 0)` is `r n` for each `n` up to `N`. -/
def IsPrefix (r : Nat → State) (N : Nat) : Prop := ∀ n, n < N → step (r n) = .next (r (n + 1))

/-- An infinite run: every step is the machine's. -/
def IsRun (r : Nat → State) : Prop := ∀ n, step (r n) = .next (r (n + 1))

/-- An agent has a step: the tick agent once the block is configured (00 R9), the host agent where hostEnabled says so
(43 R225). -/
def enabled (g : Agent) (s : State) : Prop :=
  match g with
  | .tick => s.ctl.configured = true
  | .host => hostEnabled s = true

/-- Weak fairness of an agent (00 R9, 70 R287): from any point on at which it always has a step, it takes one. -/
def WeaklyFair (g : Agent) (r : Nat → State) : Prop :=
  ∀ n, (∀ m, n ≤ m → enabled g (r m)) → ∃ m, n ≤ m ∧ acting (r m) = g

/-- The return step of a FRAME_SYNC called when FRAME_SIGNAL was `s0` is enabled (43 R225). -/
def State.returnEnabled (s : State) (s0 : BitVec Config.wFrameSignal) : Prop :=
  s.host.wait = some s0 ∧ s.frame.signal ≠ s0

/-- HOST_SYNC_FAIR (70 R287): once the return step is enabled, it is taken before FRAME_SIGNAL comes back to s0. -/
def HostSyncFair (r : Nat → State) : Prop :=
  ∀ n s0, (r n).returnEnabled s0 →
    ∃ m, n ≤ m ∧ acting (r m) = .host ∧ ∀ k, n ≤ k → k ≤ m → (r k).returnEnabled s0

/-- A fair run: both agents weakly fair (00 R9, 70 R287), and the premise HOST_SYNC_FAIR. -/
def IsFairRun (r : Nat → State) : Prop :=
  IsRun r ∧ WeaklyFair .tick r ∧ WeaklyFair .host r ∧ HostSyncFair r

/-! ### Events of a run (70 R295)

An event at step `n` reads the run up to the state after that step, so it is an event of every prefix longer than `n`. A
state with FAULTS not empty is never the end of anything (60 R261). -/

/-- The next step is a tick step that holds a sequencer tick (40 R109). -/
def State.sequencerNext (s : State) : Prop :=
  s.safe ∧ acting s = .tick ∧ s.ctl.configured = true ∧ s.drive.row = Config.seqRow

/-- No sound program is left: Idle with no valid cursor, and no fault. -/
def State.soundEnded (s : State) : Prop := s.safe ∧ s.snd.state = .idle ∧ s.snd.cursorValid = false

/-- The step from here starts a sound program: a PLAY_SOUND `a` that is accepted (43 R220). -/
def State.startsSound (s : State) (a : BitVec Config.wTaddr) : Prop :=
  s.issues (.playSound a) ∧ s.safe ∧ s.ctl.configured = true ∧ s.snd.state ≠ .disabled

/-- The step from here ends a running sound program early: a start or a stop request, DISABLE_SOUND (70 R295), or a
SETUP with a legal divisor, which makes the sound Idle (70 R283). -/
def State.cutsSound (s : State) : Prop :=
  (∃ a, s.issues (.playSound a)) ∨ s.issues .stopSound ∨ s.issues .disableSound ∨
    ∃ div, frameDivLog2Of div ≠ none ∧ s.issues (.setup div)

/-- The sound program that PLAY_SOUND `a` started in step `n` of a run ends in step `m`: the first sequencer tick after the
start, with nothing to end it early between, that leaves Idle and no valid cursor, as END does (42 R182). -/
def SoundProgramEnds (r : Nat → State) (a : BitVec Config.wTaddr) (n m : Nat) : Prop :=
  (r n).startsSound a ∧ n < m ∧ (r m).sequencerNext ∧ (r (m + 1)).soundEnded ∧
    (∀ k, n < k → k < m → ¬ ((r k).sequencerNext ∧ (r (k + 1)).soundEnded)) ∧
    ∀ k, n < k → k < m → ¬ (r k).cutsSound

/-- The sound program that PLAY_SOUND `a` started in step `n` of a run is ended early, by what the host issues in step `m`,
which leaves no fault. -/
def SoundProgramCut (r : Nat → State) (a : BitVec Config.wTaddr) (n m : Nat) : Prop :=
  (r n).startsSound a ∧ n < m ∧ (r m).safe ∧ (r m).cutsSound ∧ (r (m + 1)).safe ∧
    (∀ k, n < k → k < m → ¬ ((r k).sequencerNext ∧ (r (k + 1)).soundEnded)) ∧
    ∀ k, n < k → k < m → ¬ (r k).cutsSound

/-- The host program has ended: its last command has completed, HOST_WAIT = none, and no fault. -/
def State.hostEnded (s : State) : Prop :=
  s.safe ∧ s.host.wait = none ∧ s.host.routine = none ∧ s.host.prog = []

/-- The next tick step swaps. -/
def State.swapsNext (s : State) : Prop :=
  s.ctl.configured = true ∧ s.atBoundary = true ∧ s.qualifies = true

/-- Step `n` of a run is a qualifying swap, so the state after it is a frame (41 R137). -/
def FrameAfter (r : Nat → State) (n : Nat) : Prop :=
  (r n).safe ∧ acting (r n) = .tick ∧ (r n).swapsNext

end Sys2Proof.Machine
end

