-- ==== Sys2Proof/Certificates/Slice0/Obligations.lean ====
section
/-!
DEFINITION. The statements for the provers. Each names the rule of spec/ it formalises. Results are written out as record
updates; where a result names an operation of the model, another statement says what that operation does.
-/

open Sys2Proof Sys2Proof.Machine

/-! ### Sound tokens (spec/42_sound_sequencer.md section 3) -/

/-- NOTE (42 R181): its bytes, SND_NOTE alone is written, the scan goes on, of two in a row the last wins, and the next
play token takes the note's period. -/
def Obligations.NoteTokenSelects : Prop :=
  (∀ (b : Byte) (n : BitVec 7), decodeToken b = .note n ↔ b.toNat = 128 + n.toNat) ∧
  (∀ (n : BitVec 7) (s : State), exec (.note n) s = .next { s with snd := { s.snd with note := n } }) ∧
  (∀ (b : Byte) (n : BitVec 7) (s t : State), fetch s = (some b, t) → decodeToken b = .note n →
    scan s = scan { t with snd := { t.snd with note := n } }) ∧
  (∀ (b b' : Byte) (n n' : BitVec 7) (s t u : State), fetch s = (some b, t) → decodeToken b = .note n →
    fetch { t with snd := { t.snd with note := n } } = (some b', u) → decodeToken b' = .note n' →
    scan s = scan { u with snd := { u.snd with note := n' } }) ∧
  (∀ (n : BitVec 7) (d : BitVec 3) (s : State), ∃ t u : State, exec (.note n) s = .next t ∧
    t.out = s.out ∧ exec (.play d) t = .next u ∧ u.out.tonePeriod = Config.notePeriod n.toFin)

/-- END (42 R182): its byte; the tone stops, Idle, the cursor is no longer valid and keeps its address, the scan ends. -/
def Obligations.EndTokenStops : Prop :=
  (∀ b : Byte, decodeToken b = .endTok ↔ b.toNat = 0) ∧
  (∀ s : State, exec .endTok s = .next { s with
    out := { s.out with toneOn := false, events := s.out.events ++ [.toneOn false] }
    snd := { s.snd with state := .idle, cursorValid := false } }) ∧
  (∀ (b : Byte) (s t : State), fetch s = (some b, t) → decodeToken b = .endTok →
    t.snd.cursor = s.snd.cursor + 1 ∧
    scan s = .next { t with
      out := { t.out with toneOn := false, events := t.out.events ++ [.toneOn false] }
      snd := { t.snd with state := .idle, cursorValid := false } })

/-- PLAY, PLAYR and PLAYS (42 R169, R183, and the writes of R184 and R185): their bytes, the threshold 0, 1 or half the
duration, the note's period set before the tone starts, and the scan ends. -/
def Obligations.PlayTokensStartNote : Prop :=
  (∀ (b : Byte) (d : BitVec 3), (decodeToken b = .play d ↔ d.toNat ≤ 6 ∧ b.toNat = 0x10 + d.toNat) ∧
    (decodeToken b = .playr d ↔ d.toNat ≤ 6 ∧ b.toNat = 0x20 + d.toNat) ∧
    (decodeToken b = .plays d ↔ d.toNat ≤ 6 ∧ b.toNat = 0x30 + d.toNat)) ∧
  (∀ (i : Instr) (d : BitVec 3) (thr : BitVec 7) (s : State),
    (i = .play d ∧ thr = 0) ∨ (i = .playr d ∧ thr = 1) ∨ (i = .plays d ∧ thr = (64#7 >>> d.toNat) / 2) →
    exec i s = .next { s with
      snd := { s.snd with
        dur := 64#7 >>> d.toNat, thr := thr, subtick := s.snd.tempo, state := .playing }
      out := { s.out with
        tonePeriod := Config.notePeriod s.snd.note.toFin, toneOn := true
        events := s.out.events ++ [.tonePeriod (Config.notePeriod s.snd.note.toFin), .toneOn true] } }) ∧
  (∀ (b : Byte) (d : BitVec 3) (s t : State), fetch s = (some b, t) →
    (decodeToken b = .play d ∨ decodeToken b = .playr d ∨ decodeToken b = .plays d) →
    scan s = exec (decodeToken b) t)

/-- PAUSE (42 R186): its bytes; the tone stops, the duration counts down in Paused, the period is kept, the scan ends. -/
def Obligations.PauseTokenRests : Prop :=
  (∀ (b : Byte) (d : BitVec 3), decodeToken b = .pause d ↔ d.toNat ≤ 6 ∧ b.toNat = 0x40 + d.toNat) ∧
  (∀ (d : BitVec 3) (s : State), exec (.pause d) s = .next { s with
    snd := { s.snd with dur := 64#7 >>> d.toNat, thr := 0, subtick := s.snd.tempo, state := .paused }
    out := { s.out with toneOn := false, events := s.out.events ++ [.toneOn false] } }) ∧
  (∀ (b : Byte) (d : BitVec 3) (s t : State), fetch s = (some b, t) → decodeToken b = .pause d →
    scan s = exec (.pause d) t)

/-- TEMPO (42 R187 with the table of 30 R85): its bytes; SND_TEMPO alone is written, and the scan goes on. -/
def Obligations.TempoTokenSelects : Prop :=
  (∀ (b : Byte) (k : BitVec 4), decodeToken b = .tempo k ↔ b.toNat = 0x50 + k.toNat) ∧
  (∀ (k : BitVec 4) (s : State), ∃ v : Byte,
    [150, 144, 120, 100, 96, 90, 80, 75, 72, 60, 50, 48, 45, 40, 36, 30][k.toNat]? = some v.toNat ∧
    exec (.tempo k) s = .next { s with snd := { s.snd with tempo := v } } ∧
    ∀ (b : Byte) (r : State), fetch r = (some b, s) → decodeToken b = .tempo k →
      scan r = scan { s with snd := { s.snd with tempo := v } })

/-- FADEOFF, FADEUP, FADEDN and FADE_STEP (42 R168, R189 to R191): the bytes; the fade fields alone are written and the
scan goes on; in Playing each sequencer tick retunes by the speed, clamped at 0 and 0xFFFF, and otherwise none does. -/
def Obligations.FadeTokensSlide : Prop :=
  (∀ b : Byte, (decodeToken b = .fadeoff ↔ b.toNat = 0x60) ∧
    (∀ v : BitVec 3, decodeToken b = .fadeup v ↔ 1 ≤ v.toNat ∧ b.toNat = 0x60 + v.toNat) ∧
    (∀ v : BitVec 3, decodeToken b = .fadedn v ↔ 1 ≤ v.toNat ∧ b.toNat = 0x68 + v.toNat)) ∧
  (∀ (i : Instr) (dir : FadeDir) (v : BitVec 3) (s : State),
    (i = .fadeoff ∧ dir = .off ∧ v = 0) ∨ (i = .fadeup v ∧ dir = .up) ∨ (i = .fadedn v ∧ dir = .down) →
    exec i s = .next { s with snd := { s.snd with fadeDir := dir, fadeSpeed := v } } ∧
    ∀ (b : Byte) (r : State), fetch r = (some b, s) → decodeToken b = i →
      scan r = scan { s with snd := { s.snd with fadeDir := dir, fadeSpeed := v } }) ∧
  (∀ s : State,
    (s.snd.state = .playing → s.snd.fadeDir = .up → fadeTick s = { s with out := { s.out with
      tonePeriod := BitVec.ofNat 16 (s.out.tonePeriod.toNat - s.snd.fadeSpeed.toNat)
      events := s.out.events ++ [.tonePeriod (BitVec.ofNat 16 (s.out.tonePeriod.toNat - s.snd.fadeSpeed.toNat))] } }) ∧
    (s.snd.state = .playing → s.snd.fadeDir = .down → fadeTick s = { s with out := { s.out with
      tonePeriod := BitVec.ofNat 16 (min (s.out.tonePeriod.toNat + s.snd.fadeSpeed.toNat) 65535)
      events := s.out.events ++
        [.tonePeriod (BitVec.ofNat 16 (min (s.out.tonePeriod.toNat + s.snd.fadeSpeed.toNat) 65535))] } }) ∧
    (s.snd.state ≠ .playing ∨ s.snd.fadeDir = .off → fadeTick s = s))

/-- UNRECOGNIZED (42 R192, 30 R83): exactly the 68 bytes of the list; nothing is written and the scan goes on. -/
def Obligations.UnrecognizedTokenSkipped : Prop :=
  (∀ b c : Byte, decodeToken b = .unrecognized c ↔ b = c ∧
    ((0x01 ≤ b.toNat ∧ b.toNat ≤ 0x0F) ∨ (0x17 ≤ b.toNat ∧ b.toNat ≤ 0x1F) ∨ (0x27 ≤ b.toNat ∧ b.toNat ≤ 0x2F) ∨
      (0x37 ≤ b.toNat ∧ b.toNat ≤ 0x3F) ∨ (0x47 ≤ b.toNat ∧ b.toNat ≤ 0x4F) ∨ b.toNat = 0x68 ∨
      (0x70 ≤ b.toNat ∧ b.toNat ≤ 0x7F))) ∧
  ((List.range 256).countP fun k => decide (decodeToken (BitVec.ofNat 8 k) = .unrecognized (BitVec.ofNat 8 k))) = 68 ∧
  (∀ (c : Byte) (s : State), exec (.unrecognized c) s = .next s) ∧
  (∀ (b c : Byte) (s t : State), fetch s = (some b, t) → decodeToken b = .unrecognized c → scan s = scan t)

/-- Every byte is a token that runs, faults nothing and touches only the sound state and the tone outputs (42 R180,
60 R262, R268): the frame of the whole token set. -/
def Obligations.TokensTouchOnlySound : Prop :=
  ∀ (b : Byte) (s : State), ∃ t : State, exec (decodeToken b) s = .next t ∧
    t = { s with
      snd := { t.snd with cursor := s.snd.cursor }
      out := { s.out with toneOn := t.out.toneOn, tonePeriod := t.out.tonePeriod, events := t.out.events } }

/-! ### The sequencer (spec/42_sound_sequencer.md sections 1 and 2) -/

/-- FETCH (42 R164, 20 R62): one byte at the cursor, which moves by one with no wrap; at or above TOKEN_MEM_SIZE the
fault TOKEN_OOB, with no byte and no other write. The byte is the one in memory unless it is raced (RacedBytesAreFree). -/
def Obligations.FetchReadsOneByte : Prop :=
  ∀ s : State, s.faults = [] →
    (s.par.tokenMemSize.val ≤ s.snd.cursor.toNat →
      fetch s = (none, { s with faults := [.tokenOob s.snd.cursor] }) ∧
      scan s = .next { s with faults := [.tokenOob s.snd.cursor] }) ∧
    (s.snd.cursor.toNat < s.par.tokenMemSize.val →
      (s.snd.cursor + 1).toNat = s.snd.cursor.toNat + 1 ∧
      ((∀ d ∈ s.tmem.duties, s.snd.cursor.toNat ∉ d.raced) →
        fetch s = (some (Memory.read s.tmem.bytes s.snd.cursor.toNat),
          { s with snd := { s.snd with cursor := s.snd.cursor + 1 } })))

/-- SCAN (42 R165, R180): each byte fetched is decoded and run, and the scan goes on with the next byte unless the token
is END, PLAY, PLAYR, PLAYS or PAUSE; a fetch that faults ends it. -/
def Obligations.ScanRunsEachToken : Prop :=
  ∀ s : State,
    (∀ t : State, fetch s = (none, t) → scan s = .next t) ∧
    (∀ (b : Byte) (t u : State), fetch s = (some b, t) → exec (decodeToken b) t = .next u →
      ((decodeToken b = .endTok ∨ ∃ d, decodeToken b = .play d ∨ decodeToken b = .playr d ∨ decodeToken b = .plays d ∨
          decodeToken b = .pause d) → scan s = .next u) ∧
      ((decodeToken b = .fadeoff ∨ (∃ n, decodeToken b = .note n) ∨ (∃ k, decodeToken b = .tempo k) ∨
          (∃ v, decodeToken b = .fadeup v ∨ decodeToken b = .fadedn v) ∨ ∃ c, decodeToken b = .unrecognized c) →
        scan s = scan u))

/-- Scan termination (42 R172): a scan reads no byte at or above TOKEN_MEM_SIZE; it ends after a terminating token, or by
TOKEN_OOB at the end of token memory. Where it ends without a fault, raced bytes or not, its last fetch answered the byte of a
terminating token, whose own meaning left the state; unless it is raced, that is the byte in memory before the cursor. -/
def Obligations.ScanStopsInBounds : Prop :=
  ∀ s : State, s.faults = [] → ∃ t : State, scan s = .next t ∧
    s.snd.cursor.toNat ≤ t.snd.cursor.toNat ∧
    t.snd.cursor.toNat - s.snd.cursor.toNat ≤ s.par.tokenMemSize.val - s.snd.cursor.toNat ∧
    ((t.faults = [] ∧ s.snd.cursor.toNat < t.snd.cursor.toNat ∧
        (∃ (r u : State) (b : Byte), scan s = scan r ∧ r.tmem = s.tmem ∧ r.par = s.par ∧
          r.snd.cursor.toNat + 1 = t.snd.cursor.toNat ∧ fetch r = (some b, u) ∧
          exec (decodeToken b) u = .next t ∧ endsScan (decodeToken b) = true) ∧
        ((∀ d ∈ s.tmem.duties, t.snd.cursor.toNat - 1 ∉ d.raced) →
          endsScan (decodeToken (Memory.read s.tmem.bytes (t.snd.cursor.toNat - 1))) = true)) ∨
      (t.faults = [.tokenOob t.snd.cursor] ∧
        t.snd.cursor.toNat = max s.par.tokenMemSize.val s.snd.cursor.toNat))

/-- The sequencer tick in Idle, Disabled and with a request pending (42 R161, R162, R163). -/
def Obligations.SequencerRequests : Prop :=
  ∀ s : State,
    (s.snd.state = .idle ∨ s.snd.state = .disabled → seqTick s = .next s) ∧
    (s.snd.state = .stopRequested → seqTick s = .next { s with
      out := { s.out with toneOn := false, events := s.out.events ++ [.toneOn false] }
      snd := { s.snd with state := .idle, cursorValid := false } }) ∧
    (s.snd.state = .startRequested → seqTick s = scan { s with
      snd := { s.snd with tempo := 60, fadeDir := .off, fadeSpeed := 0, state := .idle } })

/-- COUNTDOWN (42 R167): the sub-tick timer, its reload and the duration counter; a zero duration scans on before the
threshold is looked at; at the threshold the tone stops and counting goes on in Paused. fadeTick is the fade of this
tick: FADE_STEP in Playing with a direction, else nothing (FadeTokensSlide says what FADE_STEP writes). -/
def Obligations.CountdownTick : Prop :=
  ∀ s : State, s.snd.state = .playing ∨ s.snd.state = .paused →
    fadeTick s = (if s.snd.state = .playing ∧ s.snd.fadeDir ≠ .off then fadeStep s else s) ∧
    (s.snd.subtick ≠ 1 →
      seqTick s = .next { fadeTick s with snd := { s.snd with subtick := s.snd.subtick - 1 } }) ∧
    (s.snd.subtick = 1 → s.snd.dur = 1 →
      seqTick s = scan { fadeTick s with snd := { s.snd with subtick := s.snd.tempo, dur := 0 } }) ∧
    (s.snd.subtick = 1 → s.snd.dur ≠ 1 → s.snd.dur - 1 = s.snd.thr →
      seqTick s = .next { fadeTick s with
        snd := { s.snd with subtick := s.snd.tempo, dur := s.snd.dur - 1, state := .paused }
        out := { (fadeTick s).out with toneOn := false, events := (fadeTick s).out.events ++ [.toneOn false] } }) ∧
    (s.snd.subtick = 1 → s.snd.dur ≠ 1 → s.snd.dur - 1 ≠ s.snd.thr →
      seqTick s = .next { fadeTick s with
        snd := { s.snd with subtick := s.snd.tempo, dur := s.snd.dur - 1 } })

/-- Note timing (42 R171, and the effects of R184, R185): a play or pause token run with tempo T lasts D·T sequencer
ticks, after which the next scan runs; its tone sounds until (D − thr)·T when 1 ≤ thr < D, and to the end otherwise. -/
def Obligations.NoteTiming : Prop :=
  ∀ (i : Instr) (d : BitVec 3) (thr : Nat) (r s : State),
    d.toNat ≤ 6 → r.faults = [] → (∃ k, r.snd.tempo = tempoOf k) → exec i r = .next s →
    (i = .play d ∧ thr = 0) ∨ (i = .playr d ∧ thr = 1) ∨ (i = .plays d ∧ thr = 64 / 2 ^ d.toNat / 2) ∨
      (i = .pause d ∧ thr = 0) →
    (∀ n, n < 64 / 2 ^ d.toNat * r.snd.tempo.toNat → ∃ t : State, seqTicks n s = .next t ∧ t.faults = [] ∧
      t.snd.cursor = s.snd.cursor ∧ t.snd.tempo = r.snd.tempo ∧
      t.snd.dur.toNat = 64 / 2 ^ d.toNat - n / r.snd.tempo.toNat ∧
      t.snd.subtick.toNat = r.snd.tempo.toNat - n % r.snd.tempo.toNat ∧
      (t.snd.state = .playing ∨ t.snd.state = .paused) ∧
      (t.out.toneOn = true ↔ (∀ e, i ≠ .pause e) ∧
        (1 ≤ thr ∧ thr < 64 / 2 ^ d.toNat → n < (64 / 2 ^ d.toNat - thr) * r.snd.tempo.toNat))) ∧
    (∃ u : State, seqTicks (64 / 2 ^ d.toNat * r.snd.tempo.toNat) s = scan u ∧ u.faults = [] ∧
      u.snd.cursor = s.snd.cursor ∧ u.snd.dur = 0 ∧ u.snd.tempo = r.snd.tempo)

/-! ### The multiplexer and the frame synchronizer (spec/40_multiplexer.md, spec/41_frame_sync.md) -/

/-- TICK (40 R100, R109): nothing before setup; else the divider test, the display step or the swap step, the sequencer
tick after it at row 6, and the cursor advance. That a fault of the sequencer tick suppresses the cursor advance is the
model's reading of 60 R260 with R100 (DEDUCED, log entry 18); that the host's duties toward a stream end with a sequencer
tick (dutiesEnd, RacedBytesAreFree) is log entry 5. -/
def Obligations.TickStep : Prop :=
  ∀ s : State, s.faults = [] →
    (s.ctl.configured = false → tick s = .next s) ∧
    (s.ctl.configured = true →
      (s.drive.row = 7 ∧ s.drive.level = 15 ∧ s.drive.divc = 1 → displayOrSwap s =
        swapStep { s with drive := { s.drive with divc := 1#4 <<< s.ctl.frameDivLog2.toNat } }) ∧
      (s.drive.row = 7 ∧ s.drive.level = 15 ∧ s.drive.divc ≠ 1 → displayOrSwap s =
        displayStep { s with drive := { s.drive with divc := s.drive.divc - 1 } }) ∧
      (¬ (s.drive.row = 7 ∧ s.drive.level = 15) → displayOrSwap s = displayStep s) ∧
      ∃ q : State, (s.drive.row ≠ 6 → q = displayOrSwap s) ∧
        (s.drive.row = 6 → ∃ p : State, seqTick (displayOrSwap s) = .next p ∧
          q = if p.faults = [] then p.dutiesEnd else p) ∧
        (q.faults ≠ [] → tick s = .next q) ∧
        (q.faults = [] → tick s = .next { q with drive := { q.drive with
          row := (nextCursor s.drive.row s.drive.level).1, level := (nextCursor s.drive.row s.drive.level).2 } }))

/-- DISPLAY_STEP and the column frame (40 R105, R107): rows off, the auxiliary mask and the precomputed triple latched,
the successor's pattern precomputed, the loaded row on; the three events in that order, and nothing else. -/
def Obligations.DisplayStepOutputs : Prop :=
  ∀ s : State, displayStep s = { s with
    drive := { s.drive with
      nextPat :=
        pattern s.store.back (nextCursor s.drive.row s.drive.level).1.toFin (nextCursor s.drive.row s.drive.level).2 }
    out := { s.out with
      rowEn := 1#8 <<< s.drive.row.toNat
      colOut := s.store.auxActive ++ s.drive.nextPat
      events := s.out.events ++
        [.rowEn 0, .colOut (s.store.auxActive ++ s.drive.nextPat), .rowEn (1#8 <<< s.drive.row.toNat)] } }

/-- SWAP_STEP (41 R137, with R133 to R136 and R138): the copy, the counters, the measurement with one clock sample, the
buttons with one sample, the recomputed pattern and the rows off, and nothing else. Each sample is the next value the
environment presents, or where it presents none a free value, the clock's drawn first: the two lists of presented values and
the count of draws are the model's own form of 10 R46 and R47 (DESIGN CHOICE, log entry 6). -/
def Obligations.SwapStepEffects : Prop :=
  ∀ s : State, ∃ (now : BitVec 32) (raw : BitVec 6) (inp : Inputs) (draws : Nat),
    swapStep s = { s with
      drive := { s.drive with nextPat := pattern s.store.front 0 0 }
      store := { s.store with back := s.store.front, auxActive := s.store.auxFront }
      frame :=
        { count := s.frame.count + 1
          signal := s.frame.signal + 1
          lastTs := now
          sweepDur := if s.frame.meas = .noBoundary then s.frame.sweepDur else now - s.frame.lastTs
          meas := if s.frame.meas = .noBoundary then .discarded else .valid }
      btn := { cur := raw.setWidth 8, prev := s.btn.cur }
      out := { s.out with rowEn := 0, events := s.out.events ++ [.rowEn 0] }
      inp := inp
      draws := draws } ∧
    (∀ c cs, s.inp.clock = c :: cs → now = c ∧ inp.clock = cs) ∧
    (s.inp.clock = [] → now = Config.clockDraw s.draws ∧ inp.clock = []) ∧
    (∀ b bs, s.inp.buttons = b :: bs → raw = b ∧ inp.buttons = bs) ∧
    (s.inp.buttons = [] →
      raw = Config.buttonDraw (s.draws + if s.inp.clock = [] then 1 else 0) ∧ inp.buttons = []) ∧
    draws = s.draws + (if s.inp.clock = [] then 1 else 0) + (if s.inp.buttons = [] then 1 else 0)

/-- The order of a sweep (40 R101 to R104): the row advances every tick and the level when the row wraps; position n of a
sweep is row n mod 8 and level n / 8; a sweep of a configured block is 128 tick steps. -/
def Obligations.SweepOrder : Prop :=
  (∀ (r : BitVec 3) (b : Level), nextCursor r b = if r.toNat < 7 then (r + 1, b) else (0, b + 1)) ∧
  (∀ n, cursorAfter n (0, 0) = (BitVec.ofNat 3 (n % 8), BitVec.ofNat 4 (n / 8 % 16))) ∧
  (∀ (r : BitVec 3) (b : Level), cursorAfter 128 (r, b) = (r, b) ∧
    ∃ n, n < 128 ∧ cursorAfter n (0, 0) = (r, b) ∧ ∀ m, m < 128 → cursorAfter m (0, 0) = (r, b) → m = n) ∧
  (∀ (n : Nat) (s t : State), s.ctl.configured = true → s.faults = [] → ticks n s = .next t → t.faults = [] →
    (t.drive.row, t.drive.level) = cursorAfter n (s.drive.row, s.drive.level))

/-- PATTERN (40 R106): bit x of each channel's byte is set iff the channel's intensity is strictly greater than the
threshold. -/
def Obligations.PatternLanes : Prop :=
  ∀ (p : Picture) (y x : Fin 8) (t : Level),
    (pattern p y t).getLsbD (16 + x.val) = decide (t.toNat < (Picture.pixel p x y).toNat / 256) ∧
    (pattern p y t).getLsbD (8 + x.val) = decide (t.toNat < (Picture.pixel p x y).toNat / 16 % 16) ∧
    (pattern p y t).getLsbD x.val = decide (t.toNat < (Picture.pixel p x y).toNat % 16)

/-- Level 15 is dark (40 R110), and over the 16 levels a channel of intensity v is lit in exactly v slots, those of the
levels 0 to v − 1 (40 R111). -/
def Obligations.DarkLevelAndDuty : Prop :=
  (∀ (p : Picture) (y : Fin 8), pattern p y 15 = 0) ∧
  (∀ (p : Picture) (y x : Fin 8),
    ((List.range 16).filter fun b => (pattern p y (BitVec.ofNat 4 b)).getLsbD (16 + x.val)) =
      List.range ((Picture.pixel p x y).toNat / 256) ∧
    ((List.range 16).filter fun b => (pattern p y (BitVec.ofNat 4 b)).getLsbD (8 + x.val)) =
      List.range ((Picture.pixel p x y).toNat / 16 % 16) ∧
    ((List.range 16).filter fun b => (pattern p y (BitVec.ofNat 4 b)).getLsbD x.val) =
      List.range ((Picture.pixel p x y).toNat % 16)) ∧
  (∀ s : State, s.pipeline → s.drive.level = 15 → (displayStep s).out.colOut.setWidth 24 = 0)

/-- DIVIDER (41 R130 to R132): at a sweep boundary DIVC counts down; at 1 it reloads from FRAME_DIV and the swap runs; else
no frame, button or displayed state moves. -/
def Obligations.DividerCounts : Prop :=
  ∀ s : State, s.ctl.configured = true → s.faults = [] → s.drive.row = 7 → s.drive.level = 15 →
    ∃ t : State, tick s = .next t ∧
      (s.drive.divc = 1 → t.drive.divc.toNat = 2 ^ s.ctl.frameDivLog2.toNat ∧ t.frame.signal = s.frame.signal + 1 ∧
        t.store.back = s.store.front ∧ t.out.colOut = s.out.colOut) ∧
      (s.drive.divc ≠ 1 → t.drive.divc = s.drive.divc - 1 ∧ t.frame = s.frame ∧ t.btn = s.btn ∧
        t.store = s.store ∧ t.out.rowEn = 0x80) ∧
      (s.divcOk → s.ctl.frameDivLog2 = 0 → t.frame.count = s.frame.count + 1)

/-- Frame rate (41 R140, R131): from SETUP with divisor k on, in every interleaving with a host that issues no further
SETUP, FRAME_COUNT and FRAME_SIGNAL have advanced once for every 128·k tick steps. -/
def Obligations.FrameRate : Prop :=
  ∀ (l : BitVec 2) (r s t : State) (gs : List Agent),
    r.faults = [] → exec (.setup (2 ^ l.toNat)) r = .next s → s.noSetup →
    runAgents gs s = .next t → t.faults = [] →
    t.frame.count = BitVec.ofNat 32 (gs.count .tick / (128 * 2 ^ l.toNat)) ∧
    t.frame.signal = BitVec.ofNat 8 (gs.count .tick / (128 * 2 ^ l.toNat)) ∧
    (t.drive.row, t.drive.level) = cursorAfter (gs.count .tick) (0, 0)

/-! ### Invariants of every step -/

/-- The pipeline invariant (40 R108): every step keeps it, so the bits latched at a cursor are the pattern of that cursor
for the picture then displayed. -/
def Obligations.PipelineKept : Prop :=
  (∀ s t : State, (s.safe → s.ctl.configured = true → s.pipeline) → step s = .next t →
    t.safe → t.ctl.configured = true → t.pipeline) ∧
  (∀ s t : State, s.safe → s.ctl.configured = true → s.pipeline → ¬ s.swapsNext → tick s = .next t →
    t.out.colOut = s.store.auxActive ++ pattern s.store.back s.drive.row.toFin s.drive.level)

/-- The invariants of the sound state (10 R35, 42 R170), with the cursor's range of 10 R21. -/
def Obligations.SoundStateKept : Prop :=
  ∀ s t : State, (s.safe → s.ctl.configured = true → s.soundOk) → step s = .next t →
    t.safe → t.ctl.configured = true → t.soundOk

/-- The ranges of DIVC, the button bytes and ROW_EN (10 R25, R44, R51). -/
def Obligations.RangesKept : Prop :=
  ∀ s t : State, (s.safe → s.ctl.configured = true → s.divcOk ∧ s.btn.clean ∧ s.rowEnOk) → step s = .next t →
    t.safe → t.ctl.configured = true → t.divcOk ∧ t.btn.clean ∧ t.rowEnOk

/-- The form of token memory, which is the model's own (log entries 3 and 5): every step keeps its canonical form, and the
host's first duty is the one toward the stream that is live (20 R70, 70 R285). -/
def Obligations.MemoryFormKept : Prop :=
  (∀ s t : State, Memory.wf s.tmem.bytes = true → step s = .next t → Memory.wf t.tmem.bytes = true) ∧
  (∀ s t : State, (s.safe → s.ctl.configured = true → s.dutyOk) → step s = .next t →
    t.safe → t.ctl.configured = true → t.dutyOk)

/-- SETUP leaves the invariants (40 R108, 42 R170, 70 R280), and so does State.reset, whose token memory is canonical. -/
def Obligations.SetupMeetsInvariants : Prop :=
  (∀ (l : BitVec 2) (s : State), ∃ t : State, exec (.setup (2 ^ l.toNat)) s = .next t ∧
    t.pipeline ∧ t.soundOk ∧ t.divcOk ∧ t.btn.clean ∧ t.rowEnOk ∧ t.dutyOk ∧
    t.snd.state = .idle ∧ t.snd.cursorValid = false) ∧
  State.reset.safe ∧ State.reset.inv ∧ State.reset.ctl.configured = true ∧ Memory.wf State.reset.tmem.bytes = true ∧
  State.reset.par.ordersOk

/-! ### Faults and whole-machine rules -/

/-- Faults (60 R261, R263, R267): with FAULTS not empty no agent takes a step; a step removes no fault and raises at most
one, a tick step only TOKEN_OOB. -/
def Obligations.FaultsStopTheBlock : Prop :=
  ∀ s : State,
    (s.faults ≠ [] → step s = .fault .quiescent) ∧
    (∀ t : State, step s = .next t → s.faults = [] ∧ (t.faults = [] ∨ ∃ f, t.faults = [f])) ∧
    (∀ t : State, s.faults = [] → tick s = .next t → t.faults = [] ∨ ∃ c, t.faults = [.tokenOob c])

/-- The block never halts (70 R295): without a fault every step answers a next state, but for two actions of the host
that no rule gives: a token write at no address, and a frame that is no command. -/
def Obligations.BlockNeverHalts : Prop :=
  ∀ s : State, s.faults = [] →
    (acting s = .tick → ∃ t : State, step s = .next t) ∧
    ((∃ t : State, step s = .next t) ∨
      (∃ a b rest, s.host.prog = .writeToken a b :: rest ∧ s.par.tokenMemSize.val ≤ a.toNat ∧
        step s = .fault (.pokeOutside a)) ∨
      (∃ frame rest e, s.host.prog = .command frame :: rest ∧ decode .command frame = .error e ∧
        step s = .refused (.malformedFrame e)))

/-- Disabled is sticky until the next setup (42 R161, 43 R222): every step but the one in which the host issues SETUP keeps
it. -/
def Obligations.DisabledIsSticky : Prop :=
  ∀ s t : State, s.snd.state = .disabled → ¬ s.issuesSetup → step s = .next t → t.snd.state = .disabled

/-- Only the swap moves the frame, button and displayed state (41 R133, R134, R139), the step in which the host issues SETUP
aside. -/
def Obligations.OnlySwapMovesFrames : Prop :=
  ∀ s t : State, step s = .next t → ¬ s.issuesSetup →
    (acting s = .tick ∧ s.swapsNext →
      t.store.back = s.store.front ∧ t.store.auxActive = s.store.auxFront ∧ t.frame.count = s.frame.count + 1 ∧
        t.frame.signal = s.frame.signal + 1 ∧ t.btn.prev = s.btn.cur) ∧
    (¬ (acting s = .tick ∧ s.swapsNext) →
      t.store.back = s.store.back ∧ t.store.auxActive = s.store.auxActive ∧ t.frame = s.frame ∧ t.btn = s.btn)

/-- No host command but SETUP writes the drive cursor, the displayed buffers, the frame and button state or an output
other than TONE_ON, and none reads the drive cursor, NEXT_PAT, ROW_EN or COL_OUT (40 R112, 60 R268): two runs of a command
that differ only there differ only there afterwards. -/
def Obligations.HostBlindToDisplay : Prop :=
  ∀ (i : Instr) (s : State), i.language = .command → (∀ div, i ≠ .setup div) → ∃ t : State,
    exec i s = .next t ∧
    t.drive = s.drive ∧ t.ctl = s.ctl ∧ t.store.back = s.store.back ∧ t.store.auxActive = s.store.auxActive ∧
    t.frame = s.frame ∧ t.btn = s.btn ∧ t.out.rowEn = s.out.rowEn ∧ t.out.colOut = s.out.colOut ∧
    t.out.tonePeriod = s.out.tonePeriod ∧ t.tmem.bytes = s.tmem.bytes ∧
    ∀ (d : Drive) (row : BitVec 8) (col : BitVec 32),
      exec i { s with drive := d, out := { s.out with rowEn := row, colOut := col } } =
        .next { t with drive := d, out := { t.out with rowEn := row, colOut := col } }

/-- A tick step always answers a next state and leaves FRONT, AUX_FRONT, the configuration, the host, the bytes of token
memory and the parameters as they are (44 R246, 60 R268, 20 R61). -/
def Obligations.TickKeepsHostState : Prop :=
  ∀ s : State, ∃ t : State, tick s = .next t ∧ t.store.front = s.store.front ∧ t.store.auxFront = s.store.auxFront ∧
    t.ctl = s.ctl ∧ t.host = s.host ∧ t.tmem.bytes = s.tmem.bytes ∧ t.par = s.par

/-- Power-on (70 R281, R282): a tick changes nothing, every command but SETUP faults, and SETUP leaves the same state
whatever the unspecified elements held: it depends only on the inputs, the event history, token memory, the host and the
parameters. A write of a token byte changes that memory alone, whatever the unspecified sound state holds. That a library
routine, an empty rectangle included, faults at the step that issues it is the model's reading (DEDUCED, log entry 14). -/
def Obligations.PowerOnValuesUnread : Prop :=
  ∀ u : State,
    tick u.powerOn = .next u.powerOn ∧
    (∀ i : Instr, i.language = .command → (∀ div, i ≠ .setup div) → ∃ id,
      exec i u.powerOn = .next { u.powerOn with faults := [.notConfigured id] }) ∧
    (∀ (l : BitVec 2) (v : State), u.inp = v.inp → u.draws = v.draws → u.out.events = v.out.events →
      u.tmem.bytes = v.tmem.bytes → u.host = v.host → u.par = v.par → u.sched = v.sched →
      exec (.setup (2 ^ l.toNat)) u.powerOn = exec (.setup (2 ^ l.toNat)) v.powerOn) ∧
    (∀ (a : BitVec 16) (b : Byte), a.toNat < u.par.tokenMemSize.val →
      u.powerOn.writeToken a b =
        .next { u.powerOn with tmem := { bytes := Memory.write u.tmem.bytes a.toNat b, duties := [] } })

/-! ### Host commands (spec/43_host_interface.md) -/

/-- SETUP (43 R200, 70 R280, 10 R52): with a divisor 1, 2, 4 or 8 every element takes its reset value, FAULTS is not
touched; any other divisor is BAD_DIVISOR and nothing is written. LAST_TS is one clock sample, the next value presented or a
free one, in the model's own form (DESIGN CHOICE, log entry 6). -/
def Obligations.SetupResets : Prop :=
  (∀ (l : BitVec 2) (s : State), ∃ (now : BitVec 32) (inp : Inputs) (draws : Nat),
    exec (.setup (2 ^ l.toNat)) s = .next { s with
      drive := { row := 0, level := 0, nextPat := 0, divc := BitVec.ofNat 4 (2 ^ l.toNat) }
      ctl := { frameDivLog2 := l, configured := true }
      store :=
        { front := Vector.replicate 64 0, back := Vector.replicate 64 0, auxFront := 0, auxActive := 0 }
      frame := { count := 0, signal := 0, lastTs := now, sweepDur := 0, meas := .noBoundary }
      btn := { cur := 0, prev := 0 }
      snd :=
        { state := .idle, cursor := 0, cursorValid := false, note := 0, dur := 0, thr := 0, subtick := 0,
          tempo := 60, fadeDir := .off, fadeSpeed := 0 }
      out :=
        { rowEn := 0, colOut := 0, toneOn := false, tonePeriod := 0
          events := s.out.events ++ [.rowEn 0, .colOut 0, .toneOn false, .tonePeriod 0] }
      host := { s.host with wait := none, result := none }
      inp := inp
      draws := draws } ∧
    (∀ c cs, s.inp.clock = c :: cs → now = c ∧ inp = { s.inp with clock := cs } ∧ draws = s.draws) ∧
    (s.inp.clock = [] → now = Config.clockDraw s.draws ∧ inp = s.inp ∧ draws = s.draws + 1)) ∧
  (∀ (div : Int) (s : State), s.faults = [] → div ≠ 1 → div ≠ 2 → div ≠ 4 → div ≠ 8 →
    exec (.setup div) s = .next { s with faults := [.badDivisor div] })

/-- Preconditions (43 R219): while CONFIGURED = 0 every command but SETUP raises NOT_CONFIGURED with its id and writes
nothing; while the host waits it issues nothing. That a library routine raises it with the routine's own id, at the step that
issues it, is the model's reading (DEDUCED, log entry 14). -/
def Obligations.CommandsNeedSetup : Prop :=
  (∀ (i : Instr) (s : State), i.language = .command → (∀ div, i ≠ .setup div) → s.ctl.configured = false →
    s.faults = [] → ∃ id, (encode i).head? = some id ∧
      exec i s = .next { s with faults := [.notConfigured id] }) ∧
  (∀ (s t : State) (s0 : BitVec 8), s.host.wait = some s0 → hostStep s = .next t →
    t.host.prog = s.host.prog ∧ t.host.routine = s.host.routine ∧ (s.frame.signal = s0 → t = s))

/-- CLEAR and CLEAR_PIXELS (43 R201, R202). -/
def Obligations.ClearCommands : Prop :=
  ∀ s : State, s.ctl.configured = true → ∃ p : Picture,
    (∀ x y : Fin 8, Picture.pixel p x y = 0) ∧
    exec .clear s = .next { s with
      store := { s.store with front := p, auxFront := 0 }, host := { s.host with result := none } } ∧
    exec .clearPixels s = .next { s with
      store := { s.store with front := p }, host := { s.host with result := none } }

/-- SET_PIXEL and SET_PIXEL_S (43 R203, R204): one word of FRONT in range; out of range UNCHECKED_RANGE, or nothing. -/
def Obligations.SetPixelCommands : Prop :=
  ∀ (c : Colour) (s : State), s.ctl.configured = true →
    (∀ x y : Fin 8, ∃ p : Picture,
      (∀ a b : Fin 8, Picture.pixel p a b = if a = x ∧ b = y then c else Picture.pixel s.store.front a b) ∧
      exec (.setPixel x.val y.val c) s = .next { s with
        store := { s.store with front := p }, host := { s.host with result := none } } ∧
      exec (.setPixelS x.val y.val c) s = .next { s with
        store := { s.store with front := p }, host := { s.host with result := none } }) ∧
    (∀ x y : Int, ¬ (0 ≤ x ∧ x < 8 ∧ 0 ≤ y ∧ y < 8) →
      (s.faults = [] → exec (.setPixel x y c) s = .next { s with faults := [.uncheckedRange x y] }) ∧
      exec (.setPixelS x y c) s = .next { s with host := { s.host with result := none } })

/-- GET_PIXEL and GET_PIXEL_S (43 R205, R206): the word of FRONT in range; out of range UNCHECKED_RANGE, or black. What
SET_PIXEL wrote is read back. -/
def Obligations.GetPixelCommands : Prop :=
  ∀ s : State, s.ctl.configured = true →
    (∀ x y : Fin 8,
      exec (.getPixel x.val y.val) s = .next { s with host := { s.host with
        result := some (.colour (Picture.pixel s.store.front x y)) } } ∧
      exec (.getPixelS x.val y.val) s = .next { s with host := { s.host with
        result := some (.colour (Picture.pixel s.store.front x y)) } } ∧
      ∀ c : Colour, ∃ t : State, exec (.setPixel x.val y.val c) s = .next t ∧
        exec (.getPixel x.val y.val) t = .next { t with host := { t.host with result := some (.colour c) } }) ∧
    (∀ x y : Int, ¬ (0 ≤ x ∧ x < 8 ∧ 0 ≤ y ∧ y < 8) →
      (s.faults = [] → exec (.getPixel x y) s = .next { s with faults := [.uncheckedRange x y] }) ∧
      exec (.getPixelS x y) s = .next { s with host := { s.host with result := some (.colour 0) } })

/-- The auxiliary LED commands (43 R209 to R213): the whole mask, or one bit of AUX_FRONT, and nothing where the index is
out of range. -/
def Obligations.AuxCommands : Prop :=
  ∀ s : State, s.ctl.configured = true →
    (∀ mask : Byte, exec (.setAux mask) s = .next { s with
      store := { s.store with auxFront := mask }, host := { s.host with result := none } }) ∧
    exec .getAux s = .next { s with host := { s.host with result := some (.mask s.store.auxFront) } } ∧
    (∀ k : Fin 8, ∃ m m' : Byte,
      (∀ j : Nat, j < 8 → m.getLsbD j = (decide (j = k.val) || s.store.auxFront.getLsbD j)) ∧
      (∀ j : Nat, j < 8 → m'.getLsbD j = (!decide (j = k.val) && s.store.auxFront.getLsbD j)) ∧
      exec (.auxEnable k.val) s = .next { s with
        store := { s.store with auxFront := m }, host := { s.host with result := none } } ∧
      exec (.auxDisable k.val) s = .next { s with
        store := { s.store with auxFront := m' }, host := { s.host with result := none } } ∧
      exec (.auxIsEnabled k.val) s = .next { s with
        host := { s.host with result := some (.flag (s.store.auxFront.getLsbD k.val)) } }) ∧
    (∀ k : Int, ¬ (0 ≤ k ∧ k < 8) →
      exec (.auxEnable k) s = .next { s with host := { s.host with result := none } } ∧
      exec (.auxDisable k) s = .next { s with host := { s.host with result := none } } ∧
      exec (.auxIsEnabled k) s = .next { s with host := { s.host with result := some (.flag false) } })

/-- The button queries (43 R214 to R218): the two bytes, and the edges of one button; false where the index is out of
range. -/
def Obligations.ButtonQueries : Prop :=
  ∀ s : State, s.ctl.configured = true →
    exec .getButtonsCur s = .next { s with host := { s.host with result := some (.mask s.btn.cur) } } ∧
    exec .getButtonsLast s = .next { s with host := { s.host with result := some (.mask s.btn.prev) } } ∧
    (∀ k : Int, ∃ p d r : Bool,
      exec (.buttonPressed k) s = .next { s with host := { s.host with result := some (.flag p) } } ∧
      exec (.buttonDown k) s = .next { s with host := { s.host with result := some (.flag d) } } ∧
      exec (.buttonReleased k) s = .next { s with host := { s.host with result := some (.flag r) } } ∧
      (p = true ↔ (0 ≤ k ∧ k < 6) ∧ s.btn.cur.getLsbD k.toNat = true ∧ s.btn.prev.getLsbD k.toNat = false) ∧
      (d = true ↔ (0 ≤ k ∧ k < 6) ∧ s.btn.cur.getLsbD k.toNat = true) ∧
      (r = true ↔ (0 ≤ k ∧ k < 6) ∧ s.btn.cur.getLsbD k.toNat = false ∧ s.btn.prev.getLsbD k.toNat = true))

/-- PLAY_SOUND, STOP_SOUND, DISABLE_SOUND and preemption (43 R220 to R222, 42 R166): cursor and state together, no output
now; a request is dropped while Disabled; the next sequencer tick starts the stream requested last, whatever was playing,
or stops without reading. What PLAY_SOUND makes of the host's duties is said in RacedBytesAreFree. -/
def Obligations.SoundCommands : Prop :=
  ∀ s : State, s.ctl.configured = true →
    (∀ a : BitVec 16, s.snd.state ≠ .disabled → ∃ (t : State) (duties : List Duty),
      exec (.playSound a) s = .next t ∧
      t = { s with
        snd := { s.snd with cursor := a.setWidth 17, cursorValid := true, state := .startRequested }
        tmem := { s.tmem with duties := duties }
        host := { s.host with result := none } } ∧
      seqTick t = scan { t with
        snd := { t.snd with tempo := 60, fadeDir := .off, fadeSpeed := 0, state := .idle } }) ∧
    (s.snd.state ≠ .disabled → ∃ t : State,
      exec .stopSound s = .next t ∧
      t = { s with
        snd := { s.snd with state := .stopRequested }
        host := { s.host with result := none } } ∧
      seqTick t = .next { t with
        snd := { t.snd with state := .idle, cursorValid := false }
        out := { t.out with toneOn := false, events := t.out.events ++ [.toneOn false] } }) ∧
    (s.snd.state = .disabled →
      (∀ a, exec (.playSound a) s = .next { s with host := { s.host with result := none } }) ∧
      exec .stopSound s = .next { s with host := { s.host with result := none } }) ∧
    exec .disableSound s = .next { s with
      snd := { s.snd with state := .disabled, cursorValid := false }
      out := { s.out with toneOn := false, events := s.out.events ++ [.toneOn false] }
      host := { s.host with result := none } }

/-- GET_PLAYED_NOTE (43 R223): 0 if silent, else the 1-based note index, 1 to 128. -/
def Obligations.PlayedNoteReported : Prop :=
  ∀ s : State, s.ctl.configured = true → ∃ v : BitVec 8,
    exec .getPlayedNote s = .next { s with host := { s.host with result := some (.note v) } } ∧
    v.toNat = if s.out.toneOn = true then s.snd.note.toNat + 1 else 0

/-- FRAME_SYNC (43 R224, R225): the call records FRAME_SIGNAL; while it has not changed the host has no step and only a
qualifying swap can change it; once it has, the wait ends with FRAME_COUNT. In an infinite run that meets the premise
HOST_SYNC_FAIR of 70 R287, every wait of a configured block ends so. HostSyncFair, acting and turn are the model's form of
that premise and of which agent moves (DESIGN CHOICE, DEDUCED, log entry 10). -/
def Obligations.FrameSyncWaits : Prop :=
  (∀ (r : Nat → State) (n : Nat) (s0 : BitVec 8), IsRun r → HostSyncFair r → (r n).ctl.configured = true →
    (r n).host.wait = some s0 → ∃ m, n ≤ m ∧ acting (r m) = .host ∧ (r m).returnEnabled s0 ∧
      (r (m + 1)).host =
        { (r m).host with wait := none, result := some (.frames (r m).frame.count) }) ∧
  ∀ s : State,
    (s.ctl.configured = true →
      exec .frameSync s = .next { s with host := { s.host with wait := some s.frame.signal } }) ∧
    (∀ s0 : BitVec 8, s.host.wait = some s0 →
      (s.frame.signal = s0 → hostEnabled s = false ∧ acting s = .tick ∧
        ∀ t : State, step s = .next t → t.host = s.host ∧
          (t.frame.signal ≠ s0 → s.swapsNext ∧ t.frame.count = s.frame.count + 1)) ∧
      (s.frame.signal ≠ s0 → hostEnabled s = true ∧ acting s = s.turn ∧
        hostStep s = .next { s with
          host := { s.host with wait := none, result := some (.frames s.frame.count) } }))

/-- GET_LOAD_SAMPLE (43 R226): the time since LAST_TS mod 2^32, SWEEP_DUR and whether MEAS_STATE = 2, with one clock
sample, the next value presented or a free one, in the model's own form (DESIGN CHOICE, log entry 6). -/
def Obligations.LoadSampleReported : Prop :=
  ∀ s : State, s.ctl.configured = true → ∃ (now : BitVec 32) (inp : Inputs) (draws : Nat),
    exec .getLoadSample s = .next { s with
      inp := inp
      draws := draws
      host := { s.host with
        result := some (.load (now - s.frame.lastTs) s.frame.sweepDur (decide (s.frame.meas = .valid))) } } ∧
    (∀ c cs, s.inp.clock = c :: cs → now = c ∧ inp = { s.inp with clock := cs } ∧ draws = s.draws) ∧
    (s.inp.clock = [] → now = Config.clockDraw s.draws ∧ inp = s.inp ∧ draws = s.draws + 1)

/-- BAD_COMMAND (43 R227, 60 R263): any other id raises BAD_COMMAND and writes nothing; the configuration is tested first.
That such an id decodes to BAD_COMMAND whatever bytes follow it is the model's own layout of frames (DESIGN CHOICE, log
entry 13). -/
def Obligations.UnknownCommandsRefused : Prop :=
  ∀ id : Byte, ¬ ((0x01 ≤ id.toNat ∧ id.toNat ≤ 0x17) ∨ (0x20 ≤ id.toNat ∧ id.toNat ≤ 0x24)) →
    (∀ ops : List Byte, decode .command (id :: ops) = .ok (.badCommand id)) ∧
    (∀ s : State, s.faults = [] →
      (s.ctl.configured = true → exec (.badCommand id) s = .next { s with faults := [.badCommand id] }) ∧
      (s.ctl.configured = false → exec (.badCommand id) s = .next { s with faults := [.notConfigured id] }))

/-- COLOR and the channel accessors (43 R207, R208): operands above 15 keep their low 4 bits, and the round-trip law. -/
def Obligations.ColourRoundTrip : Prop :=
  (∀ r g b : Nat, (color r g b).toNat = 256 * (r % 16) + 16 * (g % 16) + b % 16 ∧
    (red (color r g b)).toNat = r % 16 ∧ (green (color r g b)).toNat = g % 16 ∧ (blue (color r g b)).toNat = b % 16) ∧
  (∀ c : Colour, color (red c).toNat (green c).toNat (blue c).toNat = c)

/-! ### Library routines, with ticks anywhere between their primitives (spec/44_host_library.md) -/

/-- FILL_RECT_S (44 R241, R246): after w·h host steps of any interleaving exactly the cells of the rectangle inside the
matrix hold c, and no fault is its own. That the call is a host step of its own, with w·h host steps after it, is the model's
reading (DEDUCED, log entry 8). -/
def Obligations.FillRectCheckedRun : Prop :=
  ∀ (x y w h : Int) (c : Colour) (s : State), s.ctl.configured = true → s.faults = [] → s.host.wait = none →
    ∃ t : State, exec (.fillRectS x y w h c) s = .next t ∧ t = { s with host := t.host } ∧ t.host.prog = s.host.prog ∧
      ∀ gs : List Agent, gs.count .host = w.toNat * h.toNat → ∃ u : State, runAgents gs t = .next u ∧
        (u.faults = [] ∨ ∃ k, u.faults = [.tokenOob k]) ∧
        (u.faults = [] → u.host.routine = none ∧ u.host.wait = none ∧ u.host.prog = s.host.prog ∧
          u.store.auxFront = s.store.auxFront ∧
          ∀ a b : Fin 8, Picture.pixel u.store.front a b =
            if x ≤ a.val ∧ a.val < x + w ∧ y ≤ b.val ∧ b.val < y + h then c
            else Picture.pixel s.store.front a b)

/-- FILL_RECT (44 R240, R246): the cells in order, row after row, cell m being (x + m mod w, y + m / w); after n ≤ w·h host
steps of any interleaving the cells written so far hold c; the first cell outside the matrix raises UNCHECKED_RANGE and
those before it stay written. That the call is a host step of its own, with its primitives in the host steps after it, is the
model's reading (DEDUCED, log entry 8). -/
def Obligations.FillRectRun : Prop :=
  ∀ (x y w h : Int) (c : Colour) (s : State), s.ctl.configured = true → s.faults = [] → s.host.wait = none →
    ∃ t : State, exec (.fillRect x y w h c) s = .next t ∧ t = { s with host := t.host } ∧ t.host.prog = s.host.prog ∧
      (w ≤ 0 ∨ h ≤ 0 → t.host.routine = none) ∧
      ∀ gs : List Agent, gs.count .host ≤ w.toNat * h.toNat → ∃ (u : State) (m : Nat), runAgents gs t = .next u ∧
        m ≤ gs.count .host ∧
        (∀ k, k < m → 0 ≤ x + (k % w.toNat : Nat) ∧ x + (k % w.toNat : Nat) < 8 ∧
          0 ≤ y + (k / w.toNat : Nat) ∧ y + (k / w.toNat : Nat) < 8) ∧
        (∀ a b : Fin 8, Picture.pixel u.store.front a b =
          if ∃ k, k < m ∧ (a.val : Int) = x + (k % w.toNat : Nat) ∧ (b.val : Int) = y + (k / w.toNat : Nat) then c
          else Picture.pixel s.store.front a b) ∧
        ((u.faults = [] ∧ m = gs.count .host ∧ (m = w.toNat * h.toNat → u.host.routine = none)) ∨
          (u.faults = [.uncheckedRange (x + (m % w.toNat : Nat)) (y + (m / w.toNat : Nat))] ∧ m < gs.count .host ∧
            ¬ (0 ≤ x + (m % w.toNat : Nat) ∧ x + (m % w.toNat : Nat) < 8 ∧
              0 ≤ y + (m / w.toNat : Nat) ∧ y + (m / w.toNat : Nat) < 8)) ∨
          ∃ k, u.faults = [.tokenOob k])

/-- SCROLL (44 R242, R246): after its 128 host steps in any interleaving FRONT has moved one position with wraparound, and
AUX_FRONT is untouched; the order of the cells does not matter. That the call is a host step of its own, with 128 host steps
after it, is the model's reading (DEDUCED, log entry 8), and the order of the cells is a field of the machine (log entry
11). -/
def Obligations.ScrollRun : Prop :=
  ∀ (dir : Dir) (s : State), s.ctl.configured = true → s.faults = [] → s.host.wait = none → s.par.ordersOk →
    ∃ t : State, exec (.scroll dir) s = .next t ∧ t = { s with host := t.host } ∧ t.host.prog = s.host.prog ∧
      ∀ gs : List Agent, gs.count .host = 128 → ∃ u : State, runAgents gs t = .next u ∧
        (u.faults = [] ∨ ∃ k, u.faults = [.tokenOob k]) ∧
        (u.faults = [] → u.host.routine = none ∧ u.host.wait = none ∧ u.host.prog = s.host.prog ∧
          u.store.auxFront = s.store.auxFront ∧
          ∀ a b : Fin 8, Picture.pixel u.store.front a b =
            match dir with
            | .left => Picture.pixel s.store.front (a + 1) b
            | .right => Picture.pixel s.store.front (a + 7) b
            | .down => Picture.pixel s.store.front a (b + 1)
            | .up => Picture.pixel s.store.front a (b + 7))

/-- FADE_PIXELS (44 R243, R246): after its 128 host steps in any interleaving every channel of FRONT has fallen by one,
saturating at zero, and AUX_FRONT is untouched. That the call is a host step of its own, with 128 host steps after it, is
the model's reading (DEDUCED, log entry 8), and the order of the cells is a field of the machine (log entry 11). -/
def Obligations.FadePixelsRun : Prop :=
  ∀ s : State, s.ctl.configured = true → s.faults = [] → s.host.wait = none → s.par.ordersOk →
    ∃ t : State, exec .fadePixels s = .next t ∧ t = { s with host := t.host } ∧ t.host.prog = s.host.prog ∧
      ∀ gs : List Agent, gs.count .host = 128 → ∃ u : State, runAgents gs t = .next u ∧
        (u.faults = [] ∨ ∃ k, u.faults = [.tokenOob k]) ∧
        (u.faults = [] → u.host.routine = none ∧ u.host.wait = none ∧ u.host.prog = s.host.prog ∧
          u.store.auxFront = s.store.auxFront ∧
          ∀ a b : Fin 8,
            (Picture.pixel u.store.front a b).toNat / 256 = (Picture.pixel s.store.front a b).toNat / 256 - 1 ∧
            (Picture.pixel u.store.front a b).toNat / 16 % 16 =
              (Picture.pixel s.store.front a b).toNat / 16 % 16 - 1 ∧
            (Picture.pixel u.store.front a b).toNat % 16 = (Picture.pixel s.store.front a b).toNat % 16 - 1)

/-- FRAME_SYNC_SHOW_LOAD (44 R244): GET_LOAD_SAMPLE, then SET_AUX with the load bar if the sample is valid and its duration
is not 0, then FRAME_SYNC. That the command itself only begins the routine, and each primitive is a later host step, is the
model's reading (DEDUCED, log entry 8). -/
def Obligations.ShowLoadSteps : Prop :=
  ∀ s : State, s.ctl.configured = true →
    exec .frameSyncShowLoad s = .next { s with
      host := { s.host with routine := some .loadSample, result := none } } ∧
    (s.host.wait = none →
      (s.host.routine = some .loadSample → ∃ (t : State) (e d : BitVec 32) (v : Bool),
        exec .getLoadSample s = .next t ∧ t.host.result = some (.load e d v) ∧
        (v = true ∧ d ≠ 0 → hostStep s = .next { t with
          host := { t.host with routine := some (.loadBar (loadBar e.toNat d.toNat)) } }) ∧
        (v = false ∨ d = 0 → hostStep s = .next { t with host := { t.host with routine := some .loadSync } })) ∧
      (∀ bar, s.host.routine = some (.loadBar bar) → ∃ t : State, exec (.setAux bar) s = .next t ∧
        hostStep s = .next { t with host := { t.host with routine := some .loadSync } }) ∧
      (s.host.routine = some .loadSync → ∃ t : State, exec .frameSync s = .next t ∧
        hostStep s = .next { t with host := { t.host with routine := none } }))

/-- LOAD_BAR (44 R245): for e ≤ D the LEDs below 8·e / D are lit; above, those from min(7, 8·(e − D) / (3·D)) on. D is at
least 1: for D = 0 the rule gives no value (log entry 23). -/
def Obligations.LoadBarShape : Prop :=
  ∀ e d j : Nat, 0 < d → j < 8 →
    (loadBar e d).getLsbD j =
      if e ≤ d then decide (j < 8 * e / d) else decide (min 7 (8 * (e - d) / (3 * d)) ≤ j)

/-! ### Encoding (spec/30_encoding.md) -/

/-- Decode and encode agree: every well-formed instruction is read back from its bytes, in its own language. -/
def Obligations.EncodingRoundTrip : Prop :=
  ∀ i : Instr, i.wellFormed = true → decode i.language (encode i) = .ok i

/-- Every byte is exactly one token, of one byte (30 R80, R82): the decoded token is well-formed, encodes as that byte
again, and no list of another length is a token. -/
def Obligations.TokenBytesExact : Prop :=
  (∀ b : Byte, decode .token [b] = .ok (decodeToken b) ∧ encode (decodeToken b) = [b] ∧
    (decodeToken b).wellFormed = true ∧ (decodeToken b).language = .token) ∧
  (∀ (bs : List Byte) (i : Instr), decode .token bs = .ok i → ∃ b, bs = [b])

/-- Some words written out from the encoding tables (30 R81, R89). -/
def Obligations.DecodedWords : Prop :=
  decode .token [0x00] = .ok .endTok ∧ decode .token [0x12] = .ok (.play 2) ∧ decode .token [0x24] = .ok (.playr 4) ∧
  decode .token [0x35] = .ok (.plays 5) ∧ decode .token [0x43] = .ok (.pause 3) ∧
  decode .token [0x5F] = .ok (.tempo 15) ∧ decode .token [0x60] = .ok .fadeoff ∧
  decode .token [0x67] = .ok (.fadeup 7) ∧ decode .token [0x69] = .ok (.fadedn 1) ∧
  decode .token [0xC5] = .ok (.note 69) ∧ decode .token [0x68] = .ok (.unrecognized 0x68) ∧
  decode .command [0x02] = .ok .clear ∧ decode .command [0x13] = .ok .stopSound ∧
  decode .command [0x16] = .ok .frameSync ∧ decode .command [0x23] = .ok .fadePixels ∧
  decode .command [0x18] = .ok (.badCommand 0x18)

/-! ### A step runs the decoded instruction -/

/-- A step of a free host whose turn it is, with a frame at the head of its program that decodes to i, is exec of i on the
state with that frame taken from the program and the turn from the schedule. -/
def Obligations.StepRunsCommand : Prop :=
  ∀ (s : State) (frame : List Byte) (rest : List HostAct) (gs : List Agent) (i : Instr),
    s.faults = [] → s.host.wait = none → s.host.routine = none → s.host.prog = .command frame :: rest →
    s.sched = .host :: gs → decode .command frame = .ok i →
    step s = exec i { s with sched := gs, host := { s.host with prog := rest } }

/-- A step of the tick agent at row 6 with a start request runs the token at the cursor first: the scan that the step runs
begins with the exec of the decoded byte on the displayed state with the request's defaults and the cursor moved by one.
After the scan the step ends the host's duties toward the streams (dutiesEnd, log entry 5) and moves the cursor. -/
def Obligations.StepRunsToken : Prop :=
  ∀ (s r t u : State) (b : Byte) (gs : List Agent),
    s.faults = [] → s.ctl.configured = true → s.drive.row = 6 → s.snd.state = .startRequested →
    s.sched = .tick :: gs → r = startDefaults (displayStep { s with sched := gs }) → fetch r = (some b, t) →
    exec (decodeToken b) t = .next u →
    t.snd.cursor = s.snd.cursor + 1 ∧ t.snd.tempo = 60 ∧
    (endsScan (decodeToken b) = true → step s = .next { u.dutiesEnd with drive := { u.drive with row := 7 } }) ∧
    (endsScan (decodeToken b) = false → step s = finishTick (endDuties (scan u)))

/-! ### Token memory (spec/20_memory.md) -/

/-- Token memory changes only by a host write (20 R60, R61), which changes one byte; every instruction and every tick step
leaves all of it. -/
def Obligations.TokenMemoryWrites : Prop :=
  ∀ s t : State, Memory.wf s.tmem.bytes = true → step s = .next t →
    (∀ a, Memory.read t.tmem.bytes a = Memory.read s.tmem.bytes a) ∨
    (∃ a b rest, s.host.prog = .writeToken a b :: rest ∧ t.host.prog = rest ∧ a.toNat < s.par.tokenMemSize.val ∧
      ∀ k, Memory.read t.tmem.bytes k = if k = a.toNat then b else Memory.read s.tmem.bytes k)

/-- A racing write (20 R70, R75, 70 R285). The host has a duty toward the stream started last and toward each one abandoned
since the last sequencer tick: to leave alone the bytes from the stream's start to its END, and for the live stream those from
SND_CURSOR on. A write of such a byte makes it raced, in whatever SND_STATE (R70 and R285 differ in Idle and Disabled: log entry
24), and each read of a raced byte is a free value, a fresh one each time; a write that leaves its byte raced with no stream is
seen by every later read. A PLAY_SOUND of a stream the host still has a duty toward keeps what it raced; STOP_SOUND,
DISABLE_SOUND and SETUP end no duty; a sequencer tick ends all but the live stream's. How the model keeps the duties is its own
reading (DEDUCED, log entry 5). -/
def Obligations.RacedBytesAreFree : Prop :=
  (∀ (s : State) (d : Duty), s.snd.cursor.toNat < s.par.tokenMemSize.val → d ∈ s.tmem.duties →
    s.snd.cursor.toNat ∈ d.raced →
    fetch s = (some (Config.tokenDraw s.draws),
      { s with draws := s.draws + 1, snd := { s.snd with cursor := s.snd.cursor + 1 } })) ∧
  (∀ (s : State) (a : BitVec 16) (b : Byte), a.toNat < s.par.tokenMemSize.val →
    ∃ (bytes : Memory) (duties : List Duty),
      s.writeToken a b = .next { s with tmem := { bytes := bytes, duties := duties } } ∧
      duties.map Duty.start = s.tmem.duties.map Duty.start ∧
      ∀ (j : Nat) (d e : Duty), s.tmem.duties[j]? = some d → duties[j]? = some e →
        ∀ n : Nat, n ∈ e.raced ↔ n ∈ d.raced ∨ (n = a.toNat ∧ ∃ c : Nat,
          (c = d.start.toNat ∨ (j = 0 ∧ c = s.snd.cursor.toNat ∧
            (s.snd.state = .startRequested ∨ s.snd.state = .playing ∨ s.snd.state = .paused))) ∧
          c ≤ a.toNat ∧ ∀ k, c ≤ k → k < a.toNat →
            (∃ f ∈ s.tmem.duties, k ∈ f.raced) ∨ Memory.read s.tmem.bytes k ≠ 0)) ∧
  (∀ (s t u : State) (a : BitVec 16) (b : Byte), Memory.wf s.tmem.bytes = true →
    s.writeToken a b = .next t → (∀ d ∈ t.tmem.duties, a.toNat ∉ d.raced) →
    u.tmem = t.tmem → u.par = s.par → u.snd.cursor = a.setWidth 17 →
    fetch u = (some b, { u with snd := { u.snd with cursor := u.snd.cursor + 1 } })) ∧
  (∀ (i : Instr) (s t : State), exec i s = .next t →
    (i = .stopSound ∨ i = .disableSound ∨ (∃ div, i = .setup div) → t.tmem = s.tmem) ∧
    (∀ a : BitVec 16, i = .playSound a → s.ctl.configured = true → s.snd.state ≠ .disabled →
      ∃ (d : Duty) (ds : List Duty), t.tmem = { bytes := s.tmem.bytes, duties := d :: ds } ∧ d.start = a ∧
        (∀ k, k ∈ d.raced ↔ ∃ e ∈ s.tmem.duties, e.start = a ∧ k ∈ e.raced) ∧
        ∀ e, e ∈ ds ↔ e ∈ s.tmem.duties ∧ e.start ≠ a)) ∧
  (∀ s t : State, step s = .next t →
    (¬ s.sequencerNext → ∀ d ∈ s.tmem.duties, ∃ e ∈ t.tmem.duties, e.start = d.start ∧
      ∀ k ∈ d.raced, k ∈ e.raced) ∧
    (s.sequencerNext → t.faults = [] → t.tmem.duties =
      if t.snd.state = .startRequested ∨ t.snd.state = .playing ∨ t.snd.state = .paused then s.tmem.duties.take 1
      else []))
end

