-- ==== Sys2Proof/Laws/Decode.lean ====
section
/-!
SUPPORT. The operand bytes of the command frames read back what was written.
-/

namespace Sys2Proof

theorem int8Of_byteOf (v : Int) (h : int8 v = true) : int8Of (byteOf v) = v := by
  simp only [int8, Bool.and_eq_true, decide_eq_true_eq] at h
  unfold int8Of byteOf
  rw [BitVec.toInt_ofInt]
  exact Int.bmod_eq_of_le (by omega) (by omega)

theorem colourOf_bytes (c : Colour) :
    colourOf ((c.setWidth 16).extractLsb' 0 8) ((c.setWidth 16).extractLsb' 8 8) = c := by
  apply BitVec.eq_of_getLsbD_eq
  intro k hk
  unfold colourOf half
  simp only [BitVec.getLsbD_setWidth, BitVec.getLsbD_append, BitVec.getLsbD_extractLsb']
  rcases Nat.lt_or_ge k 8 with h | h
  · simp [h, hk, show k < 16 by omega]
  · simp [show ¬ k < 8 by omega, hk, show k - 8 < 8 by omega, show 8 + (k - 8) = k by omega, show k < 16 by omega]

theorem half_bytes (v : BitVec 16) : half (v.extractLsb' 0 8) (v.extractLsb' 8 8) = v := by
  apply BitVec.eq_of_getLsbD_eq
  intro k hk
  unfold half
  simp only [BitVec.getLsbD_append, BitVec.getLsbD_extractLsb']
  rcases Nat.lt_or_ge k 8 with h | h
  · simp [h]
  · simp [show ¬ k < 8 by omega, show k - 8 < 8 by omega, show 8 + (k - 8) = k by omega]

/-- The bytes of an integer read back as it, where they are enough to hold it. -/
theorem intOf_bytes : ∀ (n : Nat) (v : Int), -(128 * 256 ^ n) ≤ v → v < 128 * 256 ^ n → intOf (intBytes (n + 1) v) = v
  | 0, v, h1, h2 => by
    show (BitVec.ofInt 8 v).toInt = v
    rw [BitVec.toInt_ofInt]
    exact Int.bmod_eq_of_le (by omega) (by omega)
  | n + 1, v, h1, h2 => by
    have e : (256 : Int) ^ (n + 1) = 256 * 256 ^ n := Int.pow_succ' ..
    rw [e] at h1 h2
    show ((BitVec.ofInt 8 v).toNat : Int) + 256 * intOf (intBytes (n + 1) (v / 256)) = v
    rw [intOf_bytes n (v / 256) (by omega) (by omega), BitVec.toNat_ofInt]
    omega

/-- Every integer has a frame (30 R88). -/
theorem intOf_intBytes (v : Int) : intOf (intBytes (intLength v) v) = v := by
  have h : v.natAbs < 2 ^ (v.natAbs.log2 + 1) := Nat.lt_log2_self
  have hp : 2 ^ (v.natAbs.log2 + 1) ≤ 2 ^ (7 + 8 * (v.natAbs.log2 / 8 + 1)) :=
    Nat.pow_le_pow_right (by omega) (by omega)
  have e : (2 : Nat) ^ (7 + 8 * (v.natAbs.log2 / 8 + 1)) = 128 * 256 ^ (v.natAbs.log2 / 8 + 1) := by
    rw [Nat.pow_add, Nat.pow_mul]
  have hb : (v.natAbs : Int) < 128 * 256 ^ (v.natAbs.log2 / 8 + 1) := by
    have := Nat.lt_of_lt_of_le h (hp.trans (Nat.le_of_eq e))
    exact_mod_cast this
  exact intOf_bytes _ v (by omega) (by omega)

theorem dirOf_code (d : Dir) : dirOf (((dirCode d).setWidth 8).setWidth 2) = d := by
  cases d <;> decide

/-- A command id that 30 R89 does not list is BAD_COMMAND, whatever follows it (43 R227). -/
theorem decodeCommand_unlisted : ∀ (id : Byte) (ops : List Byte), listedId id = false →
    decodeCommand id ops = .ok (.badCommand id) := by
  intro id ops h
  unfold decodeCommand
  split <;> first
    | rfl
    | (rename_i e; exfalso; revert h; unfold listedId; rw [e]; decide)

end Sys2Proof
end

