-- ==== Sys2Proof/Laws/Memory.lean ====
section
/-!
SUPPORT. The laws of token memory: a read after a write, and the canonical form, which every write keeps.
-/

namespace Sys2Proof.Machine

theorem Memory.above_mono {lo lo' : Nat} (h : lo ≤ lo') : ∀ m : Memory, Memory.above lo' m = true → Memory.above lo m = true
  | [], _ => rfl
  | (k, _) :: m, hm => by
    simp only [Memory.above, Bool.and_eq_true, decide_eq_true_eq] at hm ⊢
    exact ⟨by omega, Memory.above_mono h m hm.2⟩

/-- A canonical memory's tail lies above its head. -/
theorem Memory.wf_cons {k : Nat} {v : Byte} {m : Memory} (h : Memory.wf ((k, v) :: m) = true) :
    v ≠ unlistedByte ∧ Memory.above k m = true ∧ Memory.wf m = true := by
  simpa [Memory.wf, and_assoc] using h

/-- An address at or below the bound of a memory is not listed. -/
theorem Memory.read_above {lo a : Nat} (ha : a ≤ lo) :
    ∀ m : Memory, Memory.above lo m = true → Memory.read m a = unlistedByte
  | [], _ => rfl
  | (k, _) :: m, h => by
    simp only [Memory.above, Bool.and_eq_true, decide_eq_true_eq] at h
    simp [Memory.read, show a ≠ k by omega, Memory.read_above ha m h.2]

theorem Memory.write_above {lo a : Nat} (ha : lo < a) (b : Byte) :
    ∀ m : Memory, Memory.above lo m = true → Memory.above lo (Memory.write m a b) = true
  | [], _ => by
    unfold Memory.write
    split <;> simp [Memory.above, ha]
  | (k, v) :: m, h => by
    have h' := h
    simp only [Memory.above, Bool.and_eq_true, decide_eq_true_eq] at h'
    unfold Memory.write
    split
    · split
      · exact h
      · simp [Memory.above, ha, h'.1, h'.2]
    · split
      · split
        · exact h'.2
        · simp [Memory.above, ha, h'.2]
      · simp [Memory.above, h'.1, Memory.write_above ha b m h'.2]

/-- A write keeps the canonical form. -/
theorem Memory.write_wf (a : Nat) (b : Byte) : ∀ m : Memory, Memory.wf m = true → Memory.wf (Memory.write m a b) = true
  | [], _ => by
    unfold Memory.write
    split
    · rfl
    · rename_i hb
      simp [Memory.wf, Memory.above, hb]
  | (k, v) :: m, h => by
    obtain ⟨hv, hab, hm⟩ := Memory.wf_cons h
    unfold Memory.write
    split
    · rename_i hlt
      split
      · exact h
      · rename_i hb
        have := Memory.above_mono (Nat.le_of_lt hlt) m hab
        simp [Memory.wf, Memory.above, hb, hv, hab, hm, hlt, this]
    · split
      · rename_i he
        subst he
        split
        · exact hm
        · rename_i hb
          simp [Memory.wf, hb, hab, hm]
      · simp [Memory.wf, hv, Memory.write_above (show k < a by omega) b m hab, Memory.write_wf a b m hm]

/-- A read after a write: the byte written at its address, the old byte everywhere else. -/
theorem Memory.read_write (a : Nat) (b : Byte) (a' : Nat) :
    ∀ m : Memory, Memory.wf m = true → Memory.read (Memory.write m a b) a' = if a' = a then b else Memory.read m a'
  | [], _ => by
    unfold Memory.write
    split
    · rename_i hb
      subst hb
      simp [Memory.read]
    · simp [Memory.read]
  | (k, v) :: m, h => by
    obtain ⟨-, hab, hm⟩ := Memory.wf_cons h
    unfold Memory.write
    split
    · rename_i hlt
      split
      · rename_i hb
        subst hb
        split
        · rename_i he
          subst he
          have := Memory.read_above (Nat.le_of_lt hlt) m hab
          simp [Memory.read, show a' ≠ k by omega, this]
        · rfl
      · simp [Memory.read]
    · split
      · rename_i he
        subst he
        split
        · rename_i hb
          subst hb
          by_cases h' : a' = a
          · subst h'
            simpa using Memory.read_above (Nat.le_refl a') m hab
          · simp [Memory.read, h']
        · by_cases h' : a' = a <;> simp [Memory.read, h']
      · rename_i hne
        by_cases h' : a' = k
        · subst h'
          simp [Memory.read, show a' ≠ a by omega]
        · simp [Memory.read, h', Memory.read_write a b a' m hm]

/-- No address of a range surely holds END: each is raced or reads other than 0x00. -/
theorem TokenMemory.endWithin_eq_false (m : TokenMemory) : ∀ n c : Nat, m.endWithin c n = false ↔
    ∀ k, c ≤ k → k < c + n → m.isRaced k = true ∨ Memory.read m.bytes k ≠ 0x00#8
  | 0, c => by
    simp only [TokenMemory.endWithin, true_iff]
    intro k h1 h2
    omega
  | n + 1, c => by
    rw [TokenMemory.endWithin, Bool.or_eq_false_iff, TokenMemory.endWithin_eq_false m n (c + 1)]
    constructor
    · rintro ⟨h, hk⟩ k h1 h2
      by_cases he : k = c
      · subst he
        simpa [or_iff_not_imp_left] using h
      · exact hk k (by omega) (by omega)
    · intro hk
      refine ⟨?_, fun k h1 h2 => hk k (by omega) (by omega)⟩
      simpa [or_iff_not_imp_left] using hk c (Nat.le_refl c) (by omega)

/-- What it is for a stream read from `c` on to reach the byte at `a` (20 R70). -/
theorem TokenMemory.reaches_iff (m : TokenMemory) (c a : Nat) : m.reaches c a = true ↔
    c ≤ a ∧ ∀ k, c ≤ k → k < a → m.isRaced k = true ∨ Memory.read m.bytes k ≠ 0x00#8 := by
  rw [TokenMemory.reaches, Bool.and_eq_true, decide_eq_true_eq, Bool.not_eq_true', m.endWithin_eq_false]
  exact and_congr_right fun h => forall_congr' fun k => by rw [Nat.add_sub_cancel' h]

/-- The live states (20 R70). -/
theorem SndState.live_iff (x : SndState) : x.live = true ↔ x = .startRequested ∨ x = .playing ∨ x = .paused := by
  cases x <;> simp [SndState.live]

/-- A raced byte: one that the host raced with a stream it has a duty toward. -/
theorem TokenMemory.isRaced_iff (m : TokenMemory) (a : Nat) : m.isRaced a = true ↔ ∃ d ∈ m.duties, a ∈ d.raced := by
  simp [TokenMemory.isRaced]

/-- The bytes the host must leave alone for one stream (20 R70, 70 R285). -/
theorem State.mustLeave_iff (s : State) (running : Bool) (d : Duty) (a : Nat) : s.mustLeave running d a = true ↔
    s.tmem.reaches d.start.toNat a = true ∨
      (running = true ∧ s.snd.state.live = true ∧ s.tmem.reaches s.snd.cursor.toNat a = true) := by
  simp [State.mustLeave, and_assoc]

@[simp] theorem State.dutyAfter_start (s : State) (a : Nat) (running : Bool) (d : Duty) :
    (s.dutyAfter a running d).start = d.start := by
  unfold State.dutyAfter
  split <;> rfl

/-- What a write makes of the addresses raced with one stream (20 R75, 70 R285). -/
theorem State.mem_dutyAfter (s : State) (a k : Nat) (running : Bool) (d : Duty) :
    k ∈ (s.dutyAfter a running d).raced ↔ k ∈ d.raced ∨ (k = a ∧ s.mustLeave running d a = true) := by
  unfold State.dutyAfter
  split
  · rename_i h
    rw [Bool.and_eq_true] at h
    simp [h.1]
  · rename_i h
    refine ⟨Or.inl, ?_⟩
    rintro (hk | ⟨rfl, hk⟩)
    · exact hk
    · simpa [hk] using h

/-- The duties after a write, one by one. -/
theorem State.dutiesAfter_get (s : State) (a j : Nat) :
    (s.dutiesAfter a)[j]? = s.tmem.duties[j]?.map (s.dutyAfter a (j == 0)) := by
  unfold State.dutiesAfter
  cases s.tmem.duties with
  | nil => rfl
  | cons d ds => cases j <;> simp

/-- A write begins no duty and ends none. -/
theorem State.dutiesAfter_starts (s : State) (a : Nat) :
    (s.dutiesAfter a).map Duty.start = s.tmem.duties.map Duty.start := by
  unfold State.dutiesAfter
  cases s.tmem.duties with
  | nil => rfl
  | cons d ds => simp [Function.comp_def]

/-- What PLAY_SOUND inherits: what was raced with a stream of the same start. -/
theorem TokenMemory.mem_racedWith (m : TokenMemory) (a : BitVec Config.wTaddr) (k : Nat) :
    k ∈ m.racedWith a ↔ ∃ d ∈ m.duties, d.start = a ∧ k ∈ d.raced := by
  simp [TokenMemory.racedWith, and_assoc]

/-- What a host write of a token byte can do: the new memory, and what it makes of the duties (20 R61, R75). -/
theorem State.writeToken_next {s t : State} {a : BitVec Config.wTaddr} {b : Byte} (h : s.writeToken a b = .next t) :
    a.toNat < s.tokenSize ∧
      t = { s with
        tmem := { bytes := Memory.write s.tmem.bytes a.toNat b, duties := s.dutiesAfter a.toNat } } := by
  unfold State.writeToken at h
  split at h
  · rename_i hlt
    exact ⟨hlt, (Host.Outcome.next.inj h).symm⟩
  · cases h

end Sys2Proof.Machine
end

