-- ==== Sys2Proof/Laws/State.lean ====
section
/-!
SUPPORT. For each update of the state, one lemma per field of State: what the update leaves, and what it writes.
-/

namespace Sys2Proof.Machine

/-! ### raise -/

@[simp] theorem State.raise_drive (s : State) (f : ModelFault) : (s.raise f).drive = s.drive := rfl
@[simp] theorem State.raise_ctl (s : State) (f : ModelFault) : (s.raise f).ctl = s.ctl := rfl
@[simp] theorem State.raise_store (s : State) (f : ModelFault) : (s.raise f).store = s.store := rfl
@[simp] theorem State.raise_frame (s : State) (f : ModelFault) : (s.raise f).frame = s.frame := rfl
@[simp] theorem State.raise_btn (s : State) (f : ModelFault) : (s.raise f).btn = s.btn := rfl
@[simp] theorem State.raise_snd (s : State) (f : ModelFault) : (s.raise f).snd = s.snd := rfl
@[simp] theorem State.raise_out (s : State) (f : ModelFault) : (s.raise f).out = s.out := rfl
@[simp] theorem State.raise_inp (s : State) (f : ModelFault) : (s.raise f).inp = s.inp := rfl
@[simp] theorem State.raise_host (s : State) (f : ModelFault) : (s.raise f).host = s.host := rfl
@[simp] theorem State.raise_tmem (s : State) (f : ModelFault) : (s.raise f).tmem = s.tmem := rfl
@[simp] theorem State.raise_par (s : State) (f : ModelFault) : (s.raise f).par = s.par := rfl
@[simp] theorem State.raise_sched (s : State) (f : ModelFault) : (s.raise f).sched = s.sched := rfl
@[simp] theorem State.raise_draws (s : State) (f : ModelFault) : (s.raise f).draws = s.draws := rfl

/-! ### outRowEn -/

@[simp] theorem State.outRowEn_drive (s : State) (v : BitVec 8) : (s.outRowEn v).drive = s.drive := rfl
@[simp] theorem State.outRowEn_ctl (s : State) (v : BitVec 8) : (s.outRowEn v).ctl = s.ctl := rfl
@[simp] theorem State.outRowEn_store (s : State) (v : BitVec 8) : (s.outRowEn v).store = s.store := rfl
@[simp] theorem State.outRowEn_frame (s : State) (v : BitVec 8) : (s.outRowEn v).frame = s.frame := rfl
@[simp] theorem State.outRowEn_btn (s : State) (v : BitVec 8) : (s.outRowEn v).btn = s.btn := rfl
@[simp] theorem State.outRowEn_snd (s : State) (v : BitVec 8) : (s.outRowEn v).snd = s.snd := rfl
@[simp] theorem State.outRowEn_inp (s : State) (v : BitVec 8) : (s.outRowEn v).inp = s.inp := rfl
@[simp] theorem State.outRowEn_faults (s : State) (v : BitVec 8) : (s.outRowEn v).faults = s.faults := rfl
@[simp] theorem State.outRowEn_host (s : State) (v : BitVec 8) : (s.outRowEn v).host = s.host := rfl
@[simp] theorem State.outRowEn_tmem (s : State) (v : BitVec 8) : (s.outRowEn v).tmem = s.tmem := rfl
@[simp] theorem State.outRowEn_par (s : State) (v : BitVec 8) : (s.outRowEn v).par = s.par := rfl
@[simp] theorem State.outRowEn_sched (s : State) (v : BitVec 8) : (s.outRowEn v).sched = s.sched := rfl
@[simp] theorem State.outRowEn_draws (s : State) (v : BitVec 8) : (s.outRowEn v).draws = s.draws := rfl

/-! ### outColOut -/

@[simp] theorem State.outColOut_drive (s : State) (v : BitVec 32) : (s.outColOut v).drive = s.drive := rfl
@[simp] theorem State.outColOut_ctl (s : State) (v : BitVec 32) : (s.outColOut v).ctl = s.ctl := rfl
@[simp] theorem State.outColOut_store (s : State) (v : BitVec 32) : (s.outColOut v).store = s.store := rfl
@[simp] theorem State.outColOut_frame (s : State) (v : BitVec 32) : (s.outColOut v).frame = s.frame := rfl
@[simp] theorem State.outColOut_btn (s : State) (v : BitVec 32) : (s.outColOut v).btn = s.btn := rfl
@[simp] theorem State.outColOut_snd (s : State) (v : BitVec 32) : (s.outColOut v).snd = s.snd := rfl
@[simp] theorem State.outColOut_inp (s : State) (v : BitVec 32) : (s.outColOut v).inp = s.inp := rfl
@[simp] theorem State.outColOut_faults (s : State) (v : BitVec 32) : (s.outColOut v).faults = s.faults := rfl
@[simp] theorem State.outColOut_host (s : State) (v : BitVec 32) : (s.outColOut v).host = s.host := rfl
@[simp] theorem State.outColOut_tmem (s : State) (v : BitVec 32) : (s.outColOut v).tmem = s.tmem := rfl
@[simp] theorem State.outColOut_par (s : State) (v : BitVec 32) : (s.outColOut v).par = s.par := rfl
@[simp] theorem State.outColOut_sched (s : State) (v : BitVec 32) : (s.outColOut v).sched = s.sched := rfl
@[simp] theorem State.outColOut_draws (s : State) (v : BitVec 32) : (s.outColOut v).draws = s.draws := rfl

/-! ### outToneOn -/

@[simp] theorem State.outToneOn_drive (s : State) (v : Bool) : (s.outToneOn v).drive = s.drive := rfl
@[simp] theorem State.outToneOn_ctl (s : State) (v : Bool) : (s.outToneOn v).ctl = s.ctl := rfl
@[simp] theorem State.outToneOn_store (s : State) (v : Bool) : (s.outToneOn v).store = s.store := rfl
@[simp] theorem State.outToneOn_frame (s : State) (v : Bool) : (s.outToneOn v).frame = s.frame := rfl
@[simp] theorem State.outToneOn_btn (s : State) (v : Bool) : (s.outToneOn v).btn = s.btn := rfl
@[simp] theorem State.outToneOn_snd (s : State) (v : Bool) : (s.outToneOn v).snd = s.snd := rfl
@[simp] theorem State.outToneOn_inp (s : State) (v : Bool) : (s.outToneOn v).inp = s.inp := rfl
@[simp] theorem State.outToneOn_faults (s : State) (v : Bool) : (s.outToneOn v).faults = s.faults := rfl
@[simp] theorem State.outToneOn_host (s : State) (v : Bool) : (s.outToneOn v).host = s.host := rfl
@[simp] theorem State.outToneOn_tmem (s : State) (v : Bool) : (s.outToneOn v).tmem = s.tmem := rfl
@[simp] theorem State.outToneOn_par (s : State) (v : Bool) : (s.outToneOn v).par = s.par := rfl
@[simp] theorem State.outToneOn_sched (s : State) (v : Bool) : (s.outToneOn v).sched = s.sched := rfl
@[simp] theorem State.outToneOn_draws (s : State) (v : Bool) : (s.outToneOn v).draws = s.draws := rfl

/-! ### outTonePeriod -/

@[simp] theorem State.outTonePeriod_drive (s : State) (v : BitVec 16) : (s.outTonePeriod v).drive = s.drive := rfl
@[simp] theorem State.outTonePeriod_ctl (s : State) (v : BitVec 16) : (s.outTonePeriod v).ctl = s.ctl := rfl
@[simp] theorem State.outTonePeriod_store (s : State) (v : BitVec 16) : (s.outTonePeriod v).store = s.store := rfl
@[simp] theorem State.outTonePeriod_frame (s : State) (v : BitVec 16) : (s.outTonePeriod v).frame = s.frame := rfl
@[simp] theorem State.outTonePeriod_btn (s : State) (v : BitVec 16) : (s.outTonePeriod v).btn = s.btn := rfl
@[simp] theorem State.outTonePeriod_snd (s : State) (v : BitVec 16) : (s.outTonePeriod v).snd = s.snd := rfl
@[simp] theorem State.outTonePeriod_inp (s : State) (v : BitVec 16) : (s.outTonePeriod v).inp = s.inp := rfl
@[simp] theorem State.outTonePeriod_faults (s : State) (v : BitVec 16) : (s.outTonePeriod v).faults = s.faults := rfl
@[simp] theorem State.outTonePeriod_host (s : State) (v : BitVec 16) : (s.outTonePeriod v).host = s.host := rfl
@[simp] theorem State.outTonePeriod_tmem (s : State) (v : BitVec 16) : (s.outTonePeriod v).tmem = s.tmem := rfl
@[simp] theorem State.outTonePeriod_par (s : State) (v : BitVec 16) : (s.outTonePeriod v).par = s.par := rfl
@[simp] theorem State.outTonePeriod_sched (s : State) (v : BitVec 16) : (s.outTonePeriod v).sched = s.sched := rfl
@[simp] theorem State.outTonePeriod_draws (s : State) (v : BitVec 16) : (s.outTonePeriod v).draws = s.draws := rfl

/-! ### clockTaken -/

@[simp] theorem State.clockTaken_drive (s : State) : (s.clockTaken).drive = s.drive := by unfold State.clockTaken; split <;> rfl
@[simp] theorem State.clockTaken_ctl (s : State) : (s.clockTaken).ctl = s.ctl := by unfold State.clockTaken; split <;> rfl
@[simp] theorem State.clockTaken_store (s : State) : (s.clockTaken).store = s.store := by unfold State.clockTaken; split <;> rfl
@[simp] theorem State.clockTaken_frame (s : State) : (s.clockTaken).frame = s.frame := by unfold State.clockTaken; split <;> rfl
@[simp] theorem State.clockTaken_btn (s : State) : (s.clockTaken).btn = s.btn := by unfold State.clockTaken; split <;> rfl
@[simp] theorem State.clockTaken_snd (s : State) : (s.clockTaken).snd = s.snd := by unfold State.clockTaken; split <;> rfl
@[simp] theorem State.clockTaken_out (s : State) : (s.clockTaken).out = s.out := by unfold State.clockTaken; split <;> rfl
@[simp] theorem State.clockTaken_faults (s : State) : (s.clockTaken).faults = s.faults := by unfold State.clockTaken; split <;> rfl
@[simp] theorem State.clockTaken_host (s : State) : (s.clockTaken).host = s.host := by unfold State.clockTaken; split <;> rfl
@[simp] theorem State.clockTaken_tmem (s : State) : (s.clockTaken).tmem = s.tmem := by unfold State.clockTaken; split <;> rfl
@[simp] theorem State.clockTaken_par (s : State) : (s.clockTaken).par = s.par := by unfold State.clockTaken; split <;> rfl
@[simp] theorem State.clockTaken_sched (s : State) : (s.clockTaken).sched = s.sched := by unfold State.clockTaken; split <;> rfl

/-! ### buttonsTaken -/

@[simp] theorem State.buttonsTaken_drive (s : State) : (s.buttonsTaken).drive = s.drive := by unfold State.buttonsTaken; split <;> rfl
@[simp] theorem State.buttonsTaken_ctl (s : State) : (s.buttonsTaken).ctl = s.ctl := by unfold State.buttonsTaken; split <;> rfl
@[simp] theorem State.buttonsTaken_store (s : State) : (s.buttonsTaken).store = s.store := by unfold State.buttonsTaken; split <;> rfl
@[simp] theorem State.buttonsTaken_frame (s : State) : (s.buttonsTaken).frame = s.frame := by unfold State.buttonsTaken; split <;> rfl
@[simp] theorem State.buttonsTaken_btn (s : State) : (s.buttonsTaken).btn = s.btn := by unfold State.buttonsTaken; split <;> rfl
@[simp] theorem State.buttonsTaken_snd (s : State) : (s.buttonsTaken).snd = s.snd := by unfold State.buttonsTaken; split <;> rfl
@[simp] theorem State.buttonsTaken_out (s : State) : (s.buttonsTaken).out = s.out := by unfold State.buttonsTaken; split <;> rfl
@[simp] theorem State.buttonsTaken_faults (s : State) : (s.buttonsTaken).faults = s.faults := by unfold State.buttonsTaken; split <;> rfl
@[simp] theorem State.buttonsTaken_host (s : State) : (s.buttonsTaken).host = s.host := by unfold State.buttonsTaken; split <;> rfl
@[simp] theorem State.buttonsTaken_tmem (s : State) : (s.buttonsTaken).tmem = s.tmem := by unfold State.buttonsTaken; split <;> rfl
@[simp] theorem State.buttonsTaken_par (s : State) : (s.buttonsTaken).par = s.par := by unfold State.buttonsTaken; split <;> rfl
@[simp] theorem State.buttonsTaken_sched (s : State) : (s.buttonsTaken).sched = s.sched := by unfold State.buttonsTaken; split <;> rfl

/-! ### tokenRead -/

@[simp] theorem State.tokenRead_drive (s : State) (a : Nat) : (s.tokenRead a).drive = s.drive := by unfold State.tokenRead; split <;> rfl
@[simp] theorem State.tokenRead_ctl (s : State) (a : Nat) : (s.tokenRead a).ctl = s.ctl := by unfold State.tokenRead; split <;> rfl
@[simp] theorem State.tokenRead_store (s : State) (a : Nat) : (s.tokenRead a).store = s.store := by unfold State.tokenRead; split <;> rfl
@[simp] theorem State.tokenRead_frame (s : State) (a : Nat) : (s.tokenRead a).frame = s.frame := by unfold State.tokenRead; split <;> rfl
@[simp] theorem State.tokenRead_btn (s : State) (a : Nat) : (s.tokenRead a).btn = s.btn := by unfold State.tokenRead; split <;> rfl
@[simp] theorem State.tokenRead_snd (s : State) (a : Nat) : (s.tokenRead a).snd = s.snd := by unfold State.tokenRead; split <;> rfl
@[simp] theorem State.tokenRead_out (s : State) (a : Nat) : (s.tokenRead a).out = s.out := by unfold State.tokenRead; split <;> rfl
@[simp] theorem State.tokenRead_inp (s : State) (a : Nat) : (s.tokenRead a).inp = s.inp := by unfold State.tokenRead; split <;> rfl
@[simp] theorem State.tokenRead_faults (s : State) (a : Nat) : (s.tokenRead a).faults = s.faults := by unfold State.tokenRead; split <;> rfl
@[simp] theorem State.tokenRead_host (s : State) (a : Nat) : (s.tokenRead a).host = s.host := by unfold State.tokenRead; split <;> rfl
@[simp] theorem State.tokenRead_tmem (s : State) (a : Nat) : (s.tokenRead a).tmem = s.tmem := by unfold State.tokenRead; split <;> rfl
@[simp] theorem State.tokenRead_par (s : State) (a : Nat) : (s.tokenRead a).par = s.par := by unfold State.tokenRead; split <;> rfl
@[simp] theorem State.tokenRead_sched (s : State) (a : Nat) : (s.tokenRead a).sched = s.sched := by unfold State.tokenRead; split <;> rfl

/-! ### beginDuty -/

@[simp] theorem State.beginDuty_drive (s : State) (a : BitVec Config.wTaddr) : (s.beginDuty a).drive = s.drive := rfl
@[simp] theorem State.beginDuty_ctl (s : State) (a : BitVec Config.wTaddr) : (s.beginDuty a).ctl = s.ctl := rfl
@[simp] theorem State.beginDuty_store (s : State) (a : BitVec Config.wTaddr) : (s.beginDuty a).store = s.store := rfl
@[simp] theorem State.beginDuty_frame (s : State) (a : BitVec Config.wTaddr) : (s.beginDuty a).frame = s.frame := rfl
@[simp] theorem State.beginDuty_btn (s : State) (a : BitVec Config.wTaddr) : (s.beginDuty a).btn = s.btn := rfl
@[simp] theorem State.beginDuty_snd (s : State) (a : BitVec Config.wTaddr) : (s.beginDuty a).snd = s.snd := rfl
@[simp] theorem State.beginDuty_out (s : State) (a : BitVec Config.wTaddr) : (s.beginDuty a).out = s.out := rfl
@[simp] theorem State.beginDuty_inp (s : State) (a : BitVec Config.wTaddr) : (s.beginDuty a).inp = s.inp := rfl
@[simp] theorem State.beginDuty_faults (s : State) (a : BitVec Config.wTaddr) : (s.beginDuty a).faults = s.faults := rfl
@[simp] theorem State.beginDuty_host (s : State) (a : BitVec Config.wTaddr) : (s.beginDuty a).host = s.host := rfl
@[simp] theorem State.beginDuty_par (s : State) (a : BitVec Config.wTaddr) : (s.beginDuty a).par = s.par := rfl
@[simp] theorem State.beginDuty_sched (s : State) (a : BitVec Config.wTaddr) : (s.beginDuty a).sched = s.sched := rfl
@[simp] theorem State.beginDuty_draws (s : State) (a : BitVec Config.wTaddr) : (s.beginDuty a).draws = s.draws := rfl
@[simp] theorem State.beginDuty_bytes (s : State) (a : BitVec Config.wTaddr) : (s.beginDuty a).tmem.bytes = s.tmem.bytes := rfl

/-! ### dutiesEnd -/

@[simp] theorem State.dutiesEnd_drive (s : State) : s.dutiesEnd.drive = s.drive := rfl
@[simp] theorem State.dutiesEnd_ctl (s : State) : s.dutiesEnd.ctl = s.ctl := rfl
@[simp] theorem State.dutiesEnd_store (s : State) : s.dutiesEnd.store = s.store := rfl
@[simp] theorem State.dutiesEnd_frame (s : State) : s.dutiesEnd.frame = s.frame := rfl
@[simp] theorem State.dutiesEnd_btn (s : State) : s.dutiesEnd.btn = s.btn := rfl
@[simp] theorem State.dutiesEnd_snd (s : State) : s.dutiesEnd.snd = s.snd := rfl
@[simp] theorem State.dutiesEnd_out (s : State) : s.dutiesEnd.out = s.out := rfl
@[simp] theorem State.dutiesEnd_inp (s : State) : s.dutiesEnd.inp = s.inp := rfl
@[simp] theorem State.dutiesEnd_faults (s : State) : s.dutiesEnd.faults = s.faults := rfl
@[simp] theorem State.dutiesEnd_host (s : State) : s.dutiesEnd.host = s.host := rfl
@[simp] theorem State.dutiesEnd_par (s : State) : s.dutiesEnd.par = s.par := rfl
@[simp] theorem State.dutiesEnd_sched (s : State) : s.dutiesEnd.sched = s.sched := rfl
@[simp] theorem State.dutiesEnd_draws (s : State) : s.dutiesEnd.draws = s.draws := rfl
@[simp] theorem State.dutiesEnd_bytes (s : State) : s.dutiesEnd.tmem.bytes = s.tmem.bytes := rfl

/-! ### setFront -/

@[simp] theorem State.setFront_drive (s : State) (x y : Fin 8) (c : Colour) : (s.setFront x y c).drive = s.drive := rfl
@[simp] theorem State.setFront_ctl (s : State) (x y : Fin 8) (c : Colour) : (s.setFront x y c).ctl = s.ctl := rfl
@[simp] theorem State.setFront_frame (s : State) (x y : Fin 8) (c : Colour) : (s.setFront x y c).frame = s.frame := rfl
@[simp] theorem State.setFront_btn (s : State) (x y : Fin 8) (c : Colour) : (s.setFront x y c).btn = s.btn := rfl
@[simp] theorem State.setFront_snd (s : State) (x y : Fin 8) (c : Colour) : (s.setFront x y c).snd = s.snd := rfl
@[simp] theorem State.setFront_out (s : State) (x y : Fin 8) (c : Colour) : (s.setFront x y c).out = s.out := rfl
@[simp] theorem State.setFront_inp (s : State) (x y : Fin 8) (c : Colour) : (s.setFront x y c).inp = s.inp := rfl
@[simp] theorem State.setFront_faults (s : State) (x y : Fin 8) (c : Colour) : (s.setFront x y c).faults = s.faults := rfl
@[simp] theorem State.setFront_host (s : State) (x y : Fin 8) (c : Colour) : (s.setFront x y c).host = s.host := rfl
@[simp] theorem State.setFront_tmem (s : State) (x y : Fin 8) (c : Colour) : (s.setFront x y c).tmem = s.tmem := rfl
@[simp] theorem State.setFront_par (s : State) (x y : Fin 8) (c : Colour) : (s.setFront x y c).par = s.par := rfl
@[simp] theorem State.setFront_sched (s : State) (x y : Fin 8) (c : Colour) : (s.setFront x y c).sched = s.sched := rfl
@[simp] theorem State.setFront_draws (s : State) (x y : Fin 8) (c : Colour) : (s.setFront x y c).draws = s.draws := rfl

/-! ### setAuxFront -/

@[simp] theorem State.setAuxFront_drive (s : State) (m : Byte) : (s.setAuxFront m).drive = s.drive := rfl
@[simp] theorem State.setAuxFront_ctl (s : State) (m : Byte) : (s.setAuxFront m).ctl = s.ctl := rfl
@[simp] theorem State.setAuxFront_frame (s : State) (m : Byte) : (s.setAuxFront m).frame = s.frame := rfl
@[simp] theorem State.setAuxFront_btn (s : State) (m : Byte) : (s.setAuxFront m).btn = s.btn := rfl
@[simp] theorem State.setAuxFront_snd (s : State) (m : Byte) : (s.setAuxFront m).snd = s.snd := rfl
@[simp] theorem State.setAuxFront_out (s : State) (m : Byte) : (s.setAuxFront m).out = s.out := rfl
@[simp] theorem State.setAuxFront_inp (s : State) (m : Byte) : (s.setAuxFront m).inp = s.inp := rfl
@[simp] theorem State.setAuxFront_faults (s : State) (m : Byte) : (s.setAuxFront m).faults = s.faults := rfl
@[simp] theorem State.setAuxFront_host (s : State) (m : Byte) : (s.setAuxFront m).host = s.host := rfl
@[simp] theorem State.setAuxFront_tmem (s : State) (m : Byte) : (s.setAuxFront m).tmem = s.tmem := rfl
@[simp] theorem State.setAuxFront_par (s : State) (m : Byte) : (s.setAuxFront m).par = s.par := rfl
@[simp] theorem State.setAuxFront_sched (s : State) (m : Byte) : (s.setAuxFront m).sched = s.sched := rfl
@[simp] theorem State.setAuxFront_draws (s : State) (m : Byte) : (s.setAuxFront m).draws = s.draws := rfl

/-! ### answer -/

@[simp] theorem State.answer_drive (s : State) (r : Option Result) : (s.answer r).drive = s.drive := rfl
@[simp] theorem State.answer_ctl (s : State) (r : Option Result) : (s.answer r).ctl = s.ctl := rfl
@[simp] theorem State.answer_store (s : State) (r : Option Result) : (s.answer r).store = s.store := rfl
@[simp] theorem State.answer_frame (s : State) (r : Option Result) : (s.answer r).frame = s.frame := rfl
@[simp] theorem State.answer_btn (s : State) (r : Option Result) : (s.answer r).btn = s.btn := rfl
@[simp] theorem State.answer_snd (s : State) (r : Option Result) : (s.answer r).snd = s.snd := rfl
@[simp] theorem State.answer_out (s : State) (r : Option Result) : (s.answer r).out = s.out := rfl
@[simp] theorem State.answer_inp (s : State) (r : Option Result) : (s.answer r).inp = s.inp := rfl
@[simp] theorem State.answer_faults (s : State) (r : Option Result) : (s.answer r).faults = s.faults := rfl
@[simp] theorem State.answer_tmem (s : State) (r : Option Result) : (s.answer r).tmem = s.tmem := rfl
@[simp] theorem State.answer_par (s : State) (r : Option Result) : (s.answer r).par = s.par := rfl
@[simp] theorem State.answer_sched (s : State) (r : Option Result) : (s.answer r).sched = s.sched := rfl
@[simp] theorem State.answer_draws (s : State) (r : Option Result) : (s.answer r).draws = s.draws := rfl

/-! ### startRoutine -/

@[simp] theorem State.startRoutine_drive (s : State) (r : Option Routine) : (s.startRoutine r).drive = s.drive := rfl
@[simp] theorem State.startRoutine_ctl (s : State) (r : Option Routine) : (s.startRoutine r).ctl = s.ctl := rfl
@[simp] theorem State.startRoutine_store (s : State) (r : Option Routine) : (s.startRoutine r).store = s.store := rfl
@[simp] theorem State.startRoutine_frame (s : State) (r : Option Routine) : (s.startRoutine r).frame = s.frame := rfl
@[simp] theorem State.startRoutine_btn (s : State) (r : Option Routine) : (s.startRoutine r).btn = s.btn := rfl
@[simp] theorem State.startRoutine_snd (s : State) (r : Option Routine) : (s.startRoutine r).snd = s.snd := rfl
@[simp] theorem State.startRoutine_out (s : State) (r : Option Routine) : (s.startRoutine r).out = s.out := rfl
@[simp] theorem State.startRoutine_inp (s : State) (r : Option Routine) : (s.startRoutine r).inp = s.inp := rfl
@[simp] theorem State.startRoutine_faults (s : State) (r : Option Routine) : (s.startRoutine r).faults = s.faults := rfl
@[simp] theorem State.startRoutine_tmem (s : State) (r : Option Routine) : (s.startRoutine r).tmem = s.tmem := rfl
@[simp] theorem State.startRoutine_par (s : State) (r : Option Routine) : (s.startRoutine r).par = s.par := rfl
@[simp] theorem State.startRoutine_sched (s : State) (r : Option Routine) : (s.startRoutine r).sched = s.sched := rfl
@[simp] theorem State.startRoutine_draws (s : State) (r : Option Routine) : (s.startRoutine r).draws = s.draws := rfl

/-! ### What the updates write -/

theorem State.raise_faults (s : State) (f : ModelFault) (h : s.faults = []) : (s.raise f).faults = [f] := by
  simp [State.raise, h]

theorem State.raise_faults_ne (s : State) (f : ModelFault) : (s.raise f).faults ≠ [] := by
  unfold State.raise
  simp only
  split
  · rename_i h
    intro h0
    simp [h0] at h
  · simp

@[simp] theorem State.outRowEn_out (s : State) (v : BitVec 8) : (s.outRowEn v).out = { s.out with rowEn := v, events := s.out.events ++ [.rowEn v] } := rfl
@[simp] theorem State.outColOut_out (s : State) (v : BitVec 32) : (s.outColOut v).out = { s.out with colOut := v, events := s.out.events ++ [.colOut v] } := rfl
@[simp] theorem State.outToneOn_out (s : State) (v : Bool) : (s.outToneOn v).out = { s.out with toneOn := v, events := s.out.events ++ [.toneOn v] } := rfl
@[simp] theorem State.outTonePeriod_out (s : State) (v : BitVec 16) : (s.outTonePeriod v).out = { s.out with tonePeriod := v, events := s.out.events ++ [.tonePeriod v] } := rfl
@[simp] theorem State.setFront_store (s : State) (x y : Fin 8) (c : Colour) : (s.setFront x y c).store = { s.store with front := Picture.withPixel s.store.front x y c } := rfl
@[simp] theorem State.setAuxFront_store (s : State) (m : Byte) : (s.setAuxFront m).store = { s.store with auxFront := m } := rfl
@[simp] theorem State.answer_host (s : State) (r : Option Result) : (s.answer r).host = { s.host with result := r } := rfl
@[simp] theorem State.startRoutine_host (s : State) (r : Option Routine) : (s.startRoutine r).host = { s.host with routine := r, result := none } := rfl

end Sys2Proof.Machine
end

