-- ==== Sys2Proof/Laws/Host.lean ====
section
/-!
SUPPORT. What a host command and a host step can do, said once (spec/43_host_interface.md, spec/44_host_library.md,
spec/60_exceptions.md R268).
-/

namespace Sys2Proof.Machine

/-! ### Commands -/

theorem ifConfigured_on {id : Byte} {s : State} {k : Answer} (h : s.ctl.configured = true) :
    ifConfigured id s k = k := by simp [ifConfigured, h]

theorem ifConfigured_off {id : Byte} {s : State} {k : Answer} (h : s.ctl.configured = false) :
    ifConfigured id s k = .next (s.raise (.notConfigured id)) := by simp [ifConfigured, h]

/-- What no command but SETUP touches (40 R112, 60 R268). -/
structure CommandFrame (s t : State) : Prop where
  drive : t.drive = s.drive
  ctl : t.ctl = s.ctl
  back : t.store.back = s.store.back
  auxActive : t.store.auxActive = s.store.auxActive
  frame : t.frame = s.frame
  btn : t.btn = s.btn
  bytes : t.tmem.bytes = s.tmem.bytes
  par : t.par = s.par
  sched : t.sched = s.sched
  rowEn : t.out.rowEn = s.out.rowEn
  colOut : t.out.colOut = s.out.colOut
  tonePeriod : t.out.tonePeriod = s.out.tonePeriod
  tempo : t.snd.tempo = s.snd.tempo
  prog : t.host.prog = s.host.prog

theorem CommandFrame.refl (s : State) : CommandFrame s s :=
  ⟨rfl, rfl, rfl, rfl, rfl, rfl, rfl, rfl, rfl, rfl, rfl, rfl, rfl, rfl⟩

/-- What a command leaves of the sound state and of FAULTS: the sound invariants, and at most one raise. -/
structure CommandSound (s t : State) : Prop where
  sound : s.soundOk → t.soundOk
  faults : t.faults = s.faults ∨ ∃ f, t.faults = (s.raise f).faults
  disabled : s.snd.state = .disabled → t.snd.state = .disabled

theorem CommandSound.of_eq {s t : State} (h : t.snd = s.snd) (h1 : t.out.toneOn = s.out.toneOn)
    (h2 : t.faults = s.faults ∨ ∃ f, t.faults = (s.raise f).faults) : CommandSound s t := by
  refine ⟨fun hs => ?_, h2, fun hd => by rw [h]; exact hd⟩
  unfold State.soundOk State.toneOk at *
  rw [h, h1]
  exact hs

/-- A command's outcome: a next state, within its frame. -/
def CommandOutcome (s : State) (o : Answer) : Prop := ∃ t, o = .next t ∧ CommandFrame s t ∧ CommandSound s t

theorem outcome_raise (s : State) (f : ModelFault) : CommandOutcome s (.next (s.raise f)) :=
  ⟨_, rfl, ⟨rfl, rfl, rfl, rfl, rfl, rfl, rfl, rfl, rfl, rfl, rfl, rfl, rfl, rfl⟩,
    CommandSound.of_eq rfl rfl (Or.inr ⟨f, rfl⟩)⟩

theorem outcome_guarded {id : Byte} {s : State} {k : Answer} (h : CommandOutcome s k) :
    CommandOutcome s (ifConfigured id s k) := by
  unfold ifConfigured
  split
  · exact h
  · exact outcome_raise s _

theorem outcome_complete (s : State) (r : Option Result) : CommandOutcome s (complete s r) :=
  ⟨_, rfl, ⟨rfl, rfl, rfl, rfl, rfl, rfl, rfl, rfl, rfl, rfl, rfl, rfl, rfl, rfl⟩,
    CommandSound.of_eq rfl rfl (Or.inl rfl)⟩

theorem outcome_front (s : State) (p : Picture) (m : Byte) (r : Option Result) :
    CommandOutcome s (complete { s with store := { s.store with front := p, auxFront := m } } r) :=
  ⟨_, rfl, ⟨rfl, rfl, rfl, rfl, rfl, rfl, rfl, rfl, rfl, rfl, rfl, rfl, rfl, rfl⟩,
    CommandSound.of_eq rfl rfl (Or.inl rfl)⟩

theorem outcome_routine (s : State) (r : Option Routine) : CommandOutcome s (.next (s.startRoutine r)) :=
  ⟨_, rfl, ⟨rfl, rfl, rfl, rfl, rfl, rfl, rfl, rfl, rfl, rfl, rfl, rfl, rfl, rfl⟩,
    CommandSound.of_eq rfl rfl (Or.inl rfl)⟩

theorem outcome_query (k : Int) (f : Fin 6 → Bool) (s : State) : CommandOutcome s (buttonQuery k f s) := by
  unfold buttonQuery
  split <;> exact outcome_complete s _

/-- Every command but SETUP answers a next state, within its frame. -/
theorem exec_command (i : Instr) (hi : i.language = .command) (hn : ∀ d, i ≠ .setup d) (s : State) :
    CommandOutcome s (exec i s) := by
  cases i <;> first
    | (exfalso; revert hi; simp [Instr.language]; done)
    | skip
  case setup d => exact absurd rfl (hn d)
  case clear => exact outcome_guarded (outcome_front s blackPicture 0 none)
  case clearPixels => exact outcome_guarded (outcome_front s blackPicture s.store.auxFront none)
  case setPixel x y c =>
    refine outcome_guarded (id := 0x04) ?_
    split
    · exact outcome_front s _ s.store.auxFront none
    · exact outcome_raise s _
  case setPixelS x y c =>
    refine outcome_guarded (id := 0x05) ?_
    split
    · exact outcome_front s _ s.store.auxFront none
    · exact outcome_complete s none
  case getPixel x y =>
    refine outcome_guarded (id := 0x06) ?_
    split
    · exact outcome_complete s _
    · exact outcome_raise s _
  case getPixelS x y =>
    refine outcome_guarded (id := 0x07) ?_
    split <;> exact outcome_complete s _
  case setAux m => exact outcome_guarded (outcome_front s s.store.front m none)
  case getAux => exact outcome_guarded (outcome_complete s _)
  case auxEnable k =>
    refine outcome_guarded (id := 0x0A) ?_
    split
    · exact outcome_front s s.store.front _ none
    · exact outcome_complete s none
  case auxDisable k =>
    refine outcome_guarded (id := 0x0B) ?_
    split
    · exact outcome_front s s.store.front _ none
    · exact outcome_complete s none
  case auxIsEnabled k =>
    refine outcome_guarded (id := 0x0C) ?_
    split <;> exact outcome_complete s _
  case getButtonsCur => exact outcome_guarded (outcome_complete s _)
  case getButtonsLast => exact outcome_guarded (outcome_complete s _)
  case buttonPressed k => exact outcome_guarded (outcome_query k _ s)
  case buttonDown k => exact outcome_guarded (outcome_query k _ s)
  case buttonReleased k => exact outcome_guarded (outcome_query k _ s)
  case playSound a =>
    refine outcome_guarded (id := 0x12) ?_
    split
    · exact outcome_complete s none
    · rename_i hd
      refine ⟨_, rfl, ⟨rfl, rfl, rfl, rfl, rfl, rfl, rfl, rfl, rfl, rfl, rfl, rfl, rfl, rfl⟩,
        ⟨fun h => ⟨⟨fun _ => rfl, fun hx => ?_⟩, fun hx => ?_, h.2.2.1, fun _ => Or.inr (Or.inr rfl), ?_⟩, Or.inl rfl,
          fun h => absurd h hd⟩⟩
      · rcases hx with hx | hx <;> exact absurd hx (by simp [State.answer])
      · rcases hx with hx | hx <;> exact absurd hx (by simp [State.answer])
      · show (a.setWidth 17).toNat ≤ 65536
        have : a.toNat < 2 ^ 16 := a.isLt
        rw [BitVec.toNat_setWidth]
        omega
  case stopSound =>
    refine outcome_guarded (id := 0x13) ?_
    split
    · exact outcome_complete s none
    · rename_i hd
      refine ⟨_, rfl, ⟨rfl, rfl, rfl, rfl, rfl, rfl, rfl, rfl, rfl, rfl, rfl, rfl, rfl, rfl⟩,
        ⟨fun h => ⟨⟨fun hx => ?_, fun hx => ?_⟩, fun hx => ?_, h.2.2.1, fun _ => Or.inr (Or.inl rfl), h.2.2.2.2⟩,
          Or.inl rfl, fun h => absurd h hd⟩⟩
      · rcases hx with hx | hx | hx <;> exact absurd hx (by simp [State.answer])
      · rcases hx with hx | hx <;> exact absurd hx (by simp [State.answer])
      · rcases hx with hx | hx <;> exact absurd hx (by simp [State.answer])
  case disableSound =>
    refine outcome_guarded (id := 0x14) ?_
    refine ⟨_, rfl, ⟨rfl, rfl, rfl, rfl, rfl, rfl, rfl, rfl, rfl, rfl, rfl, rfl, rfl, rfl⟩,
      ⟨fun h => ⟨⟨fun hx => ?_, fun _ => rfl⟩, fun hx => ?_, h.2.2.1, fun hx => ?_, h.2.2.2.2⟩, Or.inl rfl, fun _ => rfl⟩⟩
    · rcases hx with hx | hx | hx <;> exact absurd hx (by simp [State.answer])
    · rcases hx with hx | hx <;> exact absurd hx (by simp [State.answer])
    · exact absurd hx (by simp [State.answer])
  case getPlayedNote => exact outcome_guarded (outcome_complete s _)
  case frameSync =>
    refine outcome_guarded (id := 0x16) ?_
    exact ⟨_, rfl, ⟨rfl, rfl, rfl, rfl, rfl, rfl, rfl, rfl, rfl, rfl, rfl, rfl, rfl, rfl⟩,
      CommandSound.of_eq rfl rfl (Or.inl rfl)⟩
  case getLoadSample =>
    refine outcome_guarded (id := 0x17) ?_
    refine ⟨_, rfl, ?_, CommandSound.of_eq ?_ ?_ (Or.inl ?_)⟩
    · constructor <;> simp
    · simp
    · simp
    · simp
  case fillRect x y w h c => exact outcome_guarded (outcome_routine s _)
  case fillRectS x y w h c => exact outcome_guarded (outcome_routine s _)
  case scroll d => exact outcome_guarded (outcome_routine s _)
  case fadePixels => exact outcome_guarded (outcome_routine s _)
  case frameSyncShowLoad => exact outcome_guarded (outcome_routine s _)
  case badCommand id => exact outcome_guarded (outcome_raise s _)

/-! ### SETUP -/

/-- The divisors and their fields, case by case (10 R26). -/
theorem frameDivLog2Of_eq (div : Int) : frameDivLog2Of div =
    if div = 1 then some 0 else if div = 2 then some 1 else if div = 4 then some 2 else if div = 8 then some 3
    else none := by
  simp only [frameDivLog2Of, Config.divisors, List.idxOf?_cons, List.idxOf?_nil, beq_iff_eq, eq_comm (b := div)]
  repeat' split
  all_goals rfl

theorem frameDivLog2Of_some {div : Int} {l : BitVec 2} (h : frameDivLog2Of div = some l) :
    (frameDivOf l).toNat = div := by
  rw [frameDivLog2Of_eq] at h
  split at h
  · obtain rfl := Option.some.inj h; subst_vars; decide
  · split at h
    · obtain rfl := Option.some.inj h; subst_vars; decide
    · split at h
      · obtain rfl := Option.some.inj h; subst_vars; decide
      · split at h
        · obtain rfl := Option.some.inj h; subst_vars; decide
        · cases h

/-- RESET as one update (70 R280). -/
theorem resetWith_eq (s : State) (l : BitVec 2) : s.resetWith l =
    { s with
      drive := { row := 0, level := 0, nextPat := 0, divc := frameDivOf l }
      ctl := { frameDivLog2 := l, configured := true }
      store := { front := blackPicture, back := blackPicture, auxFront := 0, auxActive := 0 }
      frame := { count := 0, signal := 0, lastTs := s.clockNow, sweepDur := 0, meas := .noBoundary }
      btn := { cur := 0, prev := 0 }
      snd :=
        { state := .idle, cursor := 0, cursorValid := false, note := 0, dur := 0, thr := 0, subtick := 0,
          tempo := 60, fadeDir := .off, fadeSpeed := 0 }
      out :=
        { rowEn := 0, colOut := 0, toneOn := false, tonePeriod := 0
          events := s.out.events ++ [.rowEn 0, .colOut 0, .toneOn false, .tonePeriod 0] }
      host := { s.host with wait := none }
      inp := s.clockTaken.inp
      draws := s.clockTaken.draws } := by
  rcases h : s.inp.clock with _ | ⟨v, vs⟩ <;>
    simp [State.resetWith, State.outRowEn, State.outColOut, State.outToneOn, State.outTonePeriod, State.clockTaken,
      Config.tempoDefault, h]

theorem blackPicture_pattern : ∀ (y : Fin 8) (t : Level), pattern blackPicture y t = 0 := by decide +kernel

/-- SETUP leaves the invariants of a configured block. -/
theorem resetWith_inv (s : State) (l : BitVec 2) : (s.resetWith l).pipeline ∧ (s.resetWith l).soundOk ∧
    (s.resetWith l).divcOk ∧ (s.resetWith l).btn.clean ∧ (s.resetWith l).rowEnOk := by
  rw [resetWith_eq]
  refine ⟨(blackPicture_pattern _ _).symm, ⟨⟨fun h => ?_, fun _ => rfl⟩, fun h => ?_, ⟨9, rfl⟩, fun h => ?_, ?_⟩,
    ⟨?_, Nat.le_refl _⟩, ⟨?_, ?_⟩, Or.inl rfl⟩
  · rcases h with h | h | h <;> cases h
  · rcases h with h | h <;> cases h
  · cases h
  · exact Nat.zero_le _
  · revert l; exact fun l => (show ∀ l : BitVec 2, 1 ≤ (frameDivOf l).toNat by decide) l
  · show (0 : Byte).toNat < 64
    decide
  · show (0 : Byte).toNat < 64
    decide

/-- What SETUP answers (43 R200). -/
theorem exec_setup (div : Int) (s : State) :
    (∃ l, frameDivLog2Of div = some l ∧ exec (.setup div) s = .next ((s.resetWith l).answer none)) ∨
    (frameDivLog2Of div = none ∧ exec (.setup div) s = .next (s.raise (.badDivisor div))) := by
  show (∃ l, _ ∧ execSetup div s = _) ∨ (_ ∧ execSetup div s = _)
  unfold execSetup
  rcases h : frameDivLog2Of div with _ | l
  · exact Or.inr ⟨rfl, rfl⟩
  · exact Or.inl ⟨l, rfl, rfl⟩

/-! ### Token memory under a command -/

/-- What a command can do to token memory and to which stream is live (43 R220 to R222, 70 R283, R285): PLAY_SOUND may begin a
duty toward its stream; every other command touches neither, but for making no stream live. -/
def TokenOutcome (i : Instr) (s : State) (o : Answer) : Prop := ∃ t, o = .next t ∧
  ((t.tmem = s.tmem ∧ (t.snd.state.live = true → s.snd.state.live = true ∧ t.snd.cursor = s.snd.cursor)) ∨
    ∃ a, i = .playSound a ∧ t.tmem = (s.beginDuty a).tmem ∧ t.snd.cursor = a.setWidth 17)

theorem tokens_same {i : Instr} {s t : State} (h : t.tmem = s.tmem) (h' : t.snd = s.snd) : TokenOutcome i s (.next t) := by
  exact ⟨t, rfl, Or.inl ⟨h, fun hl => ⟨by rwa [h'] at hl, by rw [h']⟩⟩⟩

theorem tokens_guarded {i : Instr} {id : Byte} {s : State} {k : Answer} (h : TokenOutcome i s k) :
    TokenOutcome i s (ifConfigured id s k) := by
  unfold ifConfigured
  split
  · exact h
  · exact tokens_same rfl rfl

theorem exec_tokens (i : Instr) (hi : i.language = .command) (s : State) : TokenOutcome i s (exec i s) := by
  cases i <;> first
    | (exfalso; revert hi; simp [Instr.language]; done)
    | skip
  case setup div =>
    rcases exec_setup div s with ⟨l, -, e⟩ | ⟨-, e⟩ <;> rw [e]
    · rw [resetWith_eq]
      exact ⟨_, rfl, Or.inl ⟨rfl, fun h => absurd h (by simp [State.answer, SndState.live])⟩⟩
    · exact tokens_same rfl rfl
  case playSound a =>
    refine tokens_guarded (id := 0x12) ?_
    split
    · exact tokens_same rfl rfl
    · exact ⟨_, rfl, Or.inr ⟨a, rfl, rfl, rfl⟩⟩
  case stopSound =>
    refine tokens_guarded (id := 0x13) ?_
    split
    · exact tokens_same rfl rfl
    · exact ⟨_, rfl, Or.inl ⟨rfl, fun h => absurd h (by simp [State.answer, SndState.live])⟩⟩
  case disableSound =>
    refine tokens_guarded (id := 0x14) ?_
    exact ⟨_, rfl, Or.inl ⟨rfl, fun h => absurd h (by simp [State.answer, SndState.live])⟩⟩
  case getLoadSample =>
    refine tokens_guarded (id := 0x17) (tokens_same ?_ ?_) <;> simp
  case clear => exact tokens_guarded (tokens_same rfl rfl)
  case clearPixels => exact tokens_guarded (tokens_same rfl rfl)
  case badCommand id => exact tokens_guarded (tokens_same rfl rfl)
  case frameSync => exact tokens_guarded (id := 0x16) (tokens_same rfl rfl)
  case setAux m => exact tokens_guarded (tokens_same rfl rfl)
  case getAux => exact tokens_guarded (tokens_same rfl rfl)
  case getButtonsCur => exact tokens_guarded (tokens_same rfl rfl)
  case getButtonsLast => exact tokens_guarded (tokens_same rfl rfl)
  case getPlayedNote => exact tokens_guarded (tokens_same rfl rfl)
  case fillRect x y w h c => exact tokens_guarded (tokens_same rfl rfl)
  case fillRectS x y w h c => exact tokens_guarded (tokens_same rfl rfl)
  case scroll d => exact tokens_guarded (tokens_same rfl rfl)
  case fadePixels => exact tokens_guarded (tokens_same rfl rfl)
  case frameSyncShowLoad => exact tokens_guarded (tokens_same rfl rfl)
  case buttonPressed k => refine tokens_guarded (id := 0x0F) ?_; unfold buttonQuery; split <;> exact tokens_same rfl rfl
  case buttonDown k => refine tokens_guarded (id := 0x10) ?_; unfold buttonQuery; split <;> exact tokens_same rfl rfl
  case buttonReleased k => refine tokens_guarded (id := 0x11) ?_; unfold buttonQuery; split <;> exact tokens_same rfl rfl
  case setPixel x y c => refine tokens_guarded (id := 0x04) ?_; split <;> exact tokens_same rfl rfl
  case setPixelS x y c => refine tokens_guarded (id := 0x05) ?_; split <;> exact tokens_same rfl rfl
  case getPixel x y => refine tokens_guarded (id := 0x06) ?_; split <;> exact tokens_same rfl rfl
  case getPixelS x y => refine tokens_guarded (id := 0x07) ?_; split <;> exact tokens_same rfl rfl
  case auxEnable k => refine tokens_guarded (id := 0x0A) ?_; split <;> exact tokens_same rfl rfl
  case auxDisable k => refine tokens_guarded (id := 0x0B) ?_; split <;> exact tokens_same rfl rfl
  case auxIsEnabled k => refine tokens_guarded (id := 0x0C) ?_; split <;> exact tokens_same rfl rfl

/-! ### Frames of commands are commands -/

theorem decodeCommand_language {id : Byte} {ops : List Byte} {i : Instr} (h : decodeCommand id ops = .ok i) :
    i.language = .command := by
  unfold decodeCommand at h
  split at h <;>
    first
    | (obtain rfl := Except.ok.inj h; rfl)
    | (unfold frameInt at h; split at h <;> first | (obtain rfl := Except.ok.inj h; rfl) | cases h)
    | (unfold frame0 at h; split at h <;> first | (obtain rfl := Except.ok.inj h; rfl) | cases h)
    | (unfold frame1 at h; split at h <;> first | (obtain rfl := Except.ok.inj h; rfl) | cases h)
    | (unfold frame2 at h; split at h <;> first | (obtain rfl := Except.ok.inj h; rfl) | cases h)
    | (unfold frame4 at h; split at h <;> first | (obtain rfl := Except.ok.inj h; rfl) | cases h)
    | (unfold frame6 at h; split at h <;> first | (obtain rfl := Except.ok.inj h; rfl) | cases h)

theorem decode_command_language {frame : List Byte} {i : Instr} (h : decode .command frame = .ok i) :
    i.language = .command := by
  cases frame with
  | nil => cases h
  | cons id ops => exact decodeCommand_language h

/-! ### The host step -/

/-- Every primitive of a routine is a command other than SETUP. -/
theorem primitive_command {r : Routine} {i : Instr} (h : r.primitive = some i) :
    i.language = .command ∧ ∀ d, i ≠ .setup d := by
  unfold Routine.primitive at h
  split at h
  · split at h <;> (obtain rfl := Option.some.inj h; exact ⟨rfl, fun _ => by simp⟩)
  · split at h
    · obtain rfl := Option.some.inj h; exact ⟨rfl, fun _ => by simp⟩
    · cases h
  all_goals first
    | cases h; done
    | (obtain rfl := Option.some.inj h; exact ⟨rfl, fun _ => by simp⟩)

/-- The cases of a host step that answers a next state. -/
theorem hostStep_cases {s t : State} (h : hostStep s = .next t) :
    t = s ∨
    (∃ s0, s.host.wait = some s0 ∧ s.frame.signal ≠ s0 ∧
      t = { s with host := { s.host with wait := none, result := some (.frames s.frame.count) } }) ∨
    (∃ r i u, s.host.wait = none ∧ s.host.routine = some r ∧ r.primitive = some i ∧ exec i s = .next u ∧
      t = { u with host := { u.host with routine := r.after u.host.result } }) ∨
    (∃ r, s.host.wait = none ∧ s.host.routine = some r ∧ r.primitive = none ∧
      t = { s with host := { s.host with routine := none } }) ∨
    (∃ frame rest i, s.host.wait = none ∧ s.host.routine = none ∧ s.host.prog = .command frame :: rest ∧
      decode .command frame = .ok i ∧ exec i (s.popAct rest) = .next t) ∨
    (∃ a b rest, s.host.wait = none ∧ s.host.routine = none ∧ s.host.prog = .writeToken a b :: rest ∧
      (s.popAct rest).writeToken a b = .next t) := by
  unfold hostStep at h
  split at h
  · rename_i s0 hw
    split at h
    · exact Or.inl (Host.Outcome.next.inj h).symm
    · rename_i hne
      exact Or.inr (Or.inl ⟨s0, hw, hne, (Host.Outcome.next.inj h).symm⟩)
  · rename_i hw
    split at h
    · rename_i r hr
      unfold routineStep at h
      split at h
      · rename_i i hi
        unfold routineAfter at h
        split at h
        · rename_i u hu
          exact Or.inr (Or.inr (Or.inl ⟨r, i, u, hw, hr, hi, hu, (Host.Outcome.next.inj h).symm⟩))
        · cases h
        · cases h
      · rename_i hi
        exact Or.inr (Or.inr (Or.inr (Or.inl ⟨r, hw, hr, hi, (Host.Outcome.next.inj h).symm⟩)))
    · rename_i hr
      unfold programStep at h
      split at h
      · exact Or.inl (Host.Outcome.next.inj h).symm
      · rename_i frame rest hp
        unfold commandStep at h
        split at h
        · rename_i i hi
          exact Or.inr (Or.inr (Or.inr (Or.inr (Or.inl ⟨frame, rest, i, hw, hr, hp, hi, h⟩))))
        · cases h
      · rename_i a b rest hp
        exact Or.inr (Or.inr (Or.inr (Or.inr (Or.inr ⟨a, b, rest, hw, hr, hp, h⟩))))

/-- What no host step touches, but for one that issues SETUP (60 R268). -/
structure HostFrame (s t : State) : Prop where
  drive : t.drive = s.drive
  ctl : t.ctl = s.ctl
  back : t.store.back = s.store.back
  auxActive : t.store.auxActive = s.store.auxActive
  frame : t.frame = s.frame
  btn : t.btn = s.btn
  par : t.par = s.par
  sched : t.sched = s.sched
  rowEn : t.out.rowEn = s.out.rowEn
  colOut : t.out.colOut = s.out.colOut
  tonePeriod : t.out.tonePeriod = s.out.tonePeriod

theorem CommandFrame.host {s t : State} (h : CommandFrame s t) : HostFrame s t :=
  ⟨h.drive, h.ctl, h.back, h.auxActive, h.frame, h.btn, h.par, h.sched, h.rowEn, h.colOut, h.tonePeriod⟩

/-- A host step either issues SETUP, or stays within the host's frame and keeps the sound invariants. -/
theorem hostStep_frame {s t : State} (h : hostStep s = .next t) :
    (∃ rest div, s.host.wait = none ∧ s.host.routine = none ∧ s.setupNext ∧ exec (.setup div) (s.popAct rest) = .next t) ∨
      (HostFrame s t ∧ CommandSound s t) := by
  rcases hostStep_cases h with rfl | ⟨s0, -, -, rfl⟩ | ⟨r, i, u, -, -, hp, hu, rfl⟩ | ⟨r, -, -, -, rfl⟩ |
    ⟨frame, rest, i, hw, hr, hp, hd, he⟩ | ⟨a, b, rest, -, -, -, he⟩
  · exact Or.inr ⟨(CommandFrame.refl _).host, CommandSound.of_eq rfl rfl (Or.inl rfl)⟩
  · exact Or.inr ⟨⟨rfl, rfl, rfl, rfl, rfl, rfl, rfl, rfl, rfl, rfl, rfl⟩, CommandSound.of_eq rfl rfl (Or.inl rfl)⟩
  · obtain ⟨hc, hn⟩ := primitive_command hp
    obtain ⟨u', hu', hf, hs⟩ := exec_command i hc hn s
    obtain rfl := Host.Outcome.next.inj (hu'.symm.trans hu)
    exact Or.inr ⟨⟨hf.drive, hf.ctl, hf.back, hf.auxActive, hf.frame, hf.btn, hf.par, hf.sched, hf.rowEn, hf.colOut,
      hf.tonePeriod⟩, ⟨hs.sound, hs.faults, hs.disabled⟩⟩
  · exact Or.inr ⟨⟨rfl, rfl, rfl, rfl, rfl, rfl, rfl, rfl, rfl, rfl, rfl⟩, CommandSound.of_eq rfl rfl (Or.inl rfl)⟩
  · by_cases hset : ∃ div, i = .setup div
    · obtain ⟨div, rfl⟩ := hset
      exact Or.inl ⟨rest, div, hw, hr, ⟨frame, rest, div, hp, hd⟩, he⟩
    · obtain ⟨t', ht', hf, hs⟩ :=
        exec_command i (decode_command_language hd) (fun d hd' => hset ⟨d, hd'⟩) (s.popAct rest)
      obtain rfl := Host.Outcome.next.inj (ht'.symm.trans he)
      exact Or.inr ⟨⟨hf.drive, hf.ctl, hf.back, hf.auxActive, hf.frame, hf.btn, hf.par, hf.sched, hf.rowEn, hf.colOut,
        hf.tonePeriod⟩, ⟨hs.sound, hs.faults, hs.disabled⟩⟩
  · obtain ⟨-, rfl⟩ := State.writeToken_next he
    exact Or.inr ⟨⟨rfl, rfl, rfl, rfl, rfl, rfl, rfl, rfl, rfl, rfl, rfl⟩, CommandSound.of_eq rfl rfl (Or.inl rfl)⟩

end Sys2Proof.Machine
end

