-- ==== Sys2Proof/Laws/PerInstr.lean ====
section
/-!
SUPPORT. Statements made per instruction: decoding an encoded well-formed instruction, in its own language, gives it back.
-/

namespace Sys2Proof.Laws

/-- The round trip of one instruction (spec/30_encoding.md R81, R82, R89). -/
def RoundTrip.Statement (i : Instr) : Prop := i.wellFormed = true → decode i.language (encode i) = .ok i

theorem RoundTrip.endTok : RoundTrip.Statement .endTok := by
  intro _; rfl

theorem RoundTrip.play (d : BitVec 3) : RoundTrip.Statement (.play d) := by
  revert d; unfold RoundTrip.Statement
  have key : ∀ d : BitVec 3, (Instr.play d).wellFormed = true → decodeToken ((encode (.play d)).headD 0) = .play d := by
    decide +kernel
  intro d h
  exact congrArg Except.ok (key d h)

theorem RoundTrip.playr (d : BitVec 3) : RoundTrip.Statement (.playr d) := by
  revert d; unfold RoundTrip.Statement
  have key : ∀ d : BitVec 3, (Instr.playr d).wellFormed = true → decodeToken ((encode (.playr d)).headD 0) = .playr d := by
    decide +kernel
  intro d h
  exact congrArg Except.ok (key d h)

theorem RoundTrip.plays (d : BitVec 3) : RoundTrip.Statement (.plays d) := by
  revert d; unfold RoundTrip.Statement
  have key : ∀ d : BitVec 3, (Instr.plays d).wellFormed = true → decodeToken ((encode (.plays d)).headD 0) = .plays d := by
    decide +kernel
  intro d h
  exact congrArg Except.ok (key d h)

theorem RoundTrip.pause (d : BitVec 3) : RoundTrip.Statement (.pause d) := by
  revert d; unfold RoundTrip.Statement
  have key : ∀ d : BitVec 3, (Instr.pause d).wellFormed = true → decodeToken ((encode (.pause d)).headD 0) = .pause d := by
    decide +kernel
  intro d h
  exact congrArg Except.ok (key d h)

theorem RoundTrip.tempo (k : BitVec 4) : RoundTrip.Statement (.tempo k) := by
  revert k; unfold RoundTrip.Statement
  have key : ∀ k : BitVec 4, (Instr.tempo k).wellFormed = true → decodeToken ((encode (.tempo k)).headD 0) = .tempo k := by
    decide +kernel
  intro k h
  exact congrArg Except.ok (key k h)

theorem RoundTrip.fadeoff : RoundTrip.Statement .fadeoff := by
  intro _; rfl

theorem RoundTrip.fadeup (v : BitVec 3) : RoundTrip.Statement (.fadeup v) := by
  revert v; unfold RoundTrip.Statement
  have key : ∀ v : BitVec 3, (Instr.fadeup v).wellFormed = true → decodeToken ((encode (.fadeup v)).headD 0) = .fadeup v := by
    decide +kernel
  intro v h
  exact congrArg Except.ok (key v h)

theorem RoundTrip.fadedn (v : BitVec 3) : RoundTrip.Statement (.fadedn v) := by
  revert v; unfold RoundTrip.Statement
  have key : ∀ v : BitVec 3, (Instr.fadedn v).wellFormed = true → decodeToken ((encode (.fadedn v)).headD 0) = .fadedn v := by
    decide +kernel
  intro v h
  exact congrArg Except.ok (key v h)

theorem RoundTrip.note (n : BitVec 7) : RoundTrip.Statement (.note n) := by
  revert n; unfold RoundTrip.Statement
  have key : ∀ n : BitVec 7, (Instr.note n).wellFormed = true → decodeToken ((encode (.note n)).headD 0) = .note n := by
    decide +kernel
  intro n h
  exact congrArg Except.ok (key n h)

theorem RoundTrip.unrecognized (b : Byte) : RoundTrip.Statement (.unrecognized b) := by
  revert b; unfold RoundTrip.Statement
  have key : ∀ b : Byte, (Instr.unrecognized b).wellFormed = true → decodeToken ((encode (.unrecognized b)).headD 0) = .unrecognized b := by
    decide +kernel
  intro b h
  exact congrArg Except.ok (key b h)

theorem RoundTrip.setup (div : Int) : RoundTrip.Statement (.setup div) := by
  intro _
  exact congrArg (fun v => Except.ok (Instr.setup v)) (intOf_intBytes div)

theorem RoundTrip.clear : RoundTrip.Statement .clear := by
  intro _; rfl

theorem RoundTrip.clearPixels : RoundTrip.Statement .clearPixels := by
  intro _; rfl

theorem RoundTrip.setPixel (x y : Int) (c : Colour) : RoundTrip.Statement (.setPixel x y c) := by
  intro h
  simp only [Instr.wellFormed, Bool.and_eq_true] at h
  have e : decode .command (encode (.setPixel x y c)) = .ok (.setPixel (int8Of (byteOf x)) (int8Of (byteOf y)) (colourOf ((c.setWidth 16).extractLsb' 0 8) ((c.setWidth 16).extractLsb' 8 8))) := rfl
  rw [int8Of_byteOf x h.1, int8Of_byteOf y h.2, colourOf_bytes] at e
  exact e

theorem RoundTrip.setPixelS (x y : Int) (c : Colour) : RoundTrip.Statement (.setPixelS x y c) := by
  intro h
  simp only [Instr.wellFormed, Bool.and_eq_true] at h
  have e : decode .command (encode (.setPixelS x y c)) = .ok (.setPixelS (int8Of (byteOf x)) (int8Of (byteOf y)) (colourOf ((c.setWidth 16).extractLsb' 0 8) ((c.setWidth 16).extractLsb' 8 8))) := rfl
  rw [int8Of_byteOf x h.1, int8Of_byteOf y h.2, colourOf_bytes] at e
  exact e

theorem RoundTrip.getPixel (x y : Int) : RoundTrip.Statement (.getPixel x y) := by
  intro h
  simp only [Instr.wellFormed, Bool.and_eq_true] at h
  have e : decode .command (encode (.getPixel x y)) = .ok (.getPixel (int8Of (byteOf x)) (int8Of (byteOf y))) := rfl
  rw [int8Of_byteOf x h.1, int8Of_byteOf y h.2] at e
  exact e

theorem RoundTrip.getPixelS (x y : Int) : RoundTrip.Statement (.getPixelS x y) := by
  intro h
  simp only [Instr.wellFormed, Bool.and_eq_true] at h
  have e : decode .command (encode (.getPixelS x y)) = .ok (.getPixelS (int8Of (byteOf x)) (int8Of (byteOf y))) := rfl
  rw [int8Of_byteOf x h.1, int8Of_byteOf y h.2] at e
  exact e

theorem RoundTrip.setAux (mask : Byte) : RoundTrip.Statement (.setAux mask) := by
  intro _; rfl

theorem RoundTrip.getAux : RoundTrip.Statement .getAux := by
  intro _; rfl

theorem RoundTrip.auxEnable (k : Int) : RoundTrip.Statement (.auxEnable k) := by
  intro h
  exact congrArg (fun v => Except.ok (Instr.auxEnable v)) (int8Of_byteOf k h)

theorem RoundTrip.auxDisable (k : Int) : RoundTrip.Statement (.auxDisable k) := by
  intro h
  exact congrArg (fun v => Except.ok (Instr.auxDisable v)) (int8Of_byteOf k h)

theorem RoundTrip.auxIsEnabled (k : Int) : RoundTrip.Statement (.auxIsEnabled k) := by
  intro h
  exact congrArg (fun v => Except.ok (Instr.auxIsEnabled v)) (int8Of_byteOf k h)

theorem RoundTrip.getButtonsCur : RoundTrip.Statement .getButtonsCur := by
  intro _; rfl

theorem RoundTrip.getButtonsLast : RoundTrip.Statement .getButtonsLast := by
  intro _; rfl

theorem RoundTrip.buttonPressed (k : Int) : RoundTrip.Statement (.buttonPressed k) := by
  intro h
  exact congrArg (fun v => Except.ok (Instr.buttonPressed v)) (int8Of_byteOf k h)

theorem RoundTrip.buttonDown (k : Int) : RoundTrip.Statement (.buttonDown k) := by
  intro h
  exact congrArg (fun v => Except.ok (Instr.buttonDown v)) (int8Of_byteOf k h)

theorem RoundTrip.buttonReleased (k : Int) : RoundTrip.Statement (.buttonReleased k) := by
  intro h
  exact congrArg (fun v => Except.ok (Instr.buttonReleased v)) (int8Of_byteOf k h)

theorem RoundTrip.playSound (a : BitVec 16) : RoundTrip.Statement (.playSound a) := by
  intro _
  exact congrArg (fun v => Except.ok (Instr.playSound v)) (half_bytes a)

theorem RoundTrip.stopSound : RoundTrip.Statement .stopSound := by
  intro _; rfl

theorem RoundTrip.disableSound : RoundTrip.Statement .disableSound := by
  intro _; rfl

theorem RoundTrip.getPlayedNote : RoundTrip.Statement .getPlayedNote := by
  intro _; rfl

theorem RoundTrip.frameSync : RoundTrip.Statement .frameSync := by
  intro _; rfl

theorem RoundTrip.getLoadSample : RoundTrip.Statement .getLoadSample := by
  intro _; rfl

theorem RoundTrip.fillRect (x y w ht : Int) (c : Colour) : RoundTrip.Statement (.fillRect x y w ht c) := by
  intro h
  simp only [Instr.wellFormed, Bool.and_eq_true] at h
  have e : decode .command (encode (.fillRect x y w ht c)) = .ok (.fillRect (int8Of (byteOf x)) (int8Of (byteOf y)) (int8Of (byteOf w)) (int8Of (byteOf ht)) (colourOf ((c.setWidth 16).extractLsb' 0 8) ((c.setWidth 16).extractLsb' 8 8))) := rfl
  rw [int8Of_byteOf x h.1.1.1, int8Of_byteOf y h.1.1.2, int8Of_byteOf w h.1.2, int8Of_byteOf ht h.2, colourOf_bytes] at e
  exact e

theorem RoundTrip.fillRectS (x y w ht : Int) (c : Colour) : RoundTrip.Statement (.fillRectS x y w ht c) := by
  intro h
  simp only [Instr.wellFormed, Bool.and_eq_true] at h
  have e : decode .command (encode (.fillRectS x y w ht c)) = .ok (.fillRectS (int8Of (byteOf x)) (int8Of (byteOf y)) (int8Of (byteOf w)) (int8Of (byteOf ht)) (colourOf ((c.setWidth 16).extractLsb' 0 8) ((c.setWidth 16).extractLsb' 8 8))) := rfl
  rw [int8Of_byteOf x h.1.1.1, int8Of_byteOf y h.1.1.2, int8Of_byteOf w h.1.2, int8Of_byteOf ht h.2, colourOf_bytes] at e
  exact e

theorem RoundTrip.scroll (dir : Dir) : RoundTrip.Statement (.scroll dir) := by
  intro _
  exact congrArg (fun v => Except.ok (Instr.scroll v)) (dirOf_code dir)

theorem RoundTrip.fadePixels : RoundTrip.Statement .fadePixels := by
  intro _; rfl

theorem RoundTrip.frameSyncShowLoad : RoundTrip.Statement .frameSyncShowLoad := by
  intro _; rfl

theorem RoundTrip.badCommand (id : Byte) : RoundTrip.Statement (.badCommand id) := by
  intro h
  exact decodeCommand_unlisted id [] (by simpa [Instr.wellFormed] using h)

end Sys2Proof.Laws
end

