-- ==== Sys2Proof/Laws/Pixels.lean ====
section
/-!
SUPPORT. The small lemmas of pictures, lanes, colours and integer operands (spec/10_state.md R28, spec/40_multiplexer.md
R106, spec/43_host_interface.md R203 to R218), so that no proof unfolds them.
-/

namespace Sys2Proof.Machine

/-! ### Lanes -/

theorem byteOfLanes_getLsbD (f : Fin 8 → Bool) (x : Fin 8) : (byteOfLanes f).getLsbD x.val = f x := by
  have key : ∀ (a0 a1 a2 a3 a4 a5 a6 a7 : Bool) (x : Fin 8),
      (BitVec.ofBool a7 ++ BitVec.ofBool a6 ++ BitVec.ofBool a5 ++ BitVec.ofBool a4 ++ BitVec.ofBool a3 ++
        BitVec.ofBool a2 ++ BitVec.ofBool a1 ++ BitVec.ofBool a0 : BitVec 8).getLsbD x.val =
      #v[a0, a1, a2, a3, a4, a5, a6, a7][x.val] := by decide +kernel
  have h := key (f 0) (f 1) (f 2) (f 3) (f 4) (f 5) (f 6) (f 7) x
  unfold byteOfLanes
  rw [h]
  fin_cases x <;> rfl

theorem byteOfLanes_false : byteOfLanes (fun _ => false) = 0 := by decide

/-- The three bytes of a 24-bit pattern, bit by bit. -/
theorem triple_getLsbD (r g b : Byte) (k : Nat) (hk : k < 8) :
    (r ++ g ++ b : BitVec 24).getLsbD (16 + k) = r.getLsbD k ∧
    (r ++ g ++ b : BitVec 24).getLsbD (8 + k) = g.getLsbD k ∧
    (r ++ g ++ b : BitVec 24).getLsbD k = b.getLsbD k := by
  refine ⟨?_, ?_, ?_⟩
  · show ((r ++ g) ++ b).getLsbD (16 + k) = _
    rw [BitVec.getLsbD_append, BitVec.getLsbD_append]
    simp [show ¬ 16 + k < 8 by omega, show ¬ 16 + k - 8 < 8 by omega, show 16 + k - 8 - 8 = k by omega]
  · show ((r ++ g) ++ b).getLsbD (8 + k) = _
    rw [BitVec.getLsbD_append, BitVec.getLsbD_append]
    simp [show ¬ 8 + k < 8 by omega, hk]
  · show ((r ++ g) ++ b).getLsbD k = _
    rw [BitVec.getLsbD_append]
    simp [hk]

/-! ### Colours -/

/-- The three channels of a word as numbers. -/
theorem channels_toNat (c : Colour) :
    (red c).toNat = c.toNat / 256 ∧ (green c).toNat = c.toNat / 16 % 16 ∧ (blue c).toNat = c.toNat % 16 := by
  have := c.isLt
  refine ⟨?_, ?_, ?_⟩ <;> simp [red, green, blue, BitVec.extractLsb'_toNat, Nat.shiftRight_eq_div_pow]
  omega

/-! ### Pictures -/

@[simp] theorem cellOf_xy (k : Cell) : cellOf (Cell.x k) (Cell.y k) = k := by
  apply Fin.ext
  simp only [cellOf, Cell.x, Cell.y]
  omega

theorem cellOf_inj {a b x y : Fin 8} : cellOf a b = cellOf x y ↔ a = x ∧ b = y := by
  constructor
  · intro h
    have h := congrArg Fin.val h
    simp only [cellOf] at h
    constructor <;> apply Fin.ext <;> omega
  · rintro ⟨rfl, rfl⟩; rfl

/-- A write of one cell, read back cell by cell. -/
theorem Picture.cell_withPixel (p : Picture) (x y : Fin 8) (c : Colour) (k : Cell) :
    Picture.cell (Picture.withPixel p x y c) k = if k = cellOf x y then c else Picture.cell p k := by
  simp only [Picture.cell, Picture.withPixel]
  rw [Vector.getElem_set]
  simp only [Fin.ext_iff, eq_comm]

/-- A write of one pixel, read back pixel by pixel. -/
theorem Picture.pixel_withPixel (p : Picture) (x y : Fin 8) (c : Colour) (a b : Fin 8) :
    Picture.pixel (Picture.withPixel p x y c) a b = if a = x ∧ b = y then c else Picture.pixel p a b := by
  simp only [Picture.pixel, Picture.cell_withPixel, cellOf_inj]

/-! ### Integer operands -/

theorem indexBelow_in {n : Nat} (k : Fin n) : indexBelow n k.val = some k := by
  have := k.isLt
  unfold indexBelow
  rw [dif_pos (by omega)]
  rfl

theorem indexBelow_out {n : Nat} {k : Int} (h : ¬ (0 ≤ k ∧ k < n)) : indexBelow n k = none := by
  unfold indexBelow
  rw [dif_neg h]

theorem inMatrix_in (x y : Fin 8) : inMatrix x.val y.val = some (x, y) := by
  unfold inMatrix
  rw [indexBelow_in, indexBelow_in]

@[simp] theorem inMatrix_coord (x y : Fin 8) : inMatrix (coord x) (coord y) = some (x, y) := inMatrix_in x y

theorem inMatrix_out {x y : Int} (h : ¬ (0 ≤ x ∧ x < 8 ∧ 0 ≤ y ∧ y < 8)) : inMatrix x y = none := by
  unfold inMatrix
  by_cases hx : 0 ≤ x ∧ x < 8
  · have hy : ¬ (0 ≤ y ∧ y < 8) := fun hy => h ⟨hx.1, hx.2, hy.1, hy.2⟩
    rw [indexBelow_out (n := 8) (k := y) hy]
    split <;> simp_all
  · rw [indexBelow_out (n := 8) (k := x) hx]

/-- An integer pair in range is a pixel. -/
theorem inMatrix_some {x y : Int} {p : Fin 8 × Fin 8} (h : inMatrix x y = some p) :
    x = p.1.val ∧ y = p.2.val := by
  by_cases hr : 0 ≤ x ∧ x < 8 ∧ 0 ≤ y ∧ y < 8
  · have hx : x.toNat < 8 := by omega
    have hy : y.toNat < 8 := by omega
    have e : inMatrix x y = some (⟨x.toNat, hx⟩, ⟨y.toNat, hy⟩) := by
      have := inMatrix_in ⟨x.toNat, hx⟩ ⟨y.toNat, hy⟩
      rwa [show ((⟨x.toNat, hx⟩ : Fin 8).val : Int) = x by simp; omega,
        show ((⟨y.toNat, hy⟩ : Fin 8).val : Int) = y by simp; omega] at this
    rw [e] at h
    obtain rfl := Option.some.inj h
    simp
    omega
  · rw [inMatrix_out hr] at h
    cases h

/-! ### Raising -/

theorem raise_nil {s : State} (h : s.faults = []) (f : ModelFault) : s.raise f = { s with faults := [f] } := by
  simp [State.raise, h]

end Sys2Proof.Machine
end

