-- ==== Sys2Proof/Laws/Tokens.lean ====
section
/-!
SUPPORT. What a token can do, said once: it answers a next state, touches only the sound state and the tone outputs, and
leaves the cursor where the fetch put it (spec/42_sound_sequencer.md R180 to R192).
-/

namespace Sys2Proof.Machine

/-- What no token and no scan touches. -/
structure SoundFrame (s t : State) : Prop where
  drive : t.drive = s.drive
  ctl : t.ctl = s.ctl
  store : t.store = s.store
  frame : t.frame = s.frame
  btn : t.btn = s.btn
  inp : t.inp = s.inp
  host : t.host = s.host
  tmem : t.tmem = s.tmem
  par : t.par = s.par
  sched : t.sched = s.sched
  rowEn : t.out.rowEn = s.out.rowEn
  colOut : t.out.colOut = s.out.colOut

theorem SoundFrame.refl (s : State) : SoundFrame s s := ⟨rfl, rfl, rfl, rfl, rfl, rfl, rfl, rfl, rfl, rfl, rfl, rfl⟩

theorem SoundFrame.trans {s t u : State} (h : SoundFrame s t) (h' : SoundFrame t u) : SoundFrame s u :=
  ⟨h'.drive.trans h.drive, h'.ctl.trans h.ctl, h'.store.trans h.store, h'.frame.trans h.frame, h'.btn.trans h.btn,
    h'.inp.trans h.inp, h'.host.trans h.host, h'.tmem.trans h.tmem, h'.par.trans h.par, h'.sched.trans h.sched,
    h'.rowEn.trans h.rowEn, h'.colOut.trans h.colOut⟩

/-- A token's step: the sound frame, no fault, no free value, and the cursor kept. -/
structure TokenFrame (s t : State) : Prop extends SoundFrame s t where
  faults : t.faults = s.faults
  draws : t.draws = s.draws
  cursor : t.snd.cursor = s.snd.cursor

theorem exec_token (i : Instr) (hi : i.language = .token) (s : State) : ∃ t, exec i s = .next t ∧ TokenFrame s t := by
  cases i <;> first
    | (exfalso; revert hi; simp [Instr.language]; done)
    | exact ⟨_, rfl, ⟨⟨rfl, rfl, rfl, rfl, rfl, rfl, rfl, rfl, rfl, rfl, rfl, rfl⟩, rfl, rfl, rfl⟩⟩

theorem decodeToken_language : ∀ b : Byte, (decodeToken b).language = .token := by decide +kernel

/-- The states inside a scan: the cursor is valid and in range, and the tempo is one of the table's. -/
structure Scanning (s : State) : Prop where
  valid : s.snd.cursorValid = true
  tempo : s.snd.tempoOk
  range : s.snd.cursor.toNat ≤ 65536

theorem tempoOf_pos : ∀ k : BitVec 4, 1 ≤ (tempoOf k).toNat := by decide

theorem durOf_bounds : ∀ d : BitVec 3, d ≤ 6#3 → 1 ≤ (durOf d).toNat ∧ (durOf d).toNat ≤ 64 := by decide

theorem durOf_half : ∀ d : BitVec 3, (durOf d / 2).toNat ≤ 32 := by decide

/-- START_NOTE leaves the sound state of 42 R170. -/
theorem startNote_soundOk {s : State} (h : Scanning s) {dur thr : BitVec 7} (h1 : 1 ≤ dur.toNat) (h2 : dur.toNat ≤ 64)
    (h3 : thr.toNat ≤ 32) : (startNote s dur thr).soundOk := by
  obtain ⟨hv, ⟨k, hk⟩, hr⟩ := h
  have hp := tempoOf_pos k
  refine ⟨⟨fun _ => hv, fun h => ?_⟩, fun _ => ⟨h1, h2, ?_, ?_, h3⟩, ⟨k, hk⟩, fun _ => Or.inl rfl, hr⟩
  · rcases h with h | h <;> exact absurd h (by simp [startNote])
  · show 1 ≤ s.snd.tempo.toNat
    rw [hk]; exact hp
  · exact Nat.le_refl _

theorem wf_of_decode : ∀ b : Byte, (decodeToken b).wellFormed = true := by decide +kernel

/-- A token that ends the scan leaves the sound invariants; any other leaves the scan's own (42 R170, R180). -/
theorem token_sound {s t : State} (h : Scanning s) (b : Byte) (ht : exec (decodeToken b) s = .next t) :
    if endsScan (decodeToken b) then t.soundOk else Scanning t := by
  have hl := decodeToken_language b
  have hw := wf_of_decode b
  generalize decodeToken b = i at *
  cases i <;> first
    | (exfalso; revert hl; simp [Instr.language]; done)
    | skip
  case endTok =>
    obtain rfl := Host.Outcome.next.inj ht
    refine ⟨⟨fun h => ?_, fun _ => rfl⟩, fun h => ?_, h.tempo, fun h => absurd h (by simp [State.silence]), h.range⟩
    · rcases h with h | h | h <;> exact absurd h (by simp [State.silence])
    · rcases h with h | h <;> exact absurd h (by simp [State.silence])
  case play d =>
    obtain rfl := Host.Outcome.next.inj ht
    have hd := durOf_bounds d (by simpa [Instr.wellFormed, durationCode] using hw)
    exact startNote_soundOk h hd.1 hd.2 (by decide)
  case playr d =>
    obtain rfl := Host.Outcome.next.inj ht
    have hd := durOf_bounds d (by simpa [Instr.wellFormed, durationCode] using hw)
    exact startNote_soundOk h hd.1 hd.2 (by decide)
  case plays d =>
    obtain rfl := Host.Outcome.next.inj ht
    have hd := durOf_bounds d (by simpa [Instr.wellFormed, durationCode] using hw)
    exact startNote_soundOk h hd.1 hd.2 (durOf_half d)
  case pause d =>
    obtain rfl := Host.Outcome.next.inj ht
    have hd := durOf_bounds d (by simpa [Instr.wellFormed, durationCode] using hw)
    obtain ⟨hv, ⟨k, hk⟩, hr⟩ := h
    have hp := tempoOf_pos k
    refine ⟨⟨fun _ => hv, fun h => ?_⟩, fun _ => ⟨hd.1, hd.2, ?_, Nat.le_refl _, Nat.zero_le 32⟩, ⟨k, hk⟩, fun h => ?_, hr⟩
    · rcases h with h | h <;> exact absurd h (by simp)
    · show 1 ≤ s.snd.tempo.toNat
      rw [hk]; exact hp
    · exact absurd h (by simp)
  case tempo k => obtain rfl := Host.Outcome.next.inj ht; exact ⟨h.valid, ⟨k, rfl⟩, h.range⟩
  case fadeoff => obtain rfl := Host.Outcome.next.inj ht; exact ⟨h.valid, h.tempo, h.range⟩
  case fadeup v => obtain rfl := Host.Outcome.next.inj ht; exact ⟨h.valid, h.tempo, h.range⟩
  case fadedn v => obtain rfl := Host.Outcome.next.inj ht; exact ⟨h.valid, h.tempo, h.range⟩
  case note n => obtain rfl := Host.Outcome.next.inj ht; exact ⟨h.valid, h.tempo, h.range⟩
  case unrecognized c => obtain rfl := Host.Outcome.next.inj ht; exact ⟨h.valid, h.tempo, h.range⟩

end Sys2Proof.Machine
end

