-- ==== Sys2Proof/Laws/Sequencer.lean ====
section
/-!
SUPPORT. What a fetch, a scan and a sequencer tick can do, said once (spec/42_sound_sequencer.md R160 to R172).
-/

namespace Sys2Proof.Machine

/-! ### Fetch (42 R164) -/

/-- The state a successful fetch leaves. -/
def fetched (s : State) : State :=
  let t := s.tokenRead s.snd.cursor.toNat
  { t with snd := { t.snd with cursor := s.snd.cursor + 1 } }

theorem fetch_oob {s : State} (h : s.tokenSize ≤ s.snd.cursor.toNat) :
    fetch s = (none, s.raise (.tokenOob s.snd.cursor)) := by
  simp [fetch, h]

theorem fetch_byte {s : State} (h : s.snd.cursor.toNat < s.tokenSize) :
    fetch s = (some (s.tokenByte s.snd.cursor.toNat), fetched s) := by
  simp [fetch, fetched, Nat.not_le.mpr h]

theorem tokenSize_le (s : State) : s.tokenSize ≤ 65536 :=
  Nat.le_of_lt_succ s.par.tokenMemSize.isLt

theorem fetched_frame (s : State) : SoundFrame s (fetched s) := by
  have h : SoundFrame s (s.tokenRead s.snd.cursor.toNat) := by
    constructor <;> simp
  exact h.trans ⟨rfl, rfl, rfl, rfl, rfl, rfl, rfl, rfl, rfl, rfl, rfl, rfl⟩

theorem fetched_faults (s : State) : (fetched s).faults = s.faults := by simp [fetched]

theorem fetched_cursor {s : State} (h : s.snd.cursor.toNat < s.tokenSize) :
    (fetched s).snd.cursor.toNat = s.snd.cursor.toNat + 1 := by
  have := tokenSize_le s
  show (s.snd.cursor + 1).toNat = _
  rw [BitVec.toNat_add, show (1 : BitVec 17).toNat = 1 from rfl]
  omega

theorem fetched_scanning {s : State} (hs : Scanning s) (h : s.snd.cursor.toNat < s.tokenSize) :
    Scanning (fetched s) := by
  refine ⟨?_, ?_, ?_⟩
  · simpa [fetched] using hs.valid
  · simpa [fetched, Sound.tempoOk] using hs.tempo
  · have := fetched_cursor h
    have := tokenSize_le s
    omega

/-! ### Scan (42 R165, R172) -/

theorem scan_oob {s : State} (h : s.tokenSize ≤ s.snd.cursor.toNat) :
    scan s = .next (s.raise (.tokenOob s.snd.cursor)) := by
  unfold scan
  rw [Nat.sub_eq_zero_of_le h, scanBytes, fetch_oob h]

/-- One round of the scan loop (42 R165): the token at the cursor is run, and the scan goes on unless it ends there. -/
theorem scan_token {s u : State} (h : s.snd.cursor.toNat < s.tokenSize)
    (hu : exec (decodeToken (s.tokenByte s.snd.cursor.toNat)) (fetched s) = .next u) :
    scan s = if endsScan (decodeToken (s.tokenByte s.snd.cursor.toNat)) then .next u else scan u := by
  obtain ⟨u', hu', hf⟩ := exec_token _ (decodeToken_language (s.tokenByte s.snd.cursor.toNat)) (fetched s)
  obtain rfl : u' = u := Host.Outcome.next.inj (hu'.symm.trans hu)
  have hc : u'.snd.cursor.toNat = s.snd.cursor.toNat + 1 := by rw [hf.cursor, fetched_cursor h]
  have hz : u'.tokenSize = s.tokenSize := by
    unfold State.tokenSize; rw [hf.par, (fetched_frame s).par]
  obtain ⟨n, hn⟩ : ∃ n, s.tokenSize - s.snd.cursor.toNat = n + 1 := ⟨s.tokenSize - s.snd.cursor.toNat - 1, by omega⟩
  have hn' : u'.tokenSize - u'.snd.cursor.toNat = n := by omega
  unfold scan
  rw [hn, scanBytes, fetch_byte h]
  simp only [hu, hn']

/-- The induction over a scan, once for all: a property of the states between tokens, and one of the state at the end. -/
theorem scan_induct {P Q : State → Prop}
    (hoob : ∀ s, P s → s.tokenSize ≤ s.snd.cursor.toNat → Q (s.raise (.tokenOob s.snd.cursor)))
    (htok : ∀ s, P s → s.snd.cursor.toNat < s.tokenSize → ∀ u,
      exec (decodeToken (s.tokenByte s.snd.cursor.toNat)) (fetched s) = .next u →
      if endsScan (decodeToken (s.tokenByte s.snd.cursor.toNat)) then Q u else P u) :
    ∀ s, P s → ∃ t, scan s = .next t ∧ Q t := by
  suffices key : ∀ n s, s.tokenSize - s.snd.cursor.toNat = n → P s → ∃ t, scan s = .next t ∧ Q t from
    fun s hs => key _ s rfl hs
  intro n
  induction n with
  | zero =>
    intro s hn hs
    have h : s.tokenSize ≤ s.snd.cursor.toNat := by omega
    exact ⟨_, scan_oob h, hoob s hs h⟩
  | succ n ih =>
    intro s hn hs
    have h : s.snd.cursor.toNat < s.tokenSize := by omega
    obtain ⟨u, hu, hf⟩ := exec_token _ (decodeToken_language (s.tokenByte s.snd.cursor.toNat)) (fetched s)
    have hq := htok s hs h u hu
    rw [scan_token h hu]
    split at hq
    · rename_i he
      exact ⟨u, by simp [he], hq⟩
    · rename_i he
      have hc : u.snd.cursor.toNat = s.snd.cursor.toNat + 1 := by rw [hf.cursor, fetched_cursor h]
      have hz : u.tokenSize = s.tokenSize := by
        unfold State.tokenSize; rw [hf.par, (fetched_frame s).par]
      simpa [he] using ih u (by omega) hq

/-- Every scan answers a next state within the sound frame. -/
theorem scan_frame (s : State) : ∃ t, scan s = .next t ∧ SoundFrame s t := by
  refine scan_induct (P := fun u => SoundFrame s u) (Q := fun u => SoundFrame s u) ?_ ?_ s (SoundFrame.refl s)
  · intro u hu _
    exact hu.trans ⟨rfl, rfl, rfl, rfl, rfl, rfl, rfl, rfl, rfl, rfl, rfl, rfl⟩
  · intro u hu _ v hv
    obtain ⟨v', hv', hf⟩ := exec_token _ (decodeToken_language (u.tokenByte u.snd.cursor.toNat)) (fetched u)
    obtain rfl : v' = v := Host.Outcome.next.inj (hv'.symm.trans hv)
    have := hu.trans ((fetched_frame u).trans hf.toSoundFrame)
    split <;> exact this

/-- A scan from a scanning state ends in the sound invariants, or in a recorded TOKEN_OOB. -/
theorem scan_sound {s : State} (hs : Scanning s) : ∃ t, scan s = .next t ∧ (t.faults = [] → t.soundOk) := by
  refine scan_induct (P := Scanning) (Q := fun t => t.faults = [] → t.soundOk) ?_ ?_ s hs
  · intro u _ _ hf
    exact absurd hf (State.raise_faults_ne u _)
  · intro u hu h v hv
    have := token_sound (fetched_scanning hu h) _ hv
    split at this
    · rename_i he
      simpa [he] using fun _ => this
    · rename_i he
      simpa [he] using this

/-- How far a scan reads: no byte at or above TOKEN_MEM_SIZE, and its only fault is TOKEN_OOB there (42 R172). -/
theorem scan_bound {s : State} (hf : s.faults = []) : ∃ t, scan s = .next t ∧
    s.snd.cursor.toNat ≤ t.snd.cursor.toNat ∧
    t.snd.cursor.toNat ≤ max s.tokenSize s.snd.cursor.toNat ∧
    (t.faults = [] ∨ (t.faults = [.tokenOob t.snd.cursor] ∧ s.tokenSize ≤ t.snd.cursor.toNat)) := by
  refine scan_induct
    (P := fun u => u.faults = [] ∧ s.tokenSize = u.tokenSize ∧ s.snd.cursor.toNat ≤ u.snd.cursor.toNat ∧
      u.snd.cursor.toNat ≤ max s.tokenSize s.snd.cursor.toNat)
    (Q := fun t => s.snd.cursor.toNat ≤ t.snd.cursor.toNat ∧
      t.snd.cursor.toNat ≤ max s.tokenSize s.snd.cursor.toNat ∧
      (t.faults = [] ∨ (t.faults = [.tokenOob t.snd.cursor] ∧ s.tokenSize ≤ t.snd.cursor.toNat)))
    ?_ ?_ s ⟨hf, rfl, Nat.le_refl _, Nat.le_max_right _ _⟩
  · rintro u ⟨h1, h2, h3, h4⟩ h
    refine ⟨h3, h4, Or.inr ⟨?_, ?_⟩⟩
    · rw [State.raise_faults _ _ h1]; rfl
    · rw [h2]; exact h
  · rintro u ⟨h1, h2, h3, h4⟩ h v hv
    obtain ⟨v', hv', hfr⟩ := exec_token _ (decodeToken_language (u.tokenByte u.snd.cursor.toNat)) (fetched u)
    obtain rfl : v' = v := Host.Outcome.next.inj (hv'.symm.trans hv)
    have hc : v'.snd.cursor.toNat = u.snd.cursor.toNat + 1 := by rw [hfr.cursor, fetched_cursor h]
    have hz : v'.tokenSize = u.tokenSize := by
      unfold State.tokenSize; rw [hfr.par, (fetched_frame u).par]
    have hv0 : v'.faults = [] := by rw [hfr.faults, fetched_faults, h1]
    have h5 : v'.snd.cursor.toNat ≤ max s.tokenSize s.snd.cursor.toNat := by
      have := Nat.le_max_left s.tokenSize s.snd.cursor.toNat
      omega
    split
    · exact ⟨by omega, h5, Or.inl hv0⟩
    · exact ⟨hv0, by omega, by omega, h5⟩

/-! ### Countdown and the sequencer tick (42 R160, R167) -/

theorem fadeTick_frame (s : State) : SoundFrame s (fadeTick s) := by
  unfold fadeTick; split
  · exact ⟨rfl, rfl, rfl, rfl, rfl, rfl, rfl, rfl, rfl, rfl, rfl, rfl⟩
  · exact SoundFrame.refl s

theorem fadeTick_snd (s : State) : (fadeTick s).snd = s.snd := by unfold fadeTick; split <;> rfl

theorem fadeTick_faults (s : State) : (fadeTick s).faults = s.faults := by unfold fadeTick; split <;> rfl

theorem fadeTick_toneOn (s : State) : (fadeTick s).out.toneOn = s.out.toneOn := by unfold fadeTick; split <;> rfl

/-- The cases of one countdown, each with what it answers. -/
theorem countdown_cases (s : State) :
    (s.snd.subtick - 1 ≠ 0 ∧ countdown s = .next (countSubtick (fadeTick s))) ∨
    (s.snd.subtick - 1 = 0 ∧ s.snd.dur - 1 = 0 ∧ countdown s = scan (countUnit (countSubtick (fadeTick s)))) ∨
    (s.snd.subtick - 1 = 0 ∧ s.snd.dur - 1 ≠ 0 ∧ s.snd.dur - 1 = s.snd.thr ∧
      countdown s = .next (cutNote (countUnit (countSubtick (fadeTick s))))) ∨
    (s.snd.subtick - 1 = 0 ∧ s.snd.dur - 1 ≠ 0 ∧ s.snd.dur - 1 ≠ s.snd.thr ∧
      countdown s = .next (countUnit (countSubtick (fadeTick s)))) := by
  have e1 : (countSubtick (fadeTick s)).snd.subtick = s.snd.subtick - 1 := by simp [countSubtick, fadeTick_snd]
  have e2 : (countUnit (countSubtick (fadeTick s))).snd.dur = s.snd.dur - 1 := by
    simp [countUnit, countSubtick, fadeTick_snd]
  have e3 : (countUnit (countSubtick (fadeTick s))).snd.thr = s.snd.thr := by
    simp [countUnit, countSubtick, fadeTick_snd]
  unfold countdown
  simp only [e1, e2, e3]
  by_cases h1 : s.snd.subtick - 1 = 0#8
  · rw [if_pos h1]
    by_cases h2 : s.snd.dur - 1 = 0#7
    · exact Or.inr (Or.inl ⟨h1, h2, if_pos h2⟩)
    · rw [if_neg h2]
      by_cases h3 : s.snd.dur - 1 = s.snd.thr
      · exact Or.inr (Or.inr (Or.inl ⟨h1, h2, h3, if_pos h3⟩))
      · exact Or.inr (Or.inr (Or.inr ⟨h1, h2, h3, if_neg h3⟩))
  · exact Or.inl ⟨h1, if_neg h1⟩

theorem countSubtick_frame (s : State) : SoundFrame s (countSubtick s) :=
  ⟨rfl, rfl, rfl, rfl, rfl, rfl, rfl, rfl, rfl, rfl, rfl, rfl⟩

theorem countUnit_frame (s : State) : SoundFrame s (countUnit s) :=
  ⟨rfl, rfl, rfl, rfl, rfl, rfl, rfl, rfl, rfl, rfl, rfl, rfl⟩

theorem cutNote_frame (s : State) : SoundFrame s (cutNote s) :=
  ⟨rfl, rfl, rfl, rfl, rfl, rfl, rfl, rfl, rfl, rfl, rfl, rfl⟩

theorem startDefaults_frame (s : State) : SoundFrame s (startDefaults s) :=
  ⟨rfl, rfl, rfl, rfl, rfl, rfl, rfl, rfl, rfl, rfl, rfl, rfl⟩

theorem silence_frame (s : State) : SoundFrame s s.silence :=
  ⟨rfl, rfl, rfl, rfl, rfl, rfl, rfl, rfl, rfl, rfl, rfl, rfl⟩

/-- A scan of a state in the frame stays in the frame. -/
theorem scan_frame_of {s u : State} (h : SoundFrame s u) : ∃ t, scan u = .next t ∧ SoundFrame s t := by
  obtain ⟨t, ht, hf⟩ := scan_frame u
  exact ⟨t, ht, h.trans hf⟩

theorem countdown_frame (s : State) : ∃ t, countdown s = .next t ∧ SoundFrame s t := by
  have hu : SoundFrame s (countUnit (countSubtick (fadeTick s))) :=
    (fadeTick_frame s).trans ((countSubtick_frame _).trans (countUnit_frame _))
  rcases countdown_cases s with ⟨-, h⟩ | ⟨-, -, h⟩ | ⟨-, -, -, h⟩ | ⟨-, -, -, h⟩
  · exact ⟨_, h, (fadeTick_frame s).trans (countSubtick_frame _)⟩
  · rw [h]; exact scan_frame_of hu
  · exact ⟨_, h, hu.trans (cutNote_frame _)⟩
  · exact ⟨_, h, hu⟩

/-- Every sequencer tick answers a next state within the sound frame. -/
theorem seqTick_frame (s : State) : ∃ t, seqTick s = .next t ∧ SoundFrame s t := by
  unfold seqTick
  split
  · exact ⟨s, rfl, SoundFrame.refl s⟩
  · exact ⟨s, rfl, SoundFrame.refl s⟩
  · exact ⟨_, rfl, silence_frame s⟩
  · exact scan_frame_of (startDefaults_frame s)
  · exact countdown_frame s
  · exact countdown_frame s

/-! ### The sound invariants -/

theorem silence_soundOk {s : State} (ht : s.snd.tempoOk) (hr : s.snd.cursor.toNat ≤ 65536) : s.silence.soundOk := by
  refine ⟨⟨fun h => ?_, fun _ => rfl⟩, fun h => ?_, ht, fun h => absurd h (by simp [State.silence]), hr⟩
  · rcases h with h | h | h <;> exact absurd h (by simp [State.silence])
  · rcases h with h | h <;> exact absurd h (by simp [State.silence])

theorem tempoDefault_ok : ∃ k : BitVec 4, Config.tempoDefault = tempoOf k := ⟨9, by decide⟩

theorem countdown_sound {s : State} (hs : s.soundOk) (hp : s.snd.state = .playing ∨ s.snd.state = .paused) :
    ∃ t, countdown s = .next t ∧ (t.faults = [] → t.soundOk) := by
  obtain ⟨⟨hv, -⟩, hc, ht, htone, hr⟩ := hs
  have hval : s.snd.cursorValid = true := hv (by tauto)
  obtain ⟨d1, d2, s1, s2, th⟩ := hc hp
  have hsub : ∀ {x : BitVec 8}, 1 ≤ x.toNat → (x - 1).toNat = x.toNat - 1 := by
    intro x hx; rw [BitVec.toNat_sub]; simp; omega
  have hdur : (s.snd.dur - 1).toNat = s.snd.dur.toNat - 1 := by
    rw [BitVec.toNat_sub]; simp; omega
  have hu : ∀ u : State, u.snd = s.snd → (countUnit (countSubtick u)).snd =
      { s.snd with subtick := s.snd.tempo, dur := s.snd.dur - 1 } := by
    intro u e; simp [countUnit, countSubtick, e]
  have hu' := hu _ (fadeTick_snd s)
  rcases countdown_cases s with ⟨h1, h⟩ | ⟨h1, h2, h⟩ | ⟨h1, h2, h3, h⟩ | ⟨h1, h2, h3, h⟩
  · refine ⟨_, h, fun _ => ?_⟩
    have e : (countSubtick (fadeTick s)).snd = { s.snd with subtick := s.snd.subtick - 1 } := by
      simp [countSubtick, fadeTick_snd]
    have hne : (s.snd.subtick - 1).toNat ≠ 0 := fun hz => h1 (BitVec.eq_of_toNat_eq (by simpa using hz))
    rw [hsub s1] at hne
    refine ⟨⟨fun _ => ?_, fun hx => ?_⟩, fun _ => ?_, ?_, fun hx => ?_, ?_⟩
    · rw [e]; exact hval
    · rw [e] at hx; rcases hp with hp | hp <;> simp [hp] at hx
    · rw [e]
      refine ⟨d1, d2, ?_, ?_, th⟩
      · show 1 ≤ (s.snd.subtick - 1).toNat
        rw [hsub s1]; omega
      · show (s.snd.subtick - 1).toNat ≤ s.snd.tempo.toNat
        rw [hsub s1]; omega
    · rw [e]; exact ht
    · have : s.out.toneOn = true := by simpa [countSubtick, fadeTick_toneOn] using hx
      rw [e]; exact htone this
    · rw [e]; exact hr
  · rw [h]
    refine scan_sound ⟨?_, ?_, ?_⟩
    · rw [hu']; exact hval
    · rw [hu']; exact ht
    · rw [hu']; exact hr
  · refine ⟨_, h, fun _ => ?_⟩
    have e : (cutNote (countUnit (countSubtick (fadeTick s)))).snd =
        { s.snd with subtick := s.snd.tempo, dur := s.snd.dur - 1, state := .paused } := by
      simp [cutNote, hu']
    have hne : (s.snd.dur - 1).toNat ≠ 0 := fun hz => h2 (BitVec.eq_of_toNat_eq (by simpa using hz))
    refine ⟨⟨fun _ => ?_, fun hx => ?_⟩, fun _ => ?_, ?_, fun hx => ?_, ?_⟩
    · rw [e]; exact hval
    · rw [e] at hx; simp at hx
    · rw [e]
      refine ⟨?_, ?_, Nat.le_trans s1 s2, Nat.le_refl _, th⟩
      · show 1 ≤ (s.snd.dur - 1).toNat
        omega
      · show (s.snd.dur - 1).toNat ≤ 64
        omega
    · rw [e]; exact ht
    · exact absurd hx (by simp [cutNote])
    · rw [e]; exact hr
  · refine ⟨_, h, fun _ => ?_⟩
    have hne : (s.snd.dur - 1).toNat ≠ 0 := fun hz => h2 (BitVec.eq_of_toNat_eq (by simpa using hz))
    refine ⟨⟨fun _ => ?_, fun hx => ?_⟩, fun _ => ?_, ?_, fun hx => ?_, ?_⟩
    · rw [hu']; exact hval
    · rw [hu'] at hx; rcases hp with hp | hp <;> simp [hp] at hx
    · rw [hu']
      refine ⟨?_, ?_, Nat.le_trans s1 s2, Nat.le_refl _, th⟩
      · show 1 ≤ (s.snd.dur - 1).toNat
        omega
      · show (s.snd.dur - 1).toNat ≤ 64
        omega
    · rw [hu']; exact ht
    · have : s.out.toneOn = true := by simpa [countUnit, countSubtick, fadeTick_toneOn] using hx
      rw [hu']; exact htone this
    · rw [hu']; exact hr

/-- A sequencer tick keeps the sound invariants, unless it raises TOKEN_OOB (10 R35, 42 R170). -/
theorem seqTick_sound {s : State} (hs : s.soundOk) : ∃ t, seqTick s = .next t ∧ (t.faults = [] → t.soundOk) := by
  unfold seqTick
  split
  · exact ⟨s, rfl, fun _ => hs⟩
  · exact ⟨s, rfl, fun _ => hs⟩
  · exact ⟨_, rfl, fun _ => silence_soundOk hs.2.2.1 hs.2.2.2.2⟩
  · rename_i h
    exact scan_sound ⟨hs.1.1 (Or.inr (Or.inr h)), tempoDefault_ok, hs.2.2.2.2⟩
  · rename_i h; exact countdown_sound hs (Or.inl h)
  · rename_i h; exact countdown_sound hs (Or.inr h)

/-- The only fault of a sequencer tick is TOKEN_OOB (42 R160). -/
theorem seqTick_faults {s : State} (hf : s.faults = []) : ∃ t, seqTick s = .next t ∧
    (t.faults = [] ∨ ∃ c, t.faults = [.tokenOob c]) := by
  have key : ∀ u : State, u.faults = [] → ∃ t, scan u = .next t ∧ (t.faults = [] ∨ ∃ c, t.faults = [.tokenOob c]) := by
    intro u hu
    obtain ⟨t, ht, -, -, h⟩ := scan_bound hu
    exact ⟨t, ht, h.imp id fun h => ⟨_, h.1⟩⟩
  have kc : ∃ t, countdown s = .next t ∧ (t.faults = [] ∨ ∃ c, t.faults = [.tokenOob c]) := by
    have hu : (countUnit (countSubtick (fadeTick s))).faults = [] := by
      simpa [countUnit, countSubtick, fadeTick_faults] using hf
    rcases countdown_cases s with ⟨-, h⟩ | ⟨-, -, h⟩ | ⟨-, -, -, h⟩ | ⟨-, -, -, h⟩
    · exact ⟨_, h, Or.inl (by simpa [countSubtick, fadeTick_faults] using hf)⟩
    · rw [h]; exact key _ hu
    · exact ⟨_, h, Or.inl (by simpa [cutNote] using hu)⟩
    · exact ⟨_, h, Or.inl hu⟩
  unfold seqTick
  split
  · exact ⟨s, rfl, Or.inl hf⟩
  · exact ⟨s, rfl, Or.inl hf⟩
  · exact ⟨_, rfl, Or.inl (by simpa [stopRequest, State.silence] using hf)⟩
  · exact key _ hf
  · exact kc
  · exact kc

/-- A sequencer tick never moves the cursor back, and makes no stream live that was not (42 R161 to R165). -/
theorem seqTick_cursor {s : State} (hf : s.faults = []) : ∃ t, seqTick s = .next t ∧
    s.snd.cursor.toNat ≤ t.snd.cursor.toNat ∧ (t.snd.state.live = true → s.snd.state.live = true) := by
  have key : ∀ u : State, u.faults = [] → u.snd.cursor = s.snd.cursor → ∃ t, scan u = .next t ∧
      s.snd.cursor.toNat ≤ t.snd.cursor.toNat := by
    intro u hu hc
    obtain ⟨t, ht, h, -⟩ := scan_bound hu
    exact ⟨t, ht, hc ▸ h⟩
  have kc : ∃ t, countdown s = .next t ∧ s.snd.cursor.toNat ≤ t.snd.cursor.toNat := by
    rcases countdown_cases s with ⟨-, h⟩ | ⟨-, -, h⟩ | ⟨-, -, -, h⟩ | ⟨-, -, -, h⟩
    · exact ⟨_, h, by simp [countSubtick, fadeTick_snd]⟩
    · rw [h]
      exact key _ (by simpa [countUnit, countSubtick, fadeTick_faults] using hf) (by simp [countUnit, countSubtick, fadeTick_snd])
    · exact ⟨_, h, by simp [cutNote, countUnit, countSubtick, fadeTick_snd]⟩
    · exact ⟨_, h, by simp [countUnit, countSubtick, fadeTick_snd]⟩
  unfold seqTick
  split <;> rename_i hs
  · exact ⟨s, rfl, Nat.le_refl _, id⟩
  · exact ⟨s, rfl, Nat.le_refl _, id⟩
  · exact ⟨_, rfl, Nat.le_refl _, fun h => absurd h (by simp [stopRequest, State.silence, SndState.live])⟩
  · obtain ⟨t, ht, h⟩ := key (startDefaults s) hf rfl
    exact ⟨t, ht, h, fun _ => by rw [hs]; rfl⟩
  · obtain ⟨t, ht, h⟩ := kc
    exact ⟨t, ht, h, fun _ => by rw [hs]; rfl⟩
  · obtain ⟨t, ht, h⟩ := kc
    exact ⟨t, ht, h, fun _ => by rw [hs]; rfl⟩

end Sys2Proof.Machine
end

