-- ==== Sys2Proof/Laws/Tick.lean ====
section
/-!
SUPPORT. What a display step, a swap step and a tick step can do, said once (spec/40_multiplexer.md R100 to R108,
spec/41_frame_sync.md R130 to R138), and the invariants a tick keeps.
-/

namespace Sys2Proof.Machine

/-! ### The parts -/

/-- DISPLAY_STEP as one update (40 R105). -/
theorem displayStep_eq (s : State) : displayStep s =
    { s with
      drive := { s.drive with
        nextPat := pattern s.store.back (rowIndex (nextCursor s.drive.row s.drive.level).1)
          (nextCursor s.drive.row s.drive.level).2 }
      out := { s.out with
        rowEn := 1#8 <<< s.drive.row.toNat
        colOut := s.store.auxActive ++ s.drive.nextPat
        events := s.out.events ++ [.rowEn 0x00, .colOut (s.store.auxActive ++ s.drive.nextPat),
          .rowEn (1#8 <<< s.drive.row.toNat)] } } := by
  simp [displayStep, State.outRowEn, State.outColOut]

/-- What the multiplexer and the frame synchronizer never touch in a tick step. -/
structure ShowFrame (s t : State) : Prop where
  ctl : t.ctl = s.ctl
  front : t.store.front = s.store.front
  auxFront : t.store.auxFront = s.store.auxFront
  snd : t.snd = s.snd
  faults : t.faults = s.faults
  host : t.host = s.host
  tmem : t.tmem = s.tmem
  par : t.par = s.par
  sched : t.sched = s.sched
  toneOn : t.out.toneOn = s.out.toneOn
  tonePeriod : t.out.tonePeriod = s.out.tonePeriod
  row : t.drive.row = s.drive.row
  level : t.drive.level = s.drive.level

theorem ShowFrame.trans {s t u : State} (h : ShowFrame s t) (h' : ShowFrame t u) : ShowFrame s u :=
  ⟨h'.ctl.trans h.ctl, h'.front.trans h.front, h'.auxFront.trans h.auxFront, h'.snd.trans h.snd,
    h'.faults.trans h.faults, h'.host.trans h.host, h'.tmem.trans h.tmem, h'.par.trans h.par, h'.sched.trans h.sched,
    h'.toneOn.trans h.toneOn, h'.tonePeriod.trans h.tonePeriod, h'.row.trans h.row, h'.level.trans h.level⟩

theorem displayStep_frame (s : State) : ShowFrame s (displayStep s) :=
  ⟨rfl, rfl, rfl, rfl, rfl, rfl, rfl, rfl, rfl, rfl, rfl, rfl, rfl⟩

theorem divider_frame (s : State) : ShowFrame s (divider s) :=
  ⟨rfl, rfl, rfl, rfl, rfl, rfl, rfl, rfl, rfl, rfl, rfl, rfl, rfl⟩

/-- The state of a swap between its counters and its clock sample. -/
def swapCopied (s : State) : State := countFrame (copyBuffers (s.outRowEn 0x00))

/-- The state of a swap once it has sampled the clock. -/
def swapMeasured (s : State) : State := measure (swapCopied s).clockNow (swapCopied s).clockTaken

theorem measure_eq (now : BitVec 32) (s : State) : measure now s =
    { s with frame := { s.frame with
        sweepDur := if s.frame.meas = .noBoundary then s.frame.sweepDur else now - s.frame.lastTs
        meas := if s.frame.meas = .noBoundary then .discarded else .valid
        lastTs := now } } := by
  unfold measure
  split <;> rename_i h <;> simp [h]

theorem swapCopied_clockNow (s : State) : (swapCopied s).clockNow = s.clockNow := rfl

theorem swapCopied_taken (s : State) : (swapCopied s).clockTaken =
    { s.clockTaken with
      store := { s.store with back := s.store.front, auxActive := s.store.auxFront }
      frame := { s.frame with count := s.frame.count + 1, signal := s.frame.signal + 1 }
      out := { s.out with rowEn := 0x00, events := s.out.events ++ [.rowEn 0x00] } } := by
  rcases h : s.inp.clock with _ | ⟨v, vs⟩ <;>
    simp [swapCopied, State.clockTaken, countFrame, copyBuffers, State.outRowEn, h]

theorem buttons_of_inp {s t : State} (h : t.inp = s.inp) (hd : t.draws = s.draws) : t.buttonsNow = s.buttonsNow := by
  unfold State.buttonsNow; rw [h, hd]

theorem buttonsTaken_eq (s : State) : s.buttonsTaken =
    { s with inp := s.buttonsTaken.inp, draws := s.buttonsTaken.draws } := by
  rcases h : s.inp.buttons with _ | ⟨v, vs⟩ <;> simp [State.buttonsTaken, h]

theorem clockTaken_eq (s : State) : s.clockTaken =
    { s with inp := s.clockTaken.inp, draws := s.clockTaken.draws } := by
  rcases h : s.inp.clock with _ | ⟨v, vs⟩ <;> simp [State.clockTaken, h]

/-- The state a swap leaves of inputs and draws. -/
def swapTaken (s : State) : State := s.clockTaken.buttonsTaken

/-- SWAP_STEP as one update (41 R137). -/
theorem swapStep_eq (s : State) : swapStep s =
    { s with
      drive := { s.drive with nextPat := pattern s.store.front 0 0 }
      store := { s.store with back := s.store.front, auxActive := s.store.auxFront }
      frame :=
        { count := s.frame.count + 1
          signal := s.frame.signal + 1
          lastTs := s.clockNow
          sweepDur := if s.frame.meas = .noBoundary then s.frame.sweepDur else s.clockNow - s.frame.lastTs
          meas := if s.frame.meas = .noBoundary then .discarded else .valid }
      btn := { cur := s.clockTaken.buttonsNow.setWidth 8, prev := s.btn.cur }
      out := { s.out with rowEn := 0x00, events := s.out.events ++ [.rowEn 0x00] }
      inp := (swapTaken s).inp
      draws := (swapTaken s).draws } := by
  have h0 : swapStep s = (let v := sampleButtons (swapMeasured s).buttonsNow (swapMeasured s).buttonsTaken
    { v with drive := { v.drive with nextPat := pattern v.store.back 0 0 } }) := rfl
  have hm : swapMeasured s = { s.clockTaken with
      store := { s.store with back := s.store.front, auxActive := s.store.auxFront }
      frame :=
        { count := s.frame.count + 1
          signal := s.frame.signal + 1
          lastTs := s.clockNow
          sweepDur := if s.frame.meas = .noBoundary then s.frame.sweepDur else s.clockNow - s.frame.lastTs
          meas := if s.frame.meas = .noBoundary then .discarded else .valid }
      out := { s.out with rowEn := 0x00, events := s.out.events ++ [.rowEn 0x00] } } := by
    rw [swapMeasured, measure_eq, swapCopied_taken, swapCopied_clockNow]
  have hb : (swapMeasured s).buttonsNow = s.clockTaken.buttonsNow := by
    apply buttons_of_inp <;> rw [hm]
  have ht : (swapMeasured s).buttonsTaken = { swapMeasured s with inp := (swapTaken s).inp, draws := (swapTaken s).draws } := by
    rcases h : s.clockTaken.inp.buttons with _ | ⟨v, vs⟩ <;> rw [hm] <;> simp [State.buttonsTaken, swapTaken, h]
  rw [h0, hb, ht, hm]
  simp [sampleButtons]

theorem swapStep_frame (s : State) : ShowFrame s (swapStep s) := by
  rw [swapStep_eq]
  exact ⟨rfl, rfl, rfl, rfl, rfl, rfl, rfl, rfl, rfl, rfl, rfl, rfl, rfl⟩

theorem displayOrSwap_frame (s : State) : ShowFrame s (displayOrSwap s) := by
  unfold displayOrSwap
  split
  · split
    · exact (divider_frame s).trans (swapStep_frame _)
    · exact (divider_frame s).trans (displayStep_frame _)
  · exact displayStep_frame s

/-- Away from a qualifying boundary, no frame, button or displayed state moves (41 R132, R134, R139). -/
theorem displayOrSwap_quiet {s : State} (h : (s.atBoundary && s.qualifies) = false) :
    (displayOrSwap s).frame = s.frame ∧ (displayOrSwap s).btn = s.btn ∧ (displayOrSwap s).store = s.store ∧
      (displayOrSwap s).inp = s.inp := by
  unfold displayOrSwap
  by_cases hb : s.atBoundary = true
  · have hq : s.qualifies = false := by simpa [hb] using h
    simp only [hb, hq, if_true, Bool.false_eq_true, if_false]
    exact ⟨rfl, rfl, rfl, rfl⟩
  · simp only [hb, Bool.false_eq_true, if_false]
    exact ⟨rfl, rfl, rfl, rfl⟩

/-! ### The tick step -/

/-- The cases of the sequencer's part: nothing away from row 6; at row 6 the sequencer tick, and then the end of the duties
that lasted until it unless it raised (40 R109, 70 R285). -/
theorem sequencerPart_cases (s : State) :
    (s.drive.row ≠ 6#3 ∧ sequencerPart s = .next s) ∨
    (s.drive.row = 6#3 ∧ ∃ q, seqTick s = .next q ∧ SoundFrame s q ∧
      ((q.faults ≠ [] ∧ sequencerPart s = .next q) ∨ (q.faults = [] ∧ sequencerPart s = .next q.dutiesEnd))) := by
  unfold sequencerPart
  by_cases hr : s.drive.row = Config.seqRow
  · rw [if_pos hr]
    obtain ⟨q, hq, hf⟩ := seqTick_frame s
    refine Or.inr ⟨hr, q, hq, hf, ?_⟩
    rw [hq]
    unfold endDuties unlessRaised
    by_cases h0 : q.faults = []
    · exact Or.inr ⟨h0, if_pos h0⟩
    · exact Or.inl ⟨h0, if_neg h0⟩
  · exact Or.inl ⟨hr, if_neg hr⟩

/-- The cases of a tick step (40 R100): nothing before setup; else the display or swap, the sequencer tick at row 6, and the
cursor advance unless a raise ended the step. `m` is token memory as the step leaves it: its bytes are untouched. -/
theorem tick_cases (s : State) :
    (s.ctl.configured = false ∧ tick s = .next s) ∨
    (s.ctl.configured = true ∧ ∃ (q : State) (m : TokenMemory), SoundFrame (displayOrSwap s) q ∧
      m.bytes = q.tmem.bytes ∧
      (s.drive.row ≠ 6#3 → q = displayOrSwap s ∧ m = q.tmem) ∧
      (s.drive.row = 6#3 → seqTick (displayOrSwap s) = .next q ∧ m = q.dutiesEnd.tmem) ∧
      ((q.faults ≠ [] ∧ tick s = .next q) ∨ (q.faults = [] ∧ tick s = .next (advanceCursor { q with tmem := m })))) := by
  by_cases hc : s.ctl.configured = true
  · right
    refine ⟨hc, ?_⟩
    have hrow : (displayOrSwap s).drive.row = s.drive.row := (displayOrSwap_frame s).row
    have ht : tick s = finishTick (sequencerPart (displayOrSwap s)) := by unfold tick; rw [if_pos hc]
    rcases sequencerPart_cases (displayOrSwap s) with ⟨hr, e⟩ | ⟨hr, q, hq, hf, e⟩
    · rw [hrow] at hr
      refine ⟨displayOrSwap s, (displayOrSwap s).tmem, SoundFrame.refl _, rfl, fun _ => ⟨rfl, rfl⟩,
        fun h => absurd h hr, ?_⟩
      rw [ht, e]
      unfold finishTick unlessRaised
      by_cases h0 : (displayOrSwap s).faults = []
      · exact Or.inr ⟨h0, if_pos h0⟩
      · exact Or.inl ⟨h0, if_neg h0⟩
    · rw [hrow] at hr
      refine ⟨q, q.dutiesEnd.tmem, hf, rfl, fun h => absurd hr h, fun _ => ⟨hq, rfl⟩, ?_⟩
      rcases e with ⟨h0, e⟩ | ⟨h0, e⟩
      · exact Or.inl ⟨h0, by rw [ht, e]; exact if_neg h0⟩
      · exact Or.inr ⟨h0, by rw [ht, e]; exact if_pos h0⟩
  · left
    have : s.ctl.configured = false := by simpa using hc
    exact ⟨this, by unfold tick; rw [if_neg hc]⟩

/-- Every tick step answers a next state, in which the host's own state and the front picture are what they were
(44 R246, 60 R268). -/
structure TickFrame (s t : State) : Prop where
  ctl : t.ctl = s.ctl
  front : t.store.front = s.store.front
  auxFront : t.store.auxFront = s.store.auxFront
  host : t.host = s.host
  bytes : t.tmem.bytes = s.tmem.bytes
  par : t.par = s.par
  sched : t.sched = s.sched

theorem tick_frame (s : State) : ∃ t, tick s = .next t ∧ TickFrame s t := by
  rcases tick_cases s with ⟨-, h⟩ | ⟨-, q, m, hf, hm, -, -, h⟩
  · exact ⟨s, h, ⟨rfl, rfl, rfl, rfl, rfl, rfl, rfl⟩⟩
  · have hs := displayOrSwap_frame s
    have hb : q.tmem.bytes = s.tmem.bytes := congrArg TokenMemory.bytes (hf.tmem.trans hs.tmem)
    have hq : TickFrame s q :=
      ⟨hf.ctl.trans hs.ctl, (congrArg Store.front hf.store).trans hs.front,
        (congrArg Store.auxFront hf.store).trans hs.auxFront, hf.host.trans hs.host, hb,
        hf.par.trans hs.par, hf.sched.trans hs.sched⟩
    rcases h with ⟨-, h⟩ | ⟨-, h⟩
    · exact ⟨q, h, hq⟩
    · exact ⟨_, h, ⟨hq.ctl, hq.front, hq.auxFront, hq.host, hm.trans hb, hq.par, hq.sched⟩⟩

/-- Away from a qualifying boundary a tick step moves no frame, button or displayed state (41 R132, R134, R139). -/
theorem tick_quiet {s t : State} (h : (s.atBoundary && s.qualifies) = false) (ht : tick s = .next t) :
    t.frame = s.frame ∧ t.btn = s.btn ∧ t.store = s.store ∧ t.inp = s.inp := by
  obtain ⟨h1, h2, h3, h4⟩ := displayOrSwap_quiet h
  rcases tick_cases s with ⟨-, e⟩ | ⟨-, q, m, hf, -, -, -, e⟩
  · obtain rfl := Host.Outcome.next.inj (e.symm.trans ht)
    exact ⟨rfl, rfl, rfl, rfl⟩
  · rcases e with ⟨-, e⟩ | ⟨-, e⟩
    · obtain rfl := Host.Outcome.next.inj (e.symm.trans ht)
      exact ⟨hf.frame.trans h1, hf.btn.trans h2, hf.store.trans h3, hf.inp.trans h4⟩
    · obtain rfl := Host.Outcome.next.inj (e.symm.trans ht)
      exact ⟨hf.frame.trans h1, hf.btn.trans h2, hf.store.trans h3, hf.inp.trans h4⟩

/-! ### The invariants a tick keeps -/

/-- After the display or the swap, NEXT_PAT is the pattern of the successor cursor (40 R105, R108, 41 R138). -/
theorem displayOrSwap_nextPat (s : State) : (displayOrSwap s).drive.nextPat =
    pattern (displayOrSwap s).store.back (rowIndex (nextCursor s.drive.row s.drive.level).1)
      (nextCursor s.drive.row s.drive.level).2 := by
  unfold displayOrSwap
  split
  · rename_i hb
    split
    · have h : s.drive.row = 7#3 ∧ s.drive.level = 15#4 := by simpa [State.atBoundary] using hb
      rw [swapStep_eq, h.1, h.2]
      rfl
    · rfl
  · rfl

theorem tick_pipeline {s t : State} (hc : s.ctl.configured = true) (ht : tick s = .next t) (hf : t.faults = []) :
    t.pipeline := by
  rcases tick_cases s with ⟨h, -⟩ | ⟨-, q, m, hq, -, -, -, e⟩
  · rw [hc] at h; cases h
  · rcases e with ⟨h0, e⟩ | ⟨-, e⟩
    · obtain rfl := Host.Outcome.next.inj (e.symm.trans ht)
      exact absurd hf h0
    · obtain rfl := Host.Outcome.next.inj (e.symm.trans ht)
      have hs := displayOrSwap_frame s
      unfold State.pipeline advanceCursor
      simp only [hq.drive, hq.store, hs.row, hs.level]
      exact displayOrSwap_nextPat s

theorem frameDivOf_bounds : ∀ l : BitVec 2, 1 ≤ (frameDivOf l).toNat ∧ (frameDivOf l).toNat ≤ 8 := by decide

theorem divider_divc {s : State} (h : s.divcOk) : (divider s).divcOk := by
  have hb := frameDivOf_bounds s.ctl.frameDivLog2
  obtain ⟨h1, h2⟩ := h
  have e : (divider s).drive.divc = if s.drive.divc - 1 = 0#4 then s.frameDiv else s.drive.divc - 1 := rfl
  have ef : (divider s).frameDiv = s.frameDiv := rfl
  unfold State.divcOk
  rw [e, ef]
  have hsub : (s.drive.divc - 1).toNat = s.drive.divc.toNat - 1 := by
    rw [BitVec.toNat_sub]; simp; omega
  split
  · exact ⟨hb.1, Nat.le_refl _⟩
  · rename_i hne
    have : (s.drive.divc - 1).toNat ≠ 0 := fun hz => hne (BitVec.eq_of_toNat_eq (by simpa using hz))
    omega

theorem displayOrSwap_divc {s : State} (h : s.divcOk) : (displayOrSwap s).divcOk := by
  unfold displayOrSwap
  split
  · split
    · have := divider_divc h
      rw [swapStep_eq]
      exact this
    · exact divider_divc h
  · exact h

theorem displayOrSwap_rowEn (s : State) : (displayOrSwap s).rowEnOk := by
  unfold displayOrSwap
  split
  · split
    · rw [swapStep_eq]; exact Or.inl rfl
    · exact Or.inr ⟨rowIndex s.drive.row, rfl⟩
  · exact Or.inr ⟨rowIndex s.drive.row, rfl⟩

theorem displayOrSwap_btn {s : State} (h : s.btn.clean) : (displayOrSwap s).btn.clean := by
  unfold displayOrSwap
  split
  · split
    · rw [swapStep_eq]
      refine ⟨?_, h.1⟩
      show ((divider s).clockTaken.buttonsNow.setWidth 8).toNat < 64
      have := (divider s).clockTaken.buttonsNow.isLt
      rw [BitVec.toNat_setWidth]
      omega
    · exact h
  · exact h

/-- A tick step keeps the invariants of a configured block, unless it raises TOKEN_OOB. -/
theorem tick_inv {s t : State} (hc : s.ctl.configured = true) (hsound : s.soundOk) (hdivc : s.divcOk)
    (hbtn : s.btn.clean) (ht : tick s = .next t) (hf : t.faults = []) :
    t.pipeline ∧ t.soundOk ∧ t.divcOk ∧ t.btn.clean ∧ t.rowEnOk := by
  refine ⟨tick_pipeline hc ht hf, ?_⟩
  have hs := displayOrSwap_frame s
  have hd := displayOrSwap_divc hdivc
  have hb := displayOrSwap_btn hbtn
  have hr := displayOrSwap_rowEn s
  have hso : (displayOrSwap s).soundOk := by
    unfold State.soundOk State.toneOk at *
    rw [hs.snd, hs.toneOn]
    exact hsound
  rcases tick_cases s with ⟨h, -⟩ | ⟨-, q, m, hfr, -, hne, heq, e⟩
  · rw [hc] at h; cases h
  · have hqs : q.faults = [] → q.soundOk := by
      by_cases hrow : s.drive.row = 6#3
      · obtain ⟨q', hq', hs'⟩ := seqTick_sound hso
        obtain rfl := Host.Outcome.next.inj (hq'.symm.trans (heq hrow).1)
        exact hs'
      · rw [(hne hrow).1]
        exact fun _ => hso
    have hq2 : q.divcOk ∧ q.btn.clean ∧ q.rowEnOk := by
      unfold State.divcOk State.frameDiv State.rowEnOk at *
      rw [hfr.drive, hfr.ctl, hfr.btn, hfr.rowEn]
      exact ⟨hd, hb, hr⟩
    rcases e with ⟨h0, e⟩ | ⟨h0, e⟩
    · obtain rfl := Host.Outcome.next.inj (e.symm.trans ht)
      exact absurd hf h0
    · obtain rfl := Host.Outcome.next.inj (e.symm.trans ht)
      exact ⟨hqs h0, hq2⟩

/-- A tick step records at most one fault, a TOKEN_OOB (60 R263, R267). -/
theorem tick_faults {s t : State} (hf : s.faults = []) (ht : tick s = .next t) :
    t.faults = [] ∨ ∃ c, t.faults = [.tokenOob c] := by
  rcases tick_cases s with ⟨-, e⟩ | ⟨-, q, m, -, -, hne, heq, e⟩
  · obtain rfl := Host.Outcome.next.inj (e.symm.trans ht)
    exact Or.inl hf
  · have hd : (displayOrSwap s).faults = [] := (displayOrSwap_frame s).faults.trans hf
    have hqf : q.faults = [] ∨ ∃ c, q.faults = [.tokenOob c] := by
      by_cases hr : s.drive.row = 6#3
      · obtain ⟨q', hq', h⟩ := seqTick_faults hd
        obtain rfl := Host.Outcome.next.inj (hq'.symm.trans (heq hr).1)
        exact h
      · rw [(hne hr).1]
        exact Or.inl hd
    rcases e with ⟨-, e⟩ | ⟨-, e⟩
    · obtain rfl := Host.Outcome.next.inj (e.symm.trans ht)
      exact hqf
    · obtain rfl := Host.Outcome.next.inj (e.symm.trans ht)
      exact hqf

end Sys2Proof.Machine
end

