-- ==== Sys2Proof/Laws/Step.lean ====
section
/-!
SUPPORT. What a step of the machine can do, said once: it is one agent's step on the state with the schedule read
(spec/60_exceptions.md R261, R265).
-/

namespace Sys2Proof.Machine

/-- Reading the schedule touches only the model's own fields. -/
theorem turnTaken_eq (s : State) : s.turnTaken =
    { s with sched := s.turnTaken.sched, draws := s.turnTaken.draws } := by
  rcases h : s.sched with _ | ⟨g, gs⟩ <;> simp [State.turnTaken, h]

@[simp] theorem turnTaken_drive (s : State) : s.turnTaken.drive = s.drive := by rw [turnTaken_eq]
@[simp] theorem turnTaken_ctl (s : State) : s.turnTaken.ctl = s.ctl := by rw [turnTaken_eq]
@[simp] theorem turnTaken_store (s : State) : s.turnTaken.store = s.store := by rw [turnTaken_eq]
@[simp] theorem turnTaken_frame (s : State) : s.turnTaken.frame = s.frame := by rw [turnTaken_eq]
@[simp] theorem turnTaken_btn (s : State) : s.turnTaken.btn = s.btn := by rw [turnTaken_eq]
@[simp] theorem turnTaken_snd (s : State) : s.turnTaken.snd = s.snd := by rw [turnTaken_eq]
@[simp] theorem turnTaken_out (s : State) : s.turnTaken.out = s.out := by rw [turnTaken_eq]
@[simp] theorem turnTaken_inp (s : State) : s.turnTaken.inp = s.inp := by rw [turnTaken_eq]
@[simp] theorem turnTaken_faults (s : State) : s.turnTaken.faults = s.faults := by rw [turnTaken_eq]
@[simp] theorem turnTaken_host (s : State) : s.turnTaken.host = s.host := by rw [turnTaken_eq]
@[simp] theorem turnTaken_tmem (s : State) : s.turnTaken.tmem = s.tmem := by rw [turnTaken_eq]
@[simp] theorem turnTaken_par (s : State) : s.turnTaken.par = s.par := by rw [turnTaken_eq]

theorem turnTaken_cons {s : State} {g : Agent} {gs : List Agent} (h : s.sched = g :: gs) :
    s.turnTaken = { s with sched := gs } := by simp [State.turnTaken, h]

theorem turnTaken_nil {s : State} (h : s.sched = []) : s.turnTaken = { s with draws := s.draws + 1 } := by
  simp [State.turnTaken, h]

/-- A step of a state with no fault is one agent's step. -/
theorem step_safe {s : State} (h : s.faults = []) : step s = agentStep (acting s) s.turnTaken := by
  simp [step, runStep, h]

/-- The cases of a step that answers a next state. -/
theorem step_cases {s t : State} (h : step s = .next t) : s.faults = [] ∧
    ((acting s = .tick ∧ tick s.turnTaken = .next t) ∨
      (acting s = .host ∧ hostEnabled s = true ∧ hostStep s.turnTaken = .next t)) := by
  unfold step runStep at h
  split at h
  · rename_i hf
    refine ⟨hf, ?_⟩
    rcases ha : acting s with _ | _
    · rw [ha] at h; exact Or.inl ⟨rfl, h⟩
    · rw [ha] at h
      refine Or.inr ⟨rfl, ?_, h⟩
      unfold acting at ha
      by_contra hc
      simp [hc] at ha
  · cases h

/-- A tick step is always there to be taken (00 R9, 70 R295). -/
theorem agentStep_tick (s : State) : ∃ t, agentStep .tick s = .next t ∧ TickFrame s t := tick_frame s

/-- The cases of a run of agents: one step, then the rest unless the step raised. -/
theorem runAgents_cons {g : Agent} {gs : List Agent} {s t : State} (h : agentStep g s = .next t) :
    runAgents (g :: gs) s = if t.faults = [] then runAgents gs t else .next t := by
  simp [runAgents, h]

/-- The induction of every claim about an interleaving. `P k` is what holds after `k` host steps; a tick step keeps it and a
host step takes it to `P (k + 1)`. Then a run of the agents ends in `P` at its number of host steps with no fault, or in a
fault of a tick step, or in a fault of a host step. -/
theorem runAgents_induct {n : Nat} {P : Nat → State → Prop}
    (htick : ∀ k s t, P k s → TickFrame s t → P k t)
    (hhost : ∀ k s, k < n → P k s → s.faults = [] →
      ∃ t, hostStep s = .next t ∧ (t.faults = [] → P (k + 1) t)) :
    ∀ (gs : List Agent) (k : Nat) (s : State), k + gs.count .host ≤ n → P k s → s.faults = [] →
      ∃ u, runAgents gs s = .next u ∧
        ((u.faults = [] ∧ P (k + gs.count .host) u) ∨
          (∃ m, k ≤ m ∧ m ≤ k + gs.count .host ∧ P m u ∧ ∃ c, u.faults = [.tokenOob c]) ∨
          (∃ m s', k ≤ m ∧ m < k + gs.count .host ∧ P m s' ∧ s'.faults = [] ∧ hostStep s' = .next u ∧
            u.faults ≠ [])) := by
  intro gs
  induction gs with
  | nil => intro k s _ hp hf; exact ⟨s, rfl, Or.inl ⟨hf, by simpa using hp⟩⟩
  | cons g gs ih =>
    intro k s hn hp hf
    cases g with
    | tick =>
      have hcount : (Agent.tick :: gs).count .host = gs.count .host := by simp
      rw [hcount] at hn ⊢
      obtain ⟨t, ht, hfr⟩ := agentStep_tick s
      have hpt := htick k s t hp hfr
      rw [runAgents_cons ht]
      split
      · rename_i hft
        exact ih k t hn hpt hft
      · rename_i hft
        refine ⟨t, rfl, Or.inr (Or.inl ⟨k, Nat.le_refl _, by omega, hpt, ?_⟩)⟩
        rcases tick_faults hf ht with h | h
        · exact absurd h hft
        · exact h
    | host =>
      have hcount : (Agent.host :: gs).count .host = gs.count .host + 1 := by simp
      rw [hcount] at hn ⊢
      obtain ⟨t, ht, hpt⟩ := hhost k s (by omega) hp hf
      rw [runAgents_cons (g := .host) ht]
      split
      · rename_i hft
        obtain ⟨u, hu, h⟩ := ih (k + 1) t (by omega) (hpt hft) hft
        rw [show k + (gs.count .host + 1) = k + 1 + gs.count .host by omega]
        refine ⟨u, hu, ?_⟩
        rcases h with h | ⟨m, h1, h2, h3⟩ | ⟨m, s', h1, h2, h3⟩
        · exact Or.inl h
        · exact Or.inr (Or.inl ⟨m, by omega, h2, h3⟩)
        · exact Or.inr (Or.inr ⟨m, s', by omega, h2, h3⟩)
      · rename_i hft
        exact ⟨t, rfl, Or.inr (Or.inr ⟨k, s, Nat.le_refl _, by omega, hp, hf, ht, hft⟩)⟩

/-! ### Small lemmas of the sequencer, the sweep and the host -/

/-- A fetch that answers a byte. -/
theorem fetch_some {s t : State} {b : Byte} (h : fetch s = (some b, t)) :
    s.snd.cursor.toNat < s.tokenSize ∧ b = s.tokenByte s.snd.cursor.toNat ∧ t = fetched s := by
  by_cases hc : s.snd.cursor.toNat < s.tokenSize
  · rw [fetch_byte hc] at h
    simp at h
    exact ⟨hc, h.1.symm, h.2.symm⟩
  · rw [fetch_oob (by omega)] at h
    simp at h

/-- A scan, one token at a time. -/
theorem scan_fetch {s t u : State} {b : Byte} (h : fetch s = (some b, t))
    (hu : exec (decodeToken b) t = .next u) :
    scan s = if endsScan (decodeToken b) then .next u else scan u := by
  obtain ⟨hc, rfl, rfl⟩ := fetch_some h
  exact scan_token hc hu

/-- The last of a row of sequencer ticks. -/
theorem seqTicks_snoc : ∀ (n : Nat) (s t : State), s.faults = [] → seqTicks n s = .next t → t.faults = [] →
    seqTicks (n + 1) s = seqTick t := by
  intro n
  induction n with
  | zero =>
    intro s t hs h ht
    obtain rfl := Host.Outcome.next.inj h
    obtain ⟨u, hu, -⟩ := seqTick_frame s
    simp [seqTicks, hu]
  | succ n ih =>
    intro s t hs h ht
    obtain ⟨u, hu, -⟩ := seqTick_frame s
    rw [seqTicks, hu] at h
    rw [seqTicks, hu]
    by_cases hf : u.faults = []
    · simp [hf] at h ⊢
      exact ih u t hf h ht
    · simp [hf] at h
      subst h
      exact absurd ht hf

theorem cursorAfter_succ (n : Nat) : ∀ c, cursorAfter (n + 1) c =
    nextCursor (cursorAfter n c).1 (cursorAfter n c).2 := by
  induction n with
  | zero => intro c; rfl
  | succ n ih => intro c; rw [cursorAfter, ih]; rfl

/-- The cursor of a tick step that raised nothing. -/
theorem tick_cursor {s t : State} (hc : s.ctl.configured = true) (h : tick s = .next t) (hf : t.faults = []) :
    (t.drive.row, t.drive.level) = nextCursor s.drive.row s.drive.level := by
  rcases tick_cases s with ⟨h', -⟩ | ⟨-, q, m, h2, -, -, -, h4⟩
  · rw [hc] at h'; cases h'
  · rcases h4 with ⟨h5, h4⟩ | ⟨_, h4⟩
    · obtain rfl := Host.Outcome.next.inj (h4.symm.trans h); exact absurd hf h5
    · obtain rfl := Host.Outcome.next.inj (h4.symm.trans h)
      unfold advanceCursor
      simp only [h2.drive, (displayOrSwap_frame s).row, (displayOrSwap_frame s).level]

theorem frameDivLog2Of_pow (l : BitVec 2) : frameDivLog2Of (2 ^ l.toNat) = some l := by revert l; decide

/-- SETUP with a legal divisor. -/
theorem exec_setup_pow (l : BitVec 2) (s : State) :
    exec (.setup (2 ^ l.toNat)) s = .next ((s.resetWith l).answer none) := by
  rcases exec_setup (2 ^ l.toNat) s with ⟨l', h, e⟩ | ⟨h, e⟩
  · rw [frameDivLog2Of_pow] at h; obtain rfl := Option.some.inj h; exact e
  · rw [frameDivLog2Of_pow] at h; cases h

/-- A step of a routine, from its primitive's own answer. -/
theorem hostStep_routine {s t : State} {r : Routine} {i : Instr} (hw : s.host.wait = none)
    (hr : s.host.routine = some r) (hp : r.primitive = some i) (h : exec i s = .next t) :
    hostStep s = .next { t with host := { t.host with routine := r.after t.host.result } } := by
  simp [hostStep, hw, hr, routineStep, hp, h, routineAfter]

theorem exec_getPixel_cell {s : State} (h : s.ctl.configured = true) (k : Cell) :
    exec (.getPixel (coord (Cell.x k)) (coord (Cell.y k))) s =
      .next (s.answer (some (.colour (Picture.cell s.store.front k)))) := by
  show execGetPixel _ _ s = _
  unfold execGetPixel
  rw [ifConfigured_on h, inMatrix_coord]
  simp [complete, Picture.pixel]

theorem exec_setPixel_cell {s : State} (h : s.ctl.configured = true) (k : Cell) (c : Colour) :
    exec (.setPixel (coord (Cell.x k)) (coord (Cell.y k)) c) s =
      .next ((s.setFront (Cell.x k) (Cell.y k) c).answer none) := by
  show execSetPixel _ _ _ s = _
  unfold execSetPixel
  rw [ifConfigured_on h, inMatrix_coord]
  rfl

end Sys2Proof.Machine
end

