-- ==== Sys2Proof/Machine/Assembler.lean ====
section
/-!
DEFINITION. The token assembler (spec/30_encoding.md R90, R91) over parsed lines: mnemonics, .byte, labels and the
pseudo-instructions; and the note names of R87. The text syntax itself is a notation of the spec's tests and is not read.
-/

namespace Sys2Proof.Machine

/-- A note by its MIDI name, n = 12 × (octave + 1) + semitone (30 R87), none outside 0 to 127. -/
def midiNote (octave : Int) (semitone : Nat) : Option (BitVec 7) :=
  let n := 12 * (octave + 1) + semitone
  if 0 ≤ n ∧ n < 128 ∧ semitone < 12 then some (BitVec.ofInt 7 n) else none

/-- The duration code of /1, /2, ... /64 (30 R90). -/
def durationOf (denominator : Nat) : Option (BitVec 3) :=
  match denominator with
  | 1 => some 0
  | 2 => some 1
  | 4 => some 2
  | 8 => some 3
  | 16 => some 4
  | 32 => some 5
  | 64 => some 6
  | _ => none

/-- The tempo index of BPM b (30 R91): the entry with TEMPO_TABLE[i] = 7200 / b, for the 16 bpm values of R85. -/
def bpmIndex (b : Nat) : Option (BitVec 4) :=
  (List.range 16).findSome? fun k =>
    if (Config.tempoTable.toList.getD k 0).toNat * b = 7200 then some (BitVec.ofNat 4 k) else none

/-- A line of token assembly (30 R90, R91). -/
inductive AsmLine where
  | label (name : String)
  | tok (t : Instr)
  | byte (v : Byte)
  | bpm (b : Nat)
  | rest (denominator : Nat)
  | tone (n : BitVec 7) (denominator : Nat)
  | nop
  deriving DecidableEq, Repr

/-- The bytes a line emits; none where it is not legal (30 R90, R91). -/
def asmBytes : AsmLine → Option (List Byte)
  | .label _ => some []
  | .tok t => if t.language = .token ∧ t.wellFormed then some (encode t) else none
  | .byte v => some [v]
  | .bpm b => (bpmIndex b).map fun k => encode (.tempo k)
  | .rest d => (durationOf d).map fun c => encode (.pause c)
  | .tone n d => (durationOf d).map fun c => encode (.note n) ++ encode (.play c)
  | .nop => some [0x01]

/-- The bytes of a program, from an address on, and the addresses of its labels. -/
def assemble : Nat → List AsmLine → Option (List Byte × List (String × Nat))
  | _, [] => some ([], [])
  | a, l :: ls =>
    match asmBytes l with
    | none => none
    | some bs =>
      match assemble (a + bs.length) ls with
      | none => none
      | some (rest, names) =>
        match l with
        | .label name => some (bs ++ rest, (name, a) :: names)
        | .tok _ => some (bs ++ rest, names)
        | .byte _ => some (bs ++ rest, names)
        | .bpm _ => some (bs ++ rest, names)
        | .rest _ => some (bs ++ rest, names)
        | .tone _ _ => some (bs ++ rest, names)
        | .nop => some (bs ++ rest, names)

end Sys2Proof.Machine
end

