-- ==== Sys2Proof/Tests/Slice0.lean ====
section
/-!
SUPPORT. Tests: ill-formed terms refused, words written out bit by bit from spec/30_encoding.md, single steps from the
vectors of spec/95_test_vectors.md (the section is named at each group), and a witness for the hypotheses of each statement
that has some.
-/

namespace Sys2Proof.Tests

open Sys2Proof Sys2Proof.Machine

/-! ### Small states -/

/-- The next state of an answer. -/
def next? : Answer → Option State
  | .next t => some t
  | .fault _ => none
  | .refused _ => none

/-- Bytes stored from an address on. -/
def placed : Memory → Nat → List Byte → Memory
  | m, _, [] => m
  | m, a, b :: bs => placed (Memory.write m a b) (a + 1) bs

/-- After SETUP 1, with a stream at 0x0100 about to be scanned (95 2.6). -/
def stream (bs : List Byte) : State :=
  { State.reset with
    snd := { State.reset.snd with state := .startRequested, cursor := 0x100, cursorValid := true }
    tmem := { bytes := placed [] 0x100 bs, duties := [{ start := 0x100, raced := [] }] } }

/-- After SETUP 1, with another sound state. -/
def sounding (st : SndState) (dur thr : BitVec 7) (subtick : BitVec 8) : State :=
  { State.reset with
    snd := { State.reset.snd with
      state := st, cursor := 0x100, cursorValid := true, dur := dur, thr := thr, subtick := subtick } }

/-- Before any SETUP. -/
def unset : State := State.powerOn State.reset

/-- After SETUP 1, at another cursor and divisor count. -/
def atCursor (row : BitVec 3) (level : Level) (divc : BitVec 4) : State :=
  { State.reset with drive := { row := row, level := level, nextPat := 0, divc := divc } }

/-- After SETUP 1, waiting in FRAME_SYNC. -/
def waiting (signal : BitVec 8) : State :=
  { State.reset with host := { State.reset.host with wait := some signal } }

/-- After SETUP 1, with an agent's turn next. -/
def turnOf (g : Agent) : State := { State.reset with sched := [g] }

/-- After SETUP 1, in a routine. -/
def inRoutine (r : Routine) : State := { State.reset with host := { State.reset.host with routine := some r } }

/-! ### WellFormed refuses (30 R81, R83, R88, R89) -/

theorem test_illformed_duration : Instr.wellFormed (.play 7) = false ∧ Instr.wellFormed (.playr 7) = false ∧
    Instr.wellFormed (.plays 7) = false ∧ Instr.wellFormed (.pause 7) = false ∧ Instr.wellFormed (.play 6) = true := by
  decide

theorem test_illformed_fadeSpeed : Instr.wellFormed (.fadeup 0) = false ∧ Instr.wellFormed (.fadedn 0) = false ∧
    Instr.wellFormed (.fadeup 7) = true := by decide

theorem test_illformed_reservedToken : Instr.wellFormed (.unrecognized 0x00) = false ∧
    Instr.wellFormed (.unrecognized 0x16) = false ∧ Instr.wellFormed (.unrecognized 0x69) = false ∧
    Instr.wellFormed (.unrecognized 0x80) = false ∧ Instr.wellFormed (.unrecognized 0x68) = true := by decide

theorem test_illformed_int8 : Instr.wellFormed (.setPixel 128 0 0) = false ∧
    Instr.wellFormed (.setPixelS 0 (-129) 0) = false ∧ Instr.wellFormed (.getPixel 0 128) = false ∧
    Instr.wellFormed (.getPixelS 128 0) = false ∧ Instr.wellFormed (.auxEnable 128) = false ∧
    Instr.wellFormed (.auxDisable 128) = false ∧ Instr.wellFormed (.auxIsEnabled 128) = false ∧
    Instr.wellFormed (.buttonPressed 128) = false ∧ Instr.wellFormed (.buttonDown 128) = false ∧
    Instr.wellFormed (.buttonReleased 128) = false ∧ Instr.wellFormed (.fillRect 0 0 0 128 0) = false ∧
    Instr.wellFormed (.fillRectS 0 0 128 0 0) = false ∧ Instr.wellFormed (.fillRect 0 128 0 0 0) = false ∧
    Instr.wellFormed (.fillRectS 128 0 0 0 0) = false ∧ Instr.wellFormed (.getPixelS 127 (-128)) = true := by decide

theorem test_illformed_listedId : Instr.wellFormed (.badCommand 0x01) = false ∧
    Instr.wellFormed (.badCommand 0x17) = false ∧ Instr.wellFormed (.badCommand 0x24) = false ∧
    Instr.wellFormed (.badCommand 0x18) = true := by decide

/-! ### Words written out from the tables (30 R81, R89, 95 2.5) -/

theorem test_decode_end : decode .token [0b00000000] = .ok .endTok := by decide
theorem test_decode_play : decode .token [0b00010010] = .ok (.play 2) ∧ decode .token [0b00010110] = .ok (.play 6) := by
  decide
theorem test_decode_playr : decode .token [0b00100000] = .ok (.playr 0) ∧ decode .token [0b00100110] = .ok (.playr 6) := by
  decide
theorem test_decode_plays : decode .token [0b00110000] = .ok (.plays 0) ∧ decode .token [0b00110101] = .ok (.plays 5) := by
  decide
theorem test_decode_pause : decode .token [0b01000011] = .ok (.pause 3) ∧ decode .token [0b01000110] = .ok (.pause 6) := by
  decide
theorem test_decode_tempo : decode .token [0b01010000] = .ok (.tempo 0) ∧ decode .token [0b01011111] = .ok (.tempo 15) := by
  decide
theorem test_decode_fadeoff : decode .token [0b01100000] = .ok .fadeoff := by decide
theorem test_decode_fadeup : decode .token [0b01100001] = .ok (.fadeup 1) ∧ decode .token [0b01100111] = .ok (.fadeup 7) := by
  decide
theorem test_decode_fadedn : decode .token [0b01101001] = .ok (.fadedn 1) ∧ decode .token [0b01101111] = .ok (.fadedn 7) := by
  decide
theorem test_decode_note : decode .token [0b10000000] = .ok (.note 0) ∧ decode .token [0b11000101] = .ok (.note 69) ∧
    decode .token [0b11111111] = .ok (.note 127) := by decide
theorem test_decode_unrecognized : [0x01, 0x0F, 0x17, 0x1F, 0x27, 0x2F, 0x37, 0x3F, 0x47, 0x4F, 0x68, 0x70, 0x7F].all
    (fun b => decide (decode .token [b] = .ok (.unrecognized b))) = true := by decide
theorem test_decode_setup : decode .command [0x01, 0x04, 0x00, 0x00, 0x00] = .ok (.setup 4) ∧
    decode .command [0x01, 0xFF, 0xFF, 0xFF, 0xFF] = .ok (.setup (-1)) ∧
    decode .command [0x01, 0x00, 0x00, 0x00, 0x00, 0x01] = .ok (.setup 4294967296) ∧
    decode .command [0x01, 0x02] = .ok (.setup 2) ∧ decode .command [0x01] = .error (.operandLength 0x01) := by decide
theorem test_decode_clear : decode .command [0x02] = .ok .clear := by decide
theorem test_decode_clearPixels : decode .command [0x03] = .ok .clearPixels := by decide
theorem test_decode_setPixel : decode .command [0x04, 0x03, 0x05, 0x00, 0x0F] = .ok (.setPixel 3 5 0xF00) := by decide
theorem test_decode_setPixelS : decode .command [0x05, 0x08, 0x00, 0xFF, 0x0F] = .ok (.setPixelS 8 0 0xFFF) := by decide
theorem test_decode_getPixel : decode .command [0x06, 0xFF, 0x00] = .ok (.getPixel (-1) 0) := by decide
theorem test_decode_getPixelS : decode .command [0x07, 0x7F, 0x80] = .ok (.getPixelS 127 (-128)) := by decide
theorem test_decode_setAux : decode .command [0x08, 0x81] = .ok (.setAux 0x81) := by decide
theorem test_decode_getAux : decode .command [0x09] = .ok .getAux := by decide
theorem test_decode_auxEnable : decode .command [0x0A, 0x07] = .ok (.auxEnable 7) := by decide
theorem test_decode_auxDisable : decode .command [0x0B, 0x00] = .ok (.auxDisable 0) := by decide
theorem test_decode_auxIsEnabled : decode .command [0x0C, 0xFF] = .ok (.auxIsEnabled (-1)) := by decide
theorem test_decode_getButtonsCur : decode .command [0x0D] = .ok .getButtonsCur := by decide
theorem test_decode_getButtonsLast : decode .command [0x0E] = .ok .getButtonsLast := by decide
theorem test_decode_buttonPressed : decode .command [0x0F, 0x01] = .ok (.buttonPressed 1) := by decide
theorem test_decode_buttonDown : decode .command [0x10, 0x05] = .ok (.buttonDown 5) := by decide
theorem test_decode_buttonReleased : decode .command [0x11, 0x06] = .ok (.buttonReleased 6) := by decide
theorem test_decode_playSound : decode .command [0x12, 0x00, 0x01] = .ok (.playSound 0x0100) := by decide
theorem test_decode_stopSound : decode .command [0x13] = .ok .stopSound := by decide
theorem test_decode_disableSound : decode .command [0x14] = .ok .disableSound := by decide
theorem test_decode_getPlayedNote : decode .command [0x15] = .ok .getPlayedNote := by decide
theorem test_decode_frameSync : decode .command [0x16] = .ok .frameSync := by decide
theorem test_decode_getLoadSample : decode .command [0x17] = .ok .getLoadSample := by decide
theorem test_decode_fillRect : decode .command [0x20, 0x00, 0x01, 0x02, 0x03, 0x0F, 0x00] = .ok (.fillRect 0 1 2 3 0x00F) := by
  decide
theorem test_decode_fillRectS : decode .command [0x21, 0xFE, 0xFF, 0x03, 0x04, 0x11, 0x01] =
    .ok (.fillRectS (-2) (-1) 3 4 0x111) := by decide
theorem test_decode_scroll : decode .command [0x22, 0x00] = .ok (.scroll .left) ∧
    decode .command [0x22, 0x01] = .ok (.scroll .right) ∧ decode .command [0x22, 0x02] = .ok (.scroll .down) ∧
    decode .command [0x22, 0x03] = .ok (.scroll .up) := by decide
theorem test_decode_fadePixels : decode .command [0x23] = .ok .fadePixels := by decide
theorem test_decode_frameSyncShowLoad : decode .command [0x24] = .ok .frameSyncShowLoad := by decide
theorem test_decode_badCommand : decode .command [0x18] = .ok (.badCommand 0x18) ∧
    decode .command [0x00, 0x01] = .ok (.badCommand 0x00) ∧ decode .command [0xFF] = .ok (.badCommand 0xFF) := by decide
theorem test_decode_errors : decode .command [] = .error .noBytes ∧ decode .command [0x04, 0x01] = .error (.operandLength 0x04) ∧
    decode .token [] = .error .noBytes ∧ decode .token [0x00, 0x00] = .error .tokenLength := by decide

/-! ### The opcode table's words run as the first instruction after reset -/

theorem test_tableWord_token : decodeTableWord 8 0xC5 = some (.note 69) ∧ decodeTableWord 8 0x53 = some (.tempo 3) := by decide
theorem test_tableWord_command : decodeTableWord 8 0x02 = some .clear ∧ decodeTableWord 8 0x01 = some (.setup 0) ∧
    decodeTableWord 8 0x25 = some (.playr 5) := by decide
theorem test_fetchWord_command : (next? (step (State.reset.withFetchWord 8 0x16))).map (·.host.wait) = some (some 0) := by
  decide
theorem test_fetchWord_token : (next? (step (State.reset.withFetchWord 8 0x43))).map (fun t => (t.snd.state, t.snd.dur)) =
    some (.paused, 8) := by decide +kernel

/-! ### Tokens: one scan each (95 2.6) -/

theorem test_end : (next? (scan (stream [0x00]))).map (fun t => (t.snd.state, t.snd.cursorValid, t.snd.cursor)) =
    some (.idle, false, 0x101) := by decide +kernel
theorem test_play : (next? (scan (stream [0xC5, 0x12]))).map
    (fun t => (t.snd.state, t.snd.dur, t.snd.thr, t.snd.subtick, t.out.toneOn)) =
    some (.playing, 16, 0, 60, true) := by decide +kernel
theorem test_play_period : (next? (scan (stream [0xC5, 0x12]))).map (fun t => (t.out.tonePeriod, t.snd.note, t.snd.cursor)) =
    some (Config.notePeriod 69, 69, 0x102) := by rfl
theorem test_playr : (next? (scan (stream [0xC5, 0x24]))).map (fun t => (t.snd.state, t.snd.dur, t.snd.thr)) =
    some (.playing, 4, 1) := by decide +kernel
theorem test_plays : (next? (scan (stream [0xC5, 0x30]))).map (fun t => (t.snd.state, t.snd.dur, t.snd.thr)) =
    some (.playing, 64, 32) := by decide +kernel
theorem test_plays_shortest : (next? (scan (stream [0xC5, 0x36]))).map (fun t => (t.snd.dur, t.snd.thr)) =
    some (1, 0) := by decide +kernel
theorem test_pause : (next? (scan (stream [0x43]))).map
    (fun t => (t.snd.state, t.snd.dur, t.snd.thr, t.snd.subtick, t.out.toneOn, t.snd.note)) =
    some (.paused, 8, 0, 60, false, 0) := by decide +kernel
theorem test_tempo : (next? (scan (stream [0x50, 0x46]))).map (fun t => (t.snd.tempo, t.snd.subtick, t.snd.dur)) =
    some (150, 150, 1) := by decide +kernel
theorem test_tempo_kept : (next? (scan (stream [0x50, 0x00]))).map (fun t => (t.snd.state, t.snd.tempo)) =
    some (.idle, 150) := by decide +kernel
theorem test_fadeup : (next? (scan (stream [0x63, 0x80, 0x10]))).map (fun t => (t.snd.fadeDir, t.snd.fadeSpeed, t.snd.note)) =
    some (.up, 3, 0) := by decide +kernel
theorem test_fadedn_fadeoff : (next? (scan (stream [0x6F, 0x60, 0x10]))).map
    (fun t => (t.snd.fadeDir, t.snd.fadeSpeed, t.snd.cursor)) = some (.off, 0, 0x103) := by decide +kernel
theorem test_note_lastWins : (next? (scan (stream [0xC5, 0xBC, 0x12]))).map (·.snd.note) = some 60 := by decide +kernel
theorem test_unrecognized : (next? (scan (stream [0x01, 0x68, 0x7F, 0x00]))).map (fun t => (t.snd.state, t.snd.cursor)) =
    some (.idle, 0x104) := by decide +kernel

/-! ### Countdown and fade (95 2.7) -/

theorem test_countdown_timer : (next? (seqTick (sounding .playing 5 0 2))).map (fun t => (t.snd.subtick, t.snd.dur)) =
    some (1, 5) := by decide
theorem test_countdown_unit : (next? (seqTick (sounding .playing 5 0 1))).map (fun t => (t.snd.subtick, t.snd.dur)) =
    some (60, 4) := by decide
theorem test_countdown_cut : (next? (seqTick (sounding .playing 2 1 1))).map
    (fun t => (t.snd.subtick, t.snd.dur, t.out.toneOn, t.snd.state)) = some (60, 1, false, .paused) := by decide
theorem test_countdown_end : (next? (seqTick (sounding .paused 1 1 1))).map (fun t => (t.snd.dur, t.snd.state, t.snd.cursor)) =
    some (0, .idle, 0x101) := by decide +kernel
theorem test_fade_clamps : fadePeriod .up 7 3 = 0 ∧ fadePeriod .up 3 1000 = 997 ∧ fadePeriod .down 7 0xFFFA = 0xFFFF ∧
    fadePeriod .down 7 0xFFFF = 0xFFFF := by decide
theorem test_fade_retunes : (fadeTick { sounding .playing 5 0 2 with
    snd := { (sounding .playing 5 0 2).snd with fadeDir := .down, fadeSpeed := 7 }
    out := { rowEn := 0, colOut := 0, toneOn := true, tonePeriod := 0xFFFF, events := [] } }).out.events =
    [.tonePeriod 0xFFFF] := by decide

/-! ### Fetch faults (95 2.8) -/

/-- 95 2.8: 16 bytes of token memory, C5 80 at address 14. -/
def shortMemory (cursor : BitVec 17) : State :=
  { stream [] with
    par := { (stream []).par with tokenMemSize := 16 }
    tmem := { bytes := placed [] 14 [0xC5, 0x80], duties := [{ start := 14, raced := [] }] }
    snd := { (stream []).snd with cursor := cursor } }

theorem test_oob_after_stream : (next? (scan (shortMemory 14))).map (fun t => (t.faults, t.snd.note, t.snd.cursor)) =
    some ([.tokenOob 16], 0, 16) := by decide +kernel
theorem test_oob_first_fetch : (next? (seqTick (shortMemory 32))).map (fun t => (t.faults, t.snd.state, t.snd.cursor)) =
    some ([.tokenOob 32], .idle, 32) := by decide +kernel
theorem test_quiescent : step { State.reset with faults := [.badDivisor 3] } = .fault .quiescent := by rfl

/-! ### The display (95 2.1 to 2.4) -/

theorem test_nextCursor : nextCursor 0 0 = (1, 0) ∧ nextCursor 6 3 = (7, 3) ∧ nextCursor 7 3 = (0, 4) ∧
    nextCursor 7 15 = (0, 0) ∧ nextCursor 3 15 = (4, 15) := by decide

/-- 95 2.2: one pixel of row 0. -/
def onePixel (x : Fin 8) (c : Colour) : Picture := Picture.withPixel blackPicture x 0 c

theorem test_pattern : pattern (onePixel 2 0x50F) 0 4 = 0x040004 ∧ pattern (onePixel 2 0x50F) 0 5 = 0x000004 ∧
    pattern (onePixel 2 0x50F) 0 15 = 0 ∧
    pattern (Picture.withPixel (onePixel 0 0x100) 7 0 0x010) 0 0 = 0x018000 := by decide +kernel

theorem test_displayStep : (displayStep { State.reset with
    drive := { row := 2, level := 0, nextPat := 0x010000, divc := 1 }
    store := { State.reset.store with auxActive := 0x81 }
    out := { State.reset.out with events := [] } }).out.events =
    [.rowEn 0x00, .colOut 0x81010000, .rowEn 0x04] := by decide +kernel

theorem test_divider : (divider { atCursor 7 15 1 with ctl := { frameDivLog2 := 3, configured := true } }).drive.divc = 8 ∧
    (divider (atCursor 7 15 2)).drive.divc = 1 := by decide

/-- 95 2.4, with the inputs of the vectors. -/
def swapping (meas : MeasState) (lastTs now : BitVec 32) : State :=
  { atCursor 7 15 1 with
    frame := { count := 41, signal := 0xFF, lastTs := lastTs, sweepDur := 0, meas := meas }
    btn := { cur := 0x02, prev := 0x00 }
    store := { State.reset.store with front := onePixel 2 0x50F, auxFront := 0x81 }
    inp := { clock := [now], buttons := [0b111111] } }

theorem test_swap_counts : (next? (tick (swapping .noBoundary 500 8833))).map
    (fun t => (t.frame, t.btn)) =
    some ({ count := 42, signal := 0x00, lastTs := 8833, sweepDur := 0, meas := .discarded },
      { cur := 0x3F, prev := 0x02 }) := by decide +kernel
theorem test_swap_measures : (swapStep (swapping .valid 0xFFFFFF00 0x00000100)).frame.sweepDur = 0x200 ∧
    (swapStep (swapping .discarded 1000 9333)).frame.sweepDur = 8333 := by decide +kernel
theorem test_swap_copies : (next? (tick (swapping .noBoundary 500 8833))).map
    (fun t => (Picture.pixel t.store.back 2 0, t.store.auxActive, t.drive.nextPat, t.out.rowEn)) =
    some (0x50F, 0x81, 0x040004, 0x00) := by decide +kernel

/-! ### Host commands (95 2.9) -/

theorem test_notConfigured : (next? (exec (.setPixel 0 0 1) unset)).map (·.faults) = some [.notConfigured 0x04] := by decide
theorem test_badDivisor : (next? (exec (.setup 3) unset)).map (fun t => (t.faults, t.ctl.configured)) =
    some ([.badDivisor 3], false) := by decide
theorem test_setup : (next? (exec (.setup 2) { unset with inp := { clock := [500], buttons := [] } })).map
    (fun t => (t.ctl, t.drive.divc, t.frame.lastTs, t.snd.tempo, t.snd.state)) =
    some ({ frameDivLog2 := 1, configured := true }, 2, 500, 60, .idle) := by decide
theorem test_badCommand : (next? (exec (.badCommand 0x18) State.reset)).map (·.faults) = some [.badCommand 0x18] ∧
    (next? (exec (.badCommand 0x18) unset)).map (·.faults) = some [.notConfigured 0x18] := by decide
theorem test_setPixel : (next? (exec (.setPixel 3 5 0xF00) State.reset)).map (fun t => Picture.pixel t.store.front 3 5) =
    some 0xF00 := by decide
theorem test_setPixel_range : (next? (exec (.setPixel 8 0 0xFFF) State.reset)).map (·.faults) =
    some [.uncheckedRange 8 0] := by decide
theorem test_setPixelS : (next? (exec (.setPixelS 8 0 0xFFF) State.reset)).map (fun t => (t.faults, t.store.front)) =
    some ([], blackPicture) := by decide +kernel
theorem test_getPixel : (next? (exec (.getPixel 2 0) (swapping .valid 0 0))).map (·.host.result) =
    some (some (.colour 0x50F)) := by decide
theorem test_getPixel_range : (next? (exec (.getPixel (-1) 0) State.reset)).map (·.faults) =
    some [.uncheckedRange (-1) 0] := by decide
theorem test_getPixelS : (next? (exec (.getPixelS (-1) 2) State.reset)).map (·.host.result) =
    some (some (.colour 0)) := by decide
theorem test_clear : (next? (exec .clear (swapping .valid 0 0))).map (fun t => (t.store.front, t.store.auxFront)) =
    some (blackPicture, 0) := by decide +kernel
theorem test_clearPixels : (next? (exec .clearPixels (swapping .valid 0 0))).map (fun t => (t.store.front, t.store.auxFront)) =
    some (blackPicture, 0x81) := by decide +kernel
theorem test_setAux : (next? (exec (.setAux 0x81) State.reset)).map (fun t => (t.store.auxFront, t.store.auxActive)) =
    some (0x81, 0) := by decide
theorem test_getAux : (next? (exec .getAux (swapping .valid 0 0))).map (·.host.result) = some (some (.mask 0x81)) := by decide
theorem test_auxEnable : (next? (exec (.auxEnable 7) State.reset)).map (·.store.auxFront) = some 0x80 ∧
    (next? (exec (.auxEnable 8) State.reset)).map (·.store.auxFront) = some 0x00 := by decide
theorem test_auxDisable : (next? (exec (.auxDisable 0) (swapping .valid 0 0))).map (·.store.auxFront) = some 0x80 := by decide
theorem test_auxIsEnabled : (next? (exec (.auxIsEnabled 7) (swapping .valid 0 0))).map (·.host.result) =
    some (some (.flag true)) ∧
    (next? (exec (.auxIsEnabled (-1)) (swapping .valid 0 0))).map (·.host.result) = some (some (.flag false)) := by decide

/-- After SETUP 1, with the button bytes. -/
def pressing (cur prev : Byte) : State := { State.reset with btn := { cur := cur, prev := prev } }

theorem test_getButtons : (next? (exec .getButtonsCur (pressing 0x3F 0x01))).map (·.host.result) = some (some (.mask 0x3F)) ∧
    (next? (exec .getButtonsLast (pressing 0x3F 0x01))).map (·.host.result) = some (some (.mask 0x01)) := by decide
theorem test_buttonPressed : (next? (exec (.buttonPressed 5) (pressing 0x3F 0x00))).map (·.host.result) =
    some (some (.flag true)) ∧
    (next? (exec (.buttonPressed 6) (pressing 0xFF 0x00))).map (·.host.result) = some (some (.flag false)) := by decide
theorem test_buttonDown : (next? (exec (.buttonDown 1) (pressing 0x02 0x02))).map (·.host.result) =
    some (some (.flag true)) := by decide
theorem test_buttonReleased : (next? (exec (.buttonReleased 0) (pressing 0x00 0x01))).map (·.host.result) =
    some (some (.flag true)) := by decide
theorem test_playSound : (next? (exec (.playSound 0x0100) (sounding .playing 5 0 2))).map
    (fun t => (t.snd.state, t.snd.cursor, t.snd.dur)) = some (.startRequested, 0x100, 5) := by decide
theorem test_playSound_disabled : (next? (exec (.playSound 0x10) (sounding .disabled 0 0 0))).map
    (fun t => (t.snd.state, t.snd.cursor)) = some (.disabled, 0x100) := by decide
theorem test_stopSound : (next? (exec .stopSound (stream [0x12]))).map (·.snd.state) = some .stopRequested ∧
    (next? (exec .stopSound (sounding .disabled 0 0 0))).map (·.snd.state) = some .disabled := by decide
theorem test_disableSound : (next? (exec .disableSound (sounding .playing 5 0 2))).map
    (fun t => (t.snd.state, t.snd.cursorValid, t.out.toneOn)) = some (.disabled, false, false) := by decide

/-- After SETUP 1, with note 127 sounding or not. -/
def toned (b : Bool) : State :=
  { State.reset with
    out := { State.reset.out with toneOn := b }
    snd := { State.reset.snd with note := 127 } }

theorem test_getPlayedNote : (next? (exec .getPlayedNote (toned true))).map (·.host.result) = some (some (.note 128)) ∧
    (next? (exec .getPlayedNote (toned false))).map (·.host.result) = some (some (.note 0)) := by decide
theorem test_frameSync_call : (next? (exec .frameSync (swapping .valid 0 0))).map (·.host.wait) = some (some 0xFF) := by decide
theorem test_frameSync_return : (next? (hostStep { waiting 7 with
    frame := { State.reset.frame with signal := 8, count := 8 } })).map (fun t => (t.host.wait, t.host.result)) =
    some (none, some (.frames 8)) := by decide
theorem test_getLoadSample : (next? (exec .getLoadSample { State.reset with
    frame := { State.reset.frame with lastTs := 1000, sweepDur := 8333, meas := .valid }
    inp := { clock := [5166], buttons := [] } })).map (·.host.result) = some (some (.load 4166 8333 true)) := by decide

/-! ### Library routines (95 2.10) -/

theorem test_fillRect : (next? (exec (.fillRect 0 0 2 1 0x00F) State.reset)).map (·.host.routine) =
    some (some (.fill false 0 0 2 1 0x00F 0 0)) ∧
    (next? (exec (.fillRect 0 0 0 5 0xFFF) State.reset)).map (·.host.routine) = some none := by decide
theorem test_fillRect_range : (next? (hostStep (inRoutine (.fill false 7 7 2 1 0xFFF 0 1)))).map (·.faults) =
    some [.uncheckedRange 8 7] := by decide
theorem test_fillRectS : (next? (hostStep (inRoutine (.fill true (-2) (-2) 3 3 0x111 2 2)))).map
    (fun t => (Picture.pixel t.store.front 0 0, t.host.routine)) = some (0x111, none) := by decide
theorem test_scrollSource : scrollSource .left (cellOf 7 3) = cellOf 0 3 ∧ scrollSource .right (cellOf 1 3) = cellOf 0 3 ∧
    scrollSource .down (cellOf 0 2) = cellOf 0 3 ∧ scrollSource .up (cellOf 0 0) = cellOf 0 7 := by decide
theorem test_scroll : (next? (hostStep { inRoutine (.scrollRead .left [] []) with
    store := { State.reset.store with front := Picture.withPixel blackPicture 0 0 0x123 } })).map (·.host.routine) =
    some (some (.scrollRead .left [] [0x123])) := by decide
theorem test_fadeColour : fadeColour 0x50F = 0x40E ∧ fadeColour 0x001 = 0x000 := by decide
theorem test_fadePixels : (next? (hostStep (inRoutine (.fadeWrite 0x50F [cellOf 2 0])))).map
    (fun t => (Picture.pixel t.store.front 2 0, t.host.routine)) = some (0x40E, none) := by decide
theorem test_loadBar : loadBar 4 8 = 0x0F ∧ loadBar 8 8 = 0xFF ∧ loadBar 9 8 = 0xFF ∧ loadBar 11 8 = 0xFE ∧
    loadBar 16 8 = 0xFC ∧ loadBar 100 8 = 0x80 ∧ loadBar 4166 8333 = 0x07 := by decide
theorem test_showLoad : (next? (hostStep { inRoutine .loadSample with
    frame := { State.reset.frame with lastTs := 0, sweepDur := 8, meas := .valid }
    inp := { clock := [4], buttons := [] } })).map (·.host.routine) = some (some (.loadBar 0x0F)) := by decide
theorem test_color : color 5 0 15 = 0x50F ∧ color 17 0 0 = 0x100 ∧ red 0x50F = 5 ∧ blue 0x50F = 15 := by decide

/-! ### The assembler (95 L3-1, 30 R87, R91) -/

theorem test_assemble : assemble 0 [.label "tune", .tok (.note 69), .tok (.play 2), .rest 8, .tok .endTok] =
    some ([0xC5, 0x12, 0x43, 0x00], [("tune", 0)]) := by decide
theorem test_assemble_pseudo : asmBytes (.bpm 120) = some [0x59] ∧ asmBytes (.bpm 121) = none ∧
    asmBytes (.tone 60 4) = some [0xBC, 0x12] ∧ asmBytes .nop = some [0x01] ∧ midiNote 4 9 = some 69 := by decide

/-! ### Witnesses: the hypotheses of each statement can be met

One theorem for each statement that has hypotheses, named after it; its conjuncts are the statement's clauses, at the
boundaries of their ranges. -/

theorem test_witness_NoteTokenSelects : ∃ t u : State, fetch (stream [0x80, 0xFF]) = (some 0x80, t) ∧
    decodeToken 0x80 = .note 0 ∧ fetch { t with snd := { t.snd with note := 0 } } = (some 0xFF, u) ∧
    decodeToken 0xFF = .note 127 := ⟨_, _, rfl, by decide, rfl, by decide⟩

theorem test_witness_EndTokenStops : ∃ t : State, fetch (stream [0x00]) = (some 0x00, t) ∧ decodeToken 0x00 = .endTok :=
  ⟨_, rfl, by decide⟩

theorem test_witness_PlayTokensStartNote : (∃ t : State, fetch (stream [0x16]) = (some 0x16, t) ∧ decodeToken 0x16 = .play 6) ∧
    (∃ t : State, fetch (stream [0x20]) = (some 0x20, t) ∧ decodeToken 0x20 = .playr 0) ∧
    (∃ t : State, fetch (stream [0x36]) = (some 0x36, t) ∧ decodeToken 0x36 = .plays 6) ∧
    (32 : BitVec 7) = (64#7 >>> (0 : BitVec 3).toNat) / 2 ∧ (0 : BitVec 7) = (64#7 >>> (6 : BitVec 3).toNat) / 2 :=
  ⟨⟨_, rfl, by decide⟩, ⟨_, rfl, by decide⟩, ⟨_, rfl, by decide⟩, by decide, by decide⟩

theorem test_witness_PauseTokenRests : ∃ t : State, fetch (stream [0x40]) = (some 0x40, t) ∧ decodeToken 0x40 = .pause 0 :=
  ⟨_, rfl, by decide⟩

theorem test_witness_TempoTokenSelects : (∃ t : State, fetch (stream [0x50]) = (some 0x50, t) ∧ decodeToken 0x50 = .tempo 0) ∧
    (∃ t : State, fetch (stream [0x5F]) = (some 0x5F, t) ∧ decodeToken 0x5F = .tempo 15) :=
  ⟨⟨_, rfl, by decide⟩, ⟨_, rfl, by decide⟩⟩

theorem test_witness_FadeTokensSlide : (∃ t : State, fetch (stream [0x60]) = (some 0x60, t) ∧ decodeToken 0x60 = .fadeoff) ∧
    (∃ t : State, fetch (stream [0x61]) = (some 0x61, t) ∧ decodeToken 0x61 = .fadeup 1) ∧
    (∃ t : State, fetch (stream [0x6F]) = (some 0x6F, t) ∧ decodeToken 0x6F = .fadedn 7) ∧
    (∃ s : State, s.snd.state = .playing ∧ s.snd.fadeDir = .up) ∧
    (∃ s : State, s.snd.state = .playing ∧ s.snd.fadeDir = .down) ∧
    (∃ s : State, s.snd.state ≠ .playing) ∧ (∃ s : State, s.snd.state = .playing ∧ s.snd.fadeDir = .off) :=
  ⟨⟨_, rfl, by decide⟩, ⟨_, rfl, by decide⟩, ⟨_, rfl, by decide⟩,
    ⟨{ stream [] with snd := { (stream []).snd with state := .playing, fadeDir := .up } }, rfl, rfl⟩,
    ⟨{ stream [] with snd := { (stream []).snd with state := .playing, fadeDir := .down } }, rfl, rfl⟩,
    ⟨stream [], by decide⟩, ⟨sounding .playing 1 0 1, rfl, rfl⟩⟩

theorem test_witness_UnrecognizedTokenSkipped : (∃ t : State, fetch (stream [0x01]) = (some 0x01, t) ∧
    decodeToken 0x01 = .unrecognized 0x01) ∧
    ∃ t : State, fetch (stream [0x7F]) = (some 0x7F, t) ∧ decodeToken 0x7F = .unrecognized 0x7F :=
  ⟨⟨_, rfl, by decide⟩, ⟨_, rfl, by decide⟩⟩

theorem test_witness_FetchReadsOneByte : (shortMemory 16).faults = [] ∧
    (shortMemory 16).par.tokenMemSize.val ≤ (shortMemory 16).snd.cursor.toNat ∧
    (shortMemory 15).snd.cursor.toNat < (shortMemory 15).par.tokenMemSize.val ∧
    (∀ d ∈ (shortMemory 15).tmem.duties, (shortMemory 15).snd.cursor.toNat ∉ d.raced) := by decide

theorem test_witness_ScanRunsEachToken : (∃ t : State, fetch (shortMemory 16) = (none, t)) ∧
    (∃ t u : State, fetch (stream [0x12]) = (some 0x12, t) ∧ exec (decodeToken 0x12) t = .next u ∧
      ∃ d, decodeToken 0x12 = .play d) ∧
    (∃ t u : State, fetch (stream [0x60]) = (some 0x60, t) ∧ exec (decodeToken 0x60) t = .next u ∧
      decodeToken 0x60 = .fadeoff) :=
  ⟨⟨_, rfl⟩, ⟨_, _, rfl, rfl, 2, by decide⟩, ⟨_, _, rfl, rfl, by decide⟩⟩

/-- The stream of `stream`, with its bytes at these addresses raced. -/
def racedStream (bs : List Byte) (raced : List Nat) : State :=
  { stream bs with tmem := { (stream bs).tmem with duties := [{ start := 0x100, raced := raced }] } }

theorem test_witness_ScanStopsInBounds : (racedStream [0x12, 0x00] [0x101]).faults = [] ∧
    (∃ t, scan (racedStream [0x12, 0x00] [0x101]) = .next t ∧ t.faults = []) ∧
    (∃ t, scan (shortMemory 32) = .next t ∧ t.faults ≠ []) ∧ (stream [0x00]).faults = [] ∧
    (∀ d ∈ (stream [0x00]).tmem.duties, 0x100 ∉ d.raced) ∧ (shortMemory 32).faults = [] :=
  ⟨rfl, ⟨_, rfl, rfl⟩, ⟨_, rfl, by decide⟩, rfl, by decide, rfl⟩

theorem test_witness_SequencerRequests : (sounding .idle 0 0 0).snd.state = .idle ∧
    (sounding .disabled 0 0 0).snd.state = .disabled ∧ (sounding .stopRequested 0 0 0).snd.state = .stopRequested ∧
    (sounding .startRequested 0 0 0).snd.state = .startRequested := by decide

theorem test_witness_CountdownTick : (∃ s : State, s.snd.state = .playing ∧ s.snd.subtick ≠ 1) ∧
    (∃ s : State, s.snd.state = .paused ∧ s.snd.subtick = 1 ∧ s.snd.dur = 1) ∧
    (∃ s : State, s.snd.state = .playing ∧ s.snd.subtick = 1 ∧ s.snd.dur ≠ 1 ∧ s.snd.dur - 1 = s.snd.thr) ∧
    (∃ s : State, s.snd.state = .playing ∧ s.snd.subtick = 1 ∧ s.snd.dur ≠ 1 ∧ s.snd.dur - 1 ≠ s.snd.thr) :=
  ⟨⟨sounding .playing 5 0 2, by decide⟩, ⟨sounding .paused 1 1 1, by decide⟩, ⟨sounding .playing 2 1 1, by decide⟩,
    ⟨sounding .playing 64 32 1, by decide⟩⟩

theorem test_witness_NoteTiming : (stream []).faults = [] ∧ (∃ k, (stream []).snd.tempo = tempoOf k) ∧
    (∃ s, exec (.plays 0) (stream []) = .next s) ∧ (0 : BitVec 3).toNat ≤ 6 ∧ 32 = 64 / 2 ^ (0 : BitVec 3).toNat / 2 ∧
    3839 < 64 / 2 ^ (0 : BitVec 3).toNat * (stream []).snd.tempo.toNat ∧
    (∃ s, exec (.play 6) (stream []) = .next s) ∧ (6 : BitVec 3).toNat ≤ 6 ∧
    59 < 64 / 2 ^ (6 : BitVec 3).toNat * (stream []).snd.tempo.toNat ∧
    (∃ s, exec (.playr 6) (stream []) = .next s) ∧ (∃ s, exec (.pause 6) (stream []) = .next s) :=
  ⟨rfl, ⟨9, by decide⟩, ⟨_, rfl⟩, by decide, by decide, by decide, ⟨_, rfl⟩, by decide, by decide, ⟨_, rfl⟩, ⟨_, rfl⟩⟩

theorem test_witness_TickStep : State.reset.faults = [] ∧ State.reset.ctl.configured = true ∧
    unset.faults = [] ∧ unset.ctl.configured = false ∧
    ((atCursor 7 15 1).drive.row = 7 ∧ (atCursor 7 15 1).drive.level = 15 ∧ (atCursor 7 15 1).drive.divc = 1) ∧
    (atCursor 7 15 2).drive.divc ≠ 1 ∧ ¬ ((atCursor 7 14 1).drive.row = 7 ∧ (atCursor 7 14 1).drive.level = 15) ∧
    (atCursor 6 15 1).drive.row = 6 ∧ (atCursor 5 15 1).drive.row ≠ 6 := by decide

theorem test_witness_SwapStepEffects : (swapping .valid 0 7).inp.clock = [7] ∧
    (swapping .valid 0 7).inp.buttons = [0b111111] ∧ State.reset.inp.clock = [] ∧ State.reset.inp.buttons = [] ∧
    { State.reset.inp with clock := [7] }.buttons = [] ∧ { State.reset.inp with buttons := [1] }.clock = [] := by decide

theorem test_witness_SweepOrder : State.reset.ctl.configured = true ∧ State.reset.faults = [] ∧
    ∃ t, ticks 1 State.reset = .next t ∧ t.faults = [] := ⟨rfl, rfl, _, rfl, rfl⟩

theorem test_witness_DarkLevelAndDuty : (atCursor 7 15 1).pipeline ∧ (atCursor 7 15 1).drive.level = 15 := by
  unfold State.pipeline
  decide +kernel

theorem test_witness_DividerCounts : (atCursor 7 15 1).ctl.configured = true ∧ (atCursor 7 15 1).faults = [] ∧
    (atCursor 7 15 1).drive.row = 7 ∧ (atCursor 7 15 1).drive.level = 15 ∧ (atCursor 7 15 1).drive.divc = 1 ∧
    (atCursor 7 15 2).drive.divc ≠ 1 ∧ (atCursor 7 15 1).divcOk ∧ (atCursor 7 15 1).ctl.frameDivLog2 = 0 := by
  unfold State.divcOk
  decide

theorem test_witness_FrameRate : ∃ s t : State, unset.faults = [] ∧ exec (.setup (2 ^ (3 : BitVec 2).toNat)) unset = .next s ∧
    s.noSetup ∧ runAgents [.tick, .host] s = .next t ∧ t.faults = [] :=
  ⟨_, _, rfl, rfl, fun _ _ h => absurd h List.not_mem_nil, rfl, rfl⟩

theorem test_reset_pipeline : State.reset.pipeline := by
  unfold State.pipeline
  decide +kernel

theorem test_witness_PipelineKept : (State.reset.safe → State.reset.ctl.configured = true → State.reset.pipeline) ∧
    (∃ t, step (turnOf .tick) = .next t ∧ t.safe ∧ t.ctl.configured = true) ∧ State.reset.safe ∧ ¬ State.reset.swapsNext ∧
    ∃ t, tick State.reset = .next t :=
  ⟨fun _ _ => test_reset_pipeline, ⟨_, rfl, rfl, rfl⟩, rfl, (fun h => absurd h.2.1 (by decide)), _, rfl⟩

theorem test_witness_SoundStateKept : (turnOf .tick).soundOk ∧
    ∃ t, step (turnOf .tick) = .next t ∧ t.safe ∧ t.ctl.configured = true :=
  ⟨by
    unfold State.soundOk Sound.cursorOk Sound.countersOk Sound.tempoOk State.toneOk
    decide, _, rfl, rfl, rfl⟩

theorem test_witness_RangesKept : (turnOf .tick).divcOk ∧ (turnOf .tick).btn.clean ∧ (turnOf .tick).rowEnOk ∧
    ∃ t, step (turnOf .tick) = .next t ∧ t.safe ∧ t.ctl.configured = true :=
  ⟨by unfold State.divcOk; decide, by unfold Buttons.clean; decide, by unfold State.rowEnOk; decide, _, rfl, rfl, rfl⟩

/-- After SETUP 1, about to write a token byte. -/
def writing (a : BitVec 16) (b : Byte) : State :=
  { State.reset with
    host := { State.reset.host with prog := [.writeToken a b] }
    sched := [.host] }

/-- At row 6 with the tick agent's turn, the bytes 12 C5 00 at 0x100, the cursor past the first, and these duties of the
host. -/
def owing (st : SndState) (duties : List Duty) : State :=
  { State.reset with
    drive := { State.reset.drive with row := 6 }
    snd := { State.reset.snd with state := st, cursor := 0x101, cursorValid := true, dur := 1, subtick := 2 }
    tmem := { bytes := placed [] 0x100 [0x12, 0xC5, 0x00], duties := duties }
    sched := [.tick] }

theorem test_witness_MemoryFormKept : Memory.wf (writing 0xFFFF 0x12).tmem.bytes = true ∧
    (∃ t, step (writing 0xFFFF 0x12) = .next t) ∧
    (owing .playing [{ start := 0x100, raced := [] }]).dutyOk ∧
    ∃ t, step (owing .playing [{ start := 0x100, raced := [] }]) = .next t ∧ t.safe ∧ t.ctl.configured = true :=
  ⟨rfl, ⟨_, rfl⟩, fun _ => ⟨_, rfl, by decide⟩, _, rfl, rfl, rfl⟩

theorem test_witness_FaultsStopTheBlock : { State.reset with faults := [.badDivisor 3] }.faults ≠ [] ∧
    (∃ t, step (turnOf .tick) = .next t) ∧ State.reset.faults = [] ∧ ∃ t, tick State.reset = .next t :=
  ⟨by decide, ⟨_, rfl⟩, rfl, _, rfl⟩

theorem test_witness_BlockNeverHalts : State.reset.faults = [] ∧ acting State.reset = .tick ∧
    acting (writing 0 0) = .host := by decide

/-- At a qualifying boundary with the tick agent's turn next, SETUP 2 at the head of the host's program. -/
def setupWaits (st : SndState) : State :=
  { atCursor 7 15 1 with
    snd := { State.reset.snd with state := st }
    host := { State.reset.host with prog := [.command [0x01, 0x02, 0x00, 0x00, 0x00]] }
    sched := [.tick] }

theorem test_witness_DisabledIsSticky : (sounding .disabled 0 0 0).snd.state = .disabled ∧
    ¬ (sounding .disabled 0 0 0).issuesSetup ∧ (∃ t, step (sounding .disabled 0 0 0) = .next t) ∧
    (setupWaits .disabled).snd.state = .disabled ∧ ¬ (setupWaits .disabled).issuesSetup ∧
    (setupWaits .disabled).setupNext ∧ ∃ t, step (setupWaits .disabled) = .next t :=
  ⟨rfl, fun h => absurd h.1 (by decide), ⟨_, rfl⟩, rfl, fun h => absurd h.1 (by decide),
    ⟨[0x01, 0x02, 0x00, 0x00, 0x00], [], 2, rfl, by decide⟩, _, rfl⟩

theorem test_witness_OnlySwapMovesFrames :
    (∃ t, step (setupWaits .idle) = .next t) ∧ ¬ (setupWaits .idle).issuesSetup ∧ (setupWaits .idle).setupNext ∧
    acting (setupWaits .idle) = .tick ∧ (setupWaits .idle).swapsNext ∧
    (∃ t, step (atCursor 7 15 2) = .next t) ∧ ¬ (atCursor 7 15 2).issuesSetup ∧ ¬ (atCursor 7 15 2).swapsNext :=
  ⟨⟨_, rfl⟩, fun h => absurd h.1 (by decide), ⟨[0x01, 0x02, 0x00, 0x00, 0x00], [], 2, rfl, by decide⟩, by decide,
    ⟨rfl, rfl, rfl⟩, ⟨_, rfl⟩, fun h => absurd h.1 (by decide), fun h => absurd h.2.2 (by decide)⟩

theorem test_witness_HostBlindToDisplay : Instr.language (.badCommand 0) = .command ∧ ∀ div, Instr.badCommand 0 ≠ .setup div :=
  ⟨rfl, fun _ => by simp⟩

theorem test_witness_PowerOnValuesUnread : Instr.language .clear = .command ∧ (∀ div, Instr.clear ≠ .setup div) ∧
    State.reset.inp = (sounding .playing 1 1 1).inp ∧ State.reset.draws = (sounding .playing 1 1 1).draws ∧
    State.reset.out.events = (sounding .playing 1 1 1).out.events ∧
    State.reset.tmem.bytes = (sounding .playing 1 1 1).tmem.bytes ∧ State.reset.host = (sounding .playing 1 1 1).host ∧
    State.reset.par = (sounding .playing 1 1 1).par ∧ State.reset.sched = (sounding .playing 1 1 1).sched ∧
    (0xFFFF : BitVec 16).toNat < (sounding .playing 1 1 1).par.tokenMemSize.val :=
  ⟨rfl, fun _ => by simp, rfl, rfl, rfl, rfl, rfl, rfl, rfl, by decide⟩

theorem test_witness_SetupResets : (swapping .valid 0 7).inp.clock = [7] ∧ State.reset.inp.clock = [] ∧
    State.reset.faults = [] ∧
    ((0 : Int) ≠ 1 ∧ (0 : Int) ≠ 2 ∧ (0 : Int) ≠ 4 ∧ (0 : Int) ≠ 8) ∧ ((9 : Int) ≠ 1 ∧ (9 : Int) ≠ 8) := by decide

theorem test_witness_CommandsNeedSetup : Instr.language (.fillRect 0 0 1 1 0) = .command ∧
    (∀ div, Instr.fillRect 0 0 1 1 0 ≠ .setup div) ∧ unset.ctl.configured = false ∧ unset.faults = [] ∧
    (waiting 0).host.wait = some 0 ∧ (∃ t, hostStep (waiting 0) = .next t) ∧ (waiting 0).frame.signal = 0 :=
  ⟨rfl, fun _ => by simp, rfl, rfl, rfl, ⟨_, rfl⟩, rfl⟩

theorem test_witness_ClearCommands : State.reset.ctl.configured = true := rfl
theorem test_witness_SetPixelCommands : State.reset.ctl.configured = true ∧ State.reset.faults = [] ∧
    ¬ ((0 : Int) ≤ 8 ∧ (8 : Int) < 8 ∧ (0 : Int) ≤ 0 ∧ (0 : Int) < 8) := by decide
theorem test_witness_GetPixelCommands : State.reset.ctl.configured = true ∧ State.reset.faults = [] ∧
    ¬ ((0 : Int) ≤ 7 ∧ (7 : Int) < 8 ∧ (0 : Int) ≤ -1 ∧ (-1 : Int) < 8) := by decide
theorem test_witness_AuxCommands : State.reset.ctl.configured = true ∧ ¬ ((0 : Int) ≤ 8 ∧ (8 : Int) < 8) := by decide
theorem test_witness_ButtonQueries : State.reset.ctl.configured = true := rfl
theorem test_witness_SoundCommands : State.reset.ctl.configured = true ∧ State.reset.snd.state ≠ .disabled ∧
    (sounding .disabled 0 0 0).ctl.configured = true ∧ (sounding .disabled 0 0 0).snd.state = .disabled := by decide
theorem test_witness_PlayedNoteReported : State.reset.ctl.configured = true := rfl

/-! ### A fair run (70 R287, R295) -/

/-- The run of the machine from a state; it stands still where a step stops. -/
def runFrom (s : State) : Nat → State
  | 0 => s
  | n + 1 =>
    match step (runFrom s n) with
    | .next t => t
    | .fault _ => runFrom s n
    | .refused _ => runFrom s n

theorem runFrom_succ {s t : State} {n : Nat} (h : step (runFrom s n) = .next t) : runFrom s (n + 1) = t := by
  simp only [runFrom, h]

/-- A silent block whose host has nothing left to do, and no fault. -/
def Resting (s : State) : Prop :=
  s.faults = [] ∧ s.snd.state = .idle ∧ s.host.wait = none ∧ s.host.routine = none ∧ s.host.prog = []

theorem Resting.step {s : State} (h : Resting s) : acting s = .tick ∧ ∃ t, step s = .next t ∧ Resting t := by
  obtain ⟨hf, hi, hw, hr, hp⟩ := h
  have he : hostEnabled s = false := by simp [hostEnabled, hw, hr, hp]
  have ha : acting s = .tick := by simp [acting, he]
  refine ⟨ha, ?_⟩
  obtain ⟨t, ht, hfr⟩ := tick_frame s.turnTaken
  refine ⟨t, by rw [step_safe hf, ha]; exact ht, ?_⟩
  have hh : t.host = s.host := by rw [hfr.host, turnTaken_host]
  have hd := displayOrSwap_frame s.turnTaken
  have key : t.faults = [] ∧ t.snd.state = .idle := by
    rcases tick_cases s.turnTaken with ⟨-, e⟩ | ⟨-, q, m, -, -, hne, heq, e⟩
    · obtain rfl := Host.Outcome.next.inj (e.symm.trans ht)
      simp [hf, hi]
    · have hq : q = displayOrSwap s.turnTaken := by
        by_cases hrow : s.turnTaken.drive.row = 6#3
        · have := (heq hrow).1
          simp only [seqTick, hd.snd, turnTaken_snd, hi] at this
          exact (Host.Outcome.next.inj this).symm
        · exact (hne hrow).1
      have h0 : q.faults = [] := by rw [hq, hd.faults, turnTaken_faults, hf]
      rcases e with ⟨h1, -⟩ | ⟨-, e⟩
      · exact absurd h0 h1
      · obtain rfl := Host.Outcome.next.inj (e.symm.trans ht)
        exact ⟨h0, by show q.snd.state = .idle; rw [hq, hd.snd, turnTaken_snd, hi]⟩
  exact ⟨key.1, key.2, by rw [hh, hw], by rw [hh, hr], by rw [hh, hp]⟩

/-- After SETUP 1, waiting in FRAME_SYNC at a qualifying boundary, with one tick step and one host step scheduled. -/
def fairStart : State :=
  { State.reset with
    drive := { row := 7, level := 15, nextPat := 0, divc := 1 }
    host := { State.reset.host with wait := some 0 }
    sched := [.tick, .host] }

theorem fairStart_first : ∃ t u, step fairStart = .next t ∧ step t = .next u ∧ t.host.wait = some 0 ∧ t.frame.signal = 1 ∧
    acting t = .host ∧ Resting u :=
  ⟨_, _, rfl, rfl, rfl, rfl, rfl, rfl, rfl, rfl, rfl, rfl⟩

/-- From `fairStart` the machine has an infinite fair run, in which the host's wait ends. -/
theorem test_fair_run : IsFairRun (runFrom fairStart) ∧ (runFrom fairStart 0).ctl.configured = true ∧
    (runFrom fairStart 0).host.wait = some 0 := by
  obtain ⟨t, u, h1, h2, hw, hs, ha, hu⟩ := fairStart_first
  have e1 : runFrom fairStart 1 = t := runFrom_succ (n := 0) h1
  have e2 : runFrom fairStart 2 = u := runFrom_succ (n := 1) (by rw [e1]; exact h2)
  have rest : ∀ n, Resting (runFrom fairStart (n + 2)) := by
    intro n
    induction n with
    | zero => rw [e2]; exact hu
    | succ n ih =>
      obtain ⟨-, v, hv, hr⟩ := ih.step
      rw [runFrom_succ hv]
      exact hr
  refine ⟨⟨fun n => ?_, fun n _ => ⟨n + 2, by omega, (rest n).step.1⟩, fun n h => ?_, fun n s0 h => ?_⟩, rfl, rfl⟩
  · match n with
    | 0 => rw [e1]; exact h1
    | 1 => rw [e1, e2]; exact h2
    | n + 2 =>
      obtain ⟨-, v, hv, -⟩ := (rest n).step
      rw [runFrom_succ hv]
      exact hv
  · have := h (n + 2) (by omega)
    obtain ⟨-, -, h3, h4, h5⟩ := rest n
    simp [enabled, hostEnabled, h3, h4, h5] at this
  · match n with
    | 0 => exact absurd h (by rintro ⟨h3, h4⟩; exact h4 (Option.some.inj h3))
    | 1 =>
      refine ⟨1, Nat.le_refl _, by rw [e1]; exact ha, fun k h3 h4 => ?_⟩
      obtain rfl : k = 1 := by omega
      exact h
    | n + 2 =>
      obtain ⟨-, -, h3, -⟩ := rest n
      rw [State.returnEnabled, h3] at h
      cases h.1
theorem test_witness_FrameSyncWaits : (∃ (r : Nat → State) (s0 : BitVec 8), IsRun r ∧ HostSyncFair r ∧
      (r 0).ctl.configured = true ∧ (r 0).host.wait = some s0) ∧ State.reset.ctl.configured = true ∧ (waiting 0).host.wait = some 0 ∧
    (waiting 0).frame.signal = 0 ∧ (waiting 7).host.wait = some 7 ∧ (waiting 7).frame.signal ≠ 7 ∧
    ∃ t, step { atCursor 7 15 1 with host := (waiting 0).host } = .next t ∧ t.frame.signal ≠ 0 :=
  ⟨⟨runFrom fairStart, 0, test_fair_run.1.1, test_fair_run.1.2.2.2, test_fair_run.2⟩, rfl, rfl, rfl, rfl, by decide, _, rfl,
    by decide⟩

theorem test_witness_LoadSampleReported : State.reset.ctl.configured = true ∧ (swapping .valid 0 7).ctl.configured = true ∧
    (swapping .valid 0 7).inp.clock = [7] ∧ State.reset.inp.clock = [] := by decide

theorem test_witness_UnknownCommandsRefused : ([0x00, 0x18, 0x1F, 0x25, 0xFF].all fun id : Byte =>
    decide (¬ ((0x01 ≤ id.toNat ∧ id.toNat ≤ 0x17) ∨ (0x20 ≤ id.toNat ∧ id.toNat ≤ 0x24)))) = true ∧
    State.reset.faults = [] ∧ State.reset.ctl.configured = true ∧ unset.faults = [] ∧ unset.ctl.configured = false := by
  decide

theorem test_witness_FillRectCheckedRun : State.reset.ctl.configured = true ∧ State.reset.faults = [] ∧
    State.reset.host.wait = none ∧ [Agent.host, .tick, .host].count .host = (2 : Int).toNat * (1 : Int).toNat ∧
    [Agent.tick].count .host = (0 : Int).toNat * (5 : Int).toNat := by decide

theorem test_witness_FillRectRun : State.reset.ctl.configured = true ∧ State.reset.faults = [] ∧
    State.reset.host.wait = none ∧ [Agent.host, .tick, .host].count .host ≤ (2 : Int).toNat * (1 : Int).toNat ∧
    ((0 : Int) ≤ 0 ∨ (5 : Int) ≤ 0) := by decide

theorem test_witness_ScrollRun : State.reset.ctl.configured = true ∧ State.reset.faults = [] ∧
    State.reset.host.wait = none ∧ State.reset.par.ordersOk ∧ (List.replicate 128 Agent.host).count .host = 128 :=
  ⟨rfl, rfl, rfl, ⟨List.Perm.refl _, List.Perm.refl _⟩, by simp⟩

theorem test_witness_FadePixelsRun : State.reset.ctl.configured = true ∧ State.reset.faults = [] ∧
    State.reset.host.wait = none ∧ State.reset.par.ordersOk ∧ (Agent.tick :: List.replicate 128 Agent.host).count .host = 128 :=
  ⟨rfl, rfl, rfl, ⟨List.Perm.refl _, List.Perm.refl _⟩, by simp⟩

theorem test_witness_ShowLoadSteps : State.reset.ctl.configured = true ∧ (inRoutine .loadSample).host.wait = none ∧
    (inRoutine .loadSample).host.routine = some .loadSample ∧
    (inRoutine (.loadBar 0x0F)).host.routine = some (.loadBar 0x0F) ∧
    (inRoutine .loadSync).host.routine = some .loadSync := by decide

theorem test_witness_LoadBarShape : 0 < 8 ∧ 7 < 8 ∧ 8 ≤ 8 ∧ ¬ 9 ≤ 8 := by decide

theorem test_witness_EncodingRoundTrip : Instr.wellFormed (.fillRect (-128) 127 0 (-1) 0xFFF) = true ∧
    Instr.wellFormed (.setup (-(10 ^ 30))) = true ∧ Instr.wellFormed (.unrecognized 0x7F) = true := by decide

theorem test_witness_TokenBytesExact : decode .token [0xFF] = .ok (.note 127) := by decide

theorem test_witness_StepRunsCommand : ∃ s : State, s.faults = [] ∧ s.host.wait = none ∧ s.host.routine = none ∧
    s.host.prog = .command [0x02] :: [] ∧ s.sched = .host :: [] ∧ decode .command [0x02] = .ok .clear :=
  ⟨State.reset.withCommand [0x02], rfl, rfl, rfl, rfl, rfl, by decide⟩

/-- At row 6 of a configured block, with a start request and the tick agent's turn. -/
def starting (bs : List Byte) : State :=
  { stream bs with
    drive := { (stream bs).drive with row := 6 }
    sched := [.tick] }

theorem test_witness_StepRunsToken : (∃ t u : State, (starting [0x12]).faults = [] ∧ (starting [0x12]).ctl.configured = true ∧
      (starting [0x12]).drive.row = 6 ∧ (starting [0x12]).snd.state = .startRequested ∧
      (starting [0x12]).sched = .tick :: [] ∧
      fetch (startDefaults (displayStep { starting [0x12] with sched := [] })) = (some 0x12, t) ∧
      exec (decodeToken 0x12) t = .next u ∧ endsScan (decodeToken 0x12) = true) ∧
    (∃ t u : State, fetch (startDefaults (displayStep { starting [0xC5] with sched := [] })) = (some 0xC5, t) ∧
      exec (decodeToken 0xC5) t = .next u ∧ endsScan (decodeToken 0xC5) = false) :=
  ⟨⟨_, _, rfl, rfl, rfl, rfl, rfl, rfl, rfl, by decide⟩, _, _, rfl, rfl, by decide⟩

theorem test_witness_TokenMemoryWrites : Memory.wf (writing 0 0x12).tmem.bytes = true ∧
    ∃ t, step (writing 0 0x12) = .next t ∧ Memory.read t.tmem.bytes 0 = 0x12 := ⟨rfl, _, rfl, by decide⟩

theorem test_witness_RacedBytesAreFree : ((racedStream [] [0x100]).snd.cursor.toNat < (racedStream [] [0x100]).par.tokenMemSize.val ∧
      ({ start := 0x100, raced := [0x100] } : Duty) ∈ (racedStream [] [0x100]).tmem.duties ∧
      (racedStream [] [0x100]).snd.cursor.toNat ∈ [0x100]) ∧
    ((0x100 : BitVec 16).toNat < (owing .playing [{ start := 0x100, raced := [] }]).par.tokenMemSize.val ∧
      (owing .playing [{ start := 0x100, raced := [] }]).tmem.duties[0]? = some { start := 0x100, raced := [] } ∧
      ∃ t e, (owing .playing [{ start := 0x100, raced := [] }]).writeToken 0x100 0 = .next t ∧ t.tmem.duties[0]? = some e) ∧
    (Memory.wf State.reset.tmem.bytes = true ∧
      ∃ t, State.reset.writeToken 0xFFFF 0x12 = .next t ∧ (∀ d ∈ t.tmem.duties, (0xFFFF : BitVec 16).toNat ∉ d.raced) ∧
        ∃ u : State, u.tmem = t.tmem ∧ u.par = State.reset.par ∧ u.snd.cursor = (0xFFFF : BitVec 16).setWidth 17) ∧
    ((∃ t, exec .stopSound State.reset = .next t) ∧ (∃ t, exec .disableSound State.reset = .next t) ∧
      (∃ t, exec (.setup 3) State.reset = .next t) ∧ (∃ t, exec (.playSound 0) State.reset = .next t) ∧
      State.reset.ctl.configured = true ∧ State.reset.snd.state ≠ .disabled) ∧
    ((∃ t, step (writing 0 0x12) = .next t) ∧ ¬ (writing 0 0x12).sequencerNext) ∧
    (∃ t, step (owing .playing []) = .next t ∧ (owing .playing []).sequencerNext ∧ t.faults = []) ∧
    ∃ t, step (owing .stopRequested []) = .next t ∧ (owing .stopRequested []).sequencerNext ∧ t.faults = [] :=
  ⟨⟨by decide, by decide, by decide⟩, ⟨by decide, rfl, _, _, rfl, rfl⟩,
    ⟨rfl, _, rfl, fun _ h => absurd h List.not_mem_nil, { writing 0xFFFF 0x12 with
      tmem := { bytes := [(0xFFFF, 0x12)], duties := [] }
      snd := { State.reset.snd with cursor := 0xFFFF } }, rfl, rfl, rfl⟩,
    ⟨⟨_, rfl⟩, ⟨_, rfl⟩, ⟨_, rfl⟩, ⟨_, rfl⟩, rfl, by decide⟩, ⟨⟨_, rfl⟩, fun h => absurd h.2.1 (by decide)⟩,
    ⟨_, rfl, ⟨rfl, rfl, rfl, rfl⟩, rfl⟩, _, rfl, ⟨rfl, rfl, rfl, rfl⟩, rfl⟩

/-- After SETUP 1, about to issue a command. -/
def issuing (frame : List Byte) : State :=
  { State.reset with
    host := { State.reset.host with prog := [.command frame] }
    sched := [.host] }

/-- SETUP 2 ends a sound program early, and SETUP 3, which raises BAD_DIVISOR and writes nothing, does not (70 R295). -/
theorem test_setup_cuts : (issuing [0x01, 0x02]).cutsSound ∧ ¬ (issuing [0x01, 0x03]).cutsSound := by
  refine ⟨Or.inr (Or.inr (Or.inr ⟨2, by decide, by decide, rfl, rfl, _, _, rfl, by decide⟩)), ?_⟩
  have key : ∀ i, (issuing [0x01, 0x03]).issues i → i = .setup 3 := by
    rintro i ⟨-, -, -, frame, rest, hp, hd⟩
    obtain ⟨rfl, -⟩ : frame = [0x01, 0x03] ∧ rest = [] := by simpa [issuing, eq_comm] using hp
    exact (Except.ok.inj hd).symm
  rintro (⟨a, h⟩ | h | h | ⟨div, hd, h⟩)
  · cases key _ h
  · cases key _ h
  · cases key _ h
  · cases key _ h
    exact hd (by decide)

/-- STOP_SOUND, a write of a byte already fetched, and a PLAY_SOUND of the same stream, all before the next sequencer tick: the
fetch that the start runs draws the byte (70 R285, 20 R75). -/
theorem test_stop_write_play :
    (((next? (exec .stopSound (owing .playing [{ start := 0x100, raced := [] }]))).bind fun t =>
      (next? (t.writeToken 0x100 0x34)).bind fun u => next? (exec (.playSound 0x100) u)).map
        fun v => (v.tmem.duties, v.snd.cursor, v.tmem.isRaced 0x100)) =
    some ([{ start := 0x100, raced := [0x100] }], 0x100, true) := by decide +kernel

/-- SETUP, a write in Idle, and a PLAY_SOUND of the same stream, all before the next sequencer tick: the byte is raced (70
R285). With a stream that has come to its END before the write, the fetch reads the byte written (20 R70). -/
theorem test_setup_write_play :
    (((next? (exec (.setup 1) (owing .playing [{ start := 0x100, raced := [0x101] }]))).bind fun t =>
      (next? (t.writeToken 0x100 0x34)).bind fun u => next? (exec (.playSound 0x100) u)).map
        fun v => v.tmem.duties) =
    some [{ start := 0x100, raced := [0x101, 0x100] }] ∧
    (((next? ((owing .idle []).writeToken 0x100 0x34)).bind fun u => next? (exec (.playSound 0x100) u)).map
        fun v => (v.tmem.duties, (fetch v).1)) =
    some ([{ start := 0x100, raced := [] }], some 0x34) := by decide +kernel

/-- A byte past the END of the stream is the host's to write (20 R70: up to and including the terminating END). -/
theorem test_write_past_end : ((next? ((owing .playing [{ start := 0x100, raced := [] }]).writeToken 0x102 0x34)).map
      fun t => t.tmem.duties) = some [{ start := 0x100, raced := [0x102] }] ∧
    ((next? ((owing .playing [{ start := 0x100, raced := [] }]).writeToken 0x103 0x34)).map fun t => t.tmem.duties) =
      some [{ start := 0x100, raced := [] }] := by decide +kernel

/-- The next sequencer tick ends the duty toward an abandoned stream, and keeps that toward the live one (70 R285). -/
theorem test_duty_ends : ((next? (step (owing .stopRequested [{ start := 0x100, raced := [0x101] }]))).map
      fun t => t.tmem.duties) = some [] ∧
    ((next? (step (owing .playing [{ start := 0x100, raced := [0x101] }, { start := 0x200, raced := [0x200] }]))).map
      fun t => t.tmem.duties) = some [{ start := 0x100, raced := [0x101] }] := by decide +kernel

/-- A host write before the first SETUP races nothing, whatever the unspecified sound state is (70 R281). -/
theorem test_power_on_write : ((next? ((State.powerOn (owing .playing [{ start := 0x100, raced := [] }])).writeToken 0x101 0)).map
    fun t => t.tmem.duties) = some [] := by decide +kernel

end Sys2Proof.Tests
end

section
/-!
PROOFS. A step of a state without a fault goes on (spec/00_scope.md R9, spec/70_setup_and_contracts.md R295): the tick step
always, the host step but for the model's own two stops (log entries 7 and 13).
-/

namespace Sys2Proof.Machine

/-- Every command, SETUP included, answers a next state. -/
theorem exec_command_next {i : Instr} (hi : i.language = .command) (s : State) : ∃ t, exec i s = .next t := by
  obtain ⟨t, ht, -⟩ := exec_tokens i hi s
  exact ⟨t, ht⟩

theorem writeToken_inside {s : State} {a : BitVec Config.wTaddr} (h : a.toNat < s.tokenSize) (b : Byte) :
    ∃ t, s.writeToken a b = .next t := ⟨_, if_pos h⟩

theorem writeToken_outside {s : State} {a : BitVec Config.wTaddr} (h : s.tokenSize ≤ a.toNat) (b : Byte) :
    s.writeToken a b = .fault (.pokeOutside a) := if_neg (Nat.not_lt.mpr h)

/-- A routine in progress goes on: its primitives are commands, and without one it ends (44 R246). -/
theorem routineStep_next (r : Routine) (s : State) : ∃ t, routineStep r s = .next t := by
  unfold routineStep
  split
  · next i hi =>
    obtain ⟨t, ht⟩ := exec_command_next (primitive_command hi).1 s
    rw [ht]
    exact ⟨_, rfl⟩
  · exact ⟨_, rfl⟩

/-- What a step of the host can answer: a next state, or one of the two stops that the head of its program names. -/
def HostOutcome (s : State) (o : Answer) : Prop :=
  (∃ t, o = .next t) ∨
  (∃ a b rest, s.host.prog = .writeToken a b :: rest ∧ s.tokenSize ≤ a.toNat ∧ o = .fault (.pokeOutside a)) ∨
  (∃ frame rest e, s.host.prog = .command frame :: rest ∧ decode .command frame = .error e ∧
    o = .refused (.malformedFrame e))

theorem commandStep_outcome {s : State} {frame : List Byte} {rest : List HostAct}
    (hp : s.host.prog = .command frame :: rest) : HostOutcome s (commandStep frame (s.popAct rest)) := by
  unfold commandStep
  split
  · next i hi => exact Or.inl (exec_command_next (decode_command_language hi) _)
  · next e he => exact Or.inr (Or.inr ⟨frame, rest, e, hp, he, rfl⟩)

theorem writeToken_outcome {s : State} {a : BitVec Config.wTaddr} {b : Byte} {rest : List HostAct}
    (hp : s.host.prog = .writeToken a b :: rest) : HostOutcome s ((s.popAct rest).writeToken a b) := by
  rcases Nat.lt_or_ge a.toNat s.tokenSize with hlt | hge
  · exact Or.inl (writeToken_inside (s := s.popAct rest) hlt b)
  · exact Or.inr (Or.inl ⟨a, b, rest, hp, hge, writeToken_outside (s := s.popAct rest) hge b⟩)

theorem programStep_outcome (s : State) : HostOutcome s (programStep s) := by
  unfold programStep
  split
  · exact Or.inl ⟨s, rfl⟩
  · next hp => exact commandStep_outcome hp
  · next hp => exact writeToken_outcome hp

/-- A host step goes on but for the two stops, which only the next action of its program can bring. -/
theorem hostStep_outcome (s : State) : HostOutcome s (hostStep s) := by
  unfold hostStep
  split
  · split
    · exact Or.inl ⟨s, rfl⟩
    · exact Or.inl ⟨_, rfl⟩
  · split
    · next r _ => exact Or.inl (routineStep_next r s)
    · exact programStep_outcome s

/-- Reading the schedule leaves the host's program and TOKEN_MEM_SIZE, so the outcome is one of the state before it. -/
theorem HostOutcome.of_turnTaken {s : State} {o : Answer} (h : HostOutcome s.turnTaken o) : HostOutcome s o := by
  simpa only [HostOutcome, State.tokenSize, turnTaken_host, turnTaken_par] using h

/-- Settles O29: a tick step always answers, and a host step stops only at a token write outside token memory or at a frame
that is no command. -/
theorem blockNeverHalts : Obligations.BlockNeverHalts := by
  intro s hf
  have tickNext : acting s = .tick → ∃ t : State, step s = .next t := by
    intro ha
    obtain ⟨t, ht, -⟩ := agentStep_tick s.turnTaken
    exact ⟨t, by rw [step_safe hf, ha, ht]⟩
  refine ⟨tickNext, ?_⟩
  cases ha : acting s with
  | tick => exact Or.inl (tickNext ha)
  | host =>
    rw [step_safe hf, ha]
    exact (hostStep_outcome s.turnTaken).of_turnTaken

end Sys2Proof.Machine
end

section
/-!
PROOFS. The invariants of the sound state and of the ranges (spec/10_state.md R25, R35, R44, R51,
spec/42_sound_sequencer.md R170), each kept by every step that leaves no fault.
-/

namespace Sys2Proof.Machine

/-- The step rule of an invariant `P` of a configured block: SETUP leaves it whatever was before, a tick step and a host step
without SETUP keep it, and it does not read the model's own schedule. -/
theorem step_keeps {P : State → Prop}
    (hturn : ∀ s : State, P s → P s.turnTaken)
    (hsetup : ∀ (s : State) (l : BitVec 2), P ((s.resetWith l).answer none))
    (htick : ∀ s t : State, s.ctl.configured = true → P s → tick s = .next t → t.faults = [] → P t)
    (hhost : ∀ s t : State, P s → HostFrame s t → CommandSound s t → P t)
    {s t : State} (hs : s.safe → s.ctl.configured = true → P s) (hst : step s = .next t)
    (hf : t.safe) (hc : t.ctl.configured = true) : P t := by
  obtain ⟨hsf, hcases⟩ := step_cases hst
  have before : s.turnTaken.ctl.configured = true → P s.turnTaken := by
    intro h
    exact hturn s (hs hsf (by simpa using h))
  rcases hcases with ⟨-, ht⟩ | ⟨-, -, hh⟩
  · obtain ⟨t', ht', hfr⟩ := tick_frame s.turnTaken
    obtain rfl := Host.Outcome.next.inj (ht'.symm.trans ht)
    rw [hfr.ctl] at hc
    exact htick _ _ hc (before hc) ht hf
  · rcases hostStep_frame hh with ⟨rest, div, -, -, -, he⟩ | ⟨hfr, hcs⟩
    · rcases exec_setup div (s.turnTaken.popAct rest) with ⟨l, -, e⟩ | ⟨-, e⟩
      · obtain rfl := Host.Outcome.next.inj (e.symm.trans he)
        exact hsetup _ l
      · obtain rfl := Host.Outcome.next.inj (e.symm.trans he)
        exact absurd hf (State.raise_faults_ne _ _)
    · rw [hfr.ctl] at hc
      exact hhost _ _ (before hc) hfr hcs

/-- A tick step of a configured block that leaves no fault (40 R100): the display or the swap, the sequencer tick at row 6,
and the cursor advance. -/
theorem tick_unraised {s t : State} (hc : s.ctl.configured = true) (ht : tick s = .next t) (hf : t.faults = []) :
    ∃ (q : State) (m : TokenMemory), SoundFrame (displayOrSwap s) q ∧
      (q = displayOrSwap s ∨ seqTick (displayOrSwap s) = .next q) ∧ q.faults = [] ∧
      t = advanceCursor { q with tmem := m } := by
  rcases tick_cases s with ⟨h, -⟩ | ⟨-, q, m, hfr, -, hne, heq, e⟩
  · rw [hc] at h; cases h
  · have hq : q = displayOrSwap s ∨ seqTick (displayOrSwap s) = .next q := by
      by_cases hrow : s.drive.row = 6#3
      · exact Or.inr (heq hrow).1
      · exact Or.inl (hne hrow).1
    rcases e with ⟨h0, e⟩ | ⟨h0, e⟩
    · obtain rfl := Host.Outcome.next.inj (e.symm.trans ht)
      exact absurd hf h0
    · exact ⟨q, m, hfr, hq, h0, (Host.Outcome.next.inj (e.symm.trans ht)).symm⟩

/-! ### The sound state -/

/-- The sound invariants read the sound state and the tone alone. -/
theorem soundOk_of_eq {s t : State} (hsnd : t.snd = s.snd) (htone : t.out.toneOn = s.out.toneOn) (h : s.soundOk) :
    t.soundOk := by
  unfold State.soundOk State.toneOk at *
  rw [hsnd, htone]
  exact h

theorem tick_soundOk {s t : State} (hc : s.ctl.configured = true) (hs : s.soundOk) (ht : tick s = .next t)
    (hf : t.faults = []) : t.soundOk := by
  have hd : (displayOrSwap s).soundOk :=
    soundOk_of_eq (displayOrSwap_frame s).snd (displayOrSwap_frame s).toneOn hs
  obtain ⟨q, m, -, hq, hqf, rfl⟩ := tick_unraised hc ht hf
  have hqs : q.soundOk := by
    rcases hq with rfl | hq
    · exact hd
    · obtain ⟨q', hq', hs'⟩ := seqTick_sound hd
      obtain rfl := Host.Outcome.next.inj (hq'.symm.trans hq)
      exact hs' hqf
  exact soundOk_of_eq (s := q) rfl rfl hqs

theorem resetWith_answer_soundOk (s : State) (l : BitVec 2) : ((s.resetWith l).answer none).soundOk := by
  obtain ⟨-, hsound, -⟩ := resetWith_inv s l
  exact soundOk_of_eq (s := s.resetWith l) rfl rfl hsound

/-- Settles O24: SETUP leaves the invariants of the sound state, and every tick step and every other host step keeps them. -/
theorem soundStateKept : Obligations.SoundStateKept := by
  intro s t
  exact step_keeps
    (hturn := fun s h => soundOk_of_eq (turnTaken_snd s) (by rw [turnTaken_out]) h)
    (hsetup := resetWith_answer_soundOk)
    (htick := fun _ _ => tick_soundOk)
    (hhost := fun _ _ h _ hcs => hcs.sound h)

/-! ### The ranges of DIVC, the button bytes and ROW_EN -/

/-- The three ranges together (10 R25, R44, R51). -/
def State.rangesOk (s : State) : Prop := s.divcOk ∧ s.btn.clean ∧ s.rowEnOk

/-- The ranges read DIVC, the configuration, the buttons and ROW_EN alone. -/
theorem rangesOk_of_eq {s t : State} (hdivc : t.drive.divc = s.drive.divc) (hctl : t.ctl = s.ctl)
    (hbtn : t.btn = s.btn) (hrow : t.out.rowEn = s.out.rowEn) (h : s.rangesOk) : t.rangesOk := by
  unfold State.rangesOk State.divcOk State.frameDiv State.rowEnOk at *
  rw [hdivc, hctl, hbtn, hrow]
  exact h

theorem resetWith_answer_rangesOk (s : State) (l : BitVec 2) : ((s.resetWith l).answer none).rangesOk := by
  obtain ⟨-, -, hdivc, hbtn, hrow⟩ := resetWith_inv s l
  exact ⟨hdivc, hbtn, hrow⟩

theorem tick_rangesOk {s t : State} (hc : s.ctl.configured = true) (hs : s.rangesOk) (ht : tick s = .next t)
    (hf : t.faults = []) : t.rangesOk := by
  obtain ⟨hdivc, hbtn, -⟩ := hs
  have hd : (displayOrSwap s).rangesOk :=
    ⟨displayOrSwap_divc hdivc, displayOrSwap_btn hbtn, displayOrSwap_rowEn s⟩
  obtain ⟨q, m, hfr, -, -, rfl⟩ := tick_unraised hc ht hf
  have hq : q.rangesOk := rangesOk_of_eq (by rw [hfr.drive]) hfr.ctl hfr.btn hfr.rowEn hd
  exact rangesOk_of_eq (s := q) rfl rfl rfl rfl hq

theorem HostFrame.rangesOk {s t : State} (h : HostFrame s t) (hs : s.rangesOk) : t.rangesOk :=
  rangesOk_of_eq (by rw [h.drive]) h.ctl h.btn h.rowEn hs

/-- Settles O25: SETUP leaves the three ranges, a tick step keeps them, and no other host step writes what they read. -/
theorem rangesKept : Obligations.RangesKept := by
  intro s t
  exact step_keeps (P := State.rangesOk)
    (hturn := fun s h => rangesOk_of_eq (by rw [turnTaken_drive]) (turnTaken_ctl s) (turnTaken_btn s)
      (by rw [turnTaken_out]) h)
    (hsetup := resetWith_answer_rangesOk)
    (htick := fun _ _ => tick_rangesOk)
    (hhost := fun _ _ h hfr _ => hfr.rangesOk h)

end Sys2Proof.Machine
end

section
/-!
PROOFS. What takes a sample of an input: the swap step, SETUP and GET_LOAD_SAMPLE (spec/10_state.md R46, R47,
spec/41_frame_sync.md R137, spec/43_host_interface.md R200, R226).
-/

namespace Sys2Proof.Machine

/-! ### One sample (10 R46, R47) -/

theorem clockNow_presented {s : State} {c : BitVec Config.wClock} {cs : List (BitVec Config.wClock)}
    (h : s.inp.clock = c :: cs) : s.clockNow = c := by simp [State.clockNow, h]

theorem clockNow_free {s : State} (h : s.inp.clock = []) : s.clockNow = Config.clockDraw s.draws := by
  simp [State.clockNow, h]

theorem buttonsNow_presented {s : State} {b : BitVec 6} {bs : List (BitVec 6)} (h : s.inp.buttons = b :: bs) :
    s.buttonsNow = b := by simp [State.buttonsNow, h]

theorem buttonsNow_free {s : State} (h : s.inp.buttons = []) : s.buttonsNow = Config.buttonDraw s.draws := by
  simp [State.buttonsNow, h]

/-- A clock sample takes the value presented next off its list, and leaves the other list. -/
@[simp] theorem State.clockTaken_inp (s : State) :
    s.clockTaken.inp = { s.inp with clock := s.inp.clock.tail } := by
  rcases s with ⟨_, _, _, _, _, _, _, ⟨bs, _ | ⟨c, cs⟩⟩⟩ <;> rfl

/-- A clock sample draws a free value exactly where none is presented. -/
@[simp] theorem State.clockTaken_draws (s : State) :
    s.clockTaken.draws = s.draws + if s.inp.clock = [] then 1 else 0 := by
  rcases h : s.inp.clock with _ | ⟨c, cs⟩ <;> simp [State.clockTaken, h]

/-- A button sample takes the value presented next off its list, and leaves the other list. -/
@[simp] theorem State.buttonsTaken_inp (s : State) :
    s.buttonsTaken.inp = { s.inp with buttons := s.inp.buttons.tail } := by
  rcases s with ⟨_, _, _, _, _, _, _, ⟨_ | ⟨b, bs⟩, cs⟩⟩ <;> rfl

/-- A button sample draws a free value exactly where none is presented. -/
@[simp] theorem State.buttonsTaken_draws (s : State) :
    s.buttonsTaken.draws = s.draws + if s.inp.buttons = [] then 1 else 0 := by
  rcases h : s.inp.buttons with _ | ⟨b, bs⟩ <;> simp [State.buttonsTaken, h]

/-- A clock sample where a value is presented (10 R47). -/
theorem clockSample_presented (s : State) (c : BitVec Config.wClock) (cs : List (BitVec Config.wClock))
    (h : s.inp.clock = c :: cs) :
    s.clockNow = c ∧ s.clockTaken.inp = { s.inp with clock := cs } ∧ s.clockTaken.draws = s.draws :=
  ⟨clockNow_presented h, by simp [h], by simp [h]⟩

/-- A clock sample where none is presented: a free value, and the lists as they were (10 R47). -/
theorem clockSample_free (s : State) (h : s.inp.clock = []) :
    s.clockNow = Config.clockDraw s.draws ∧ s.clockTaken.inp = s.inp ∧ s.clockTaken.draws = s.draws + 1 := by
  refine ⟨clockNow_free h, ?_, by simp [h]⟩
  rw [State.clockTaken_inp, h, List.tail_nil, ← h]

/-! ### The swap step (41 R137) -/

/-- The two samples of a swap step, the clock's first: what they leave of the lists of presented values. -/
theorem swapTaken_inp (s : State) :
    (swapTaken s).inp = { buttons := s.inp.buttons.tail, clock := s.inp.clock.tail } := by
  simp [swapTaken]

theorem swapTaken_draws (s : State) : (swapTaken s).draws =
    s.draws + (if s.inp.clock = [] then 1 else 0) + (if s.inp.buttons = [] then 1 else 0) := by
  simp [swapTaken]

/-- Settles O17: a swap step as one record update, with the two samples it takes. -/
theorem swapStepEffects : Obligations.SwapStepEffects := by
  intro s
  refine ⟨s.clockNow, s.clockTaken.buttonsNow, (swapTaken s).inp, (swapTaken s).draws, swapStep_eq s,
    fun c cs h => ⟨clockNow_presented h, ?_⟩, fun h => ⟨clockNow_free h, ?_⟩,
    fun b bs h => ⟨buttonsNow_presented (bs := bs) (by simp [h]), ?_⟩, fun h => ⟨?_, ?_⟩, swapTaken_draws s⟩
  · simp [swapTaken_inp, h]
  · simp [swapTaken_inp, h]
  · simp [swapTaken_inp, h]
  · rw [buttonsNow_free (by simp [h]), State.clockTaken_draws]
  · simp [swapTaken_inp, h]

/-! ### SETUP (43 R200, 70 R280) -/

theorem frameDivOf_eq_pow (l : BitVec 2) : frameDivOf l = BitVec.ofNat 4 (2 ^ l.toNat) := by
  revert l; decide

/-- An integer that is no legal divisor has no field (10 R26). -/
theorem frameDivLog2Of_none {div : Int} (h1 : div ≠ 1) (h2 : div ≠ 2) (h4 : div ≠ 4) (h8 : div ≠ 8) :
    frameDivLog2Of div = none := by
  rw [frameDivLog2Of_eq, if_neg h1, if_neg h2, if_neg h4, if_neg h8]

theorem exec_setup_illegal {div : Int} (h : frameDivLog2Of div = none) (s : State) :
    exec (.setup div) s = .next (s.raise (.badDivisor div)) := by
  rcases exec_setup div s with ⟨l, hl, -⟩ | ⟨-, e⟩
  · rw [h] at hl; cases hl
  · exact e

/-- Settles O35: SETUP with a legal divisor is RESET with one clock sample, and any other integer raises BAD_DIVISOR. -/
theorem setupResets : Obligations.SetupResets := by
  refine ⟨fun l s => ⟨s.clockNow, s.clockTaken.inp, s.clockTaken.draws, ?_, clockSample_presented s,
    clockSample_free s⟩, fun div s hf h1 h2 h4 h8 => ?_⟩
  · rw [exec_setup_pow, resetWith_eq, frameDivOf_eq_pow]
    rfl
  · rw [exec_setup_illegal (frameDivLog2Of_none h1 h2 h4 h8), raise_nil hf]

/-! ### GET_LOAD_SAMPLE (43 R226) -/

theorem MeasState.isValid_eq (m : MeasState) : m.isValid = decide (m = .valid) := by cases m <;> rfl

/-- GET_LOAD_SAMPLE of a configured block: one clock sample, and the load as its result. -/
theorem exec_getLoadSample {s : State} (h : s.ctl.configured = true) :
    exec .getLoadSample s = .next (s.clockTaken.answer
      (some (.load (s.clockNow - s.frame.lastTs) s.frame.sweepDur s.frame.meas.isValid))) := by
  show execGetLoadSample s = _
  unfold execGetLoadSample
  rw [ifConfigured_on h]
  rfl

/-- Settles O45: the load is reported from one clock sample, and nothing else changes. -/
theorem loadSampleReported : Obligations.LoadSampleReported := by
  intro s hc
  refine ⟨s.clockNow, s.clockTaken.inp, s.clockTaken.draws, ?_, clockSample_presented s, clockSample_free s⟩
  rw [exec_getLoadSample hc, MeasState.isValid_eq, clockTaken_eq]
  rfl

end Sys2Proof.Machine
end

section
/-!
PROOFS. What a fetch reads (spec/42_sound_sequencer.md R164, spec/20_memory.md R62, R75): a raced byte as a free value, any
other as token memory holds it.
-/

namespace Sys2Proof.Machine

/-! ### Reading a byte (20 R61, R75) -/

theorem TokenMemory.isRaced_eq_false_iff (m : TokenMemory) (a : Nat) :
    m.isRaced a = false ↔ ∀ d ∈ m.duties, a ∉ d.raced := by
  simp [TokenMemory.isRaced]

/-- A fetch of a byte that is not raced: the byte in memory. -/
theorem fetch_unraced {s : State} (h : s.snd.cursor.toNat < s.tokenSize)
    (hr : s.tmem.isRaced s.snd.cursor.toNat = false) :
    fetch s = (some (Memory.read s.tmem.bytes s.snd.cursor.toNat),
      { s with snd := { s.snd with cursor := s.snd.cursor + 1 } }) := by
  rw [fetch_byte h]
  simp [fetched, State.tokenByte, State.tokenRead, hr]

/-- A fetch of a raced byte: the next free value, which is drawn. -/
theorem fetch_raced {s : State} (h : s.snd.cursor.toNat < s.tokenSize)
    (hr : s.tmem.isRaced s.snd.cursor.toNat = true) :
    fetch s = (some (Config.tokenDraw s.draws),
      { s with draws := s.draws + 1, snd := { s.snd with cursor := s.snd.cursor + 1 } }) := by
  rw [fetch_byte h]
  simp [fetched, State.tokenByte, State.tokenRead, hr]

/-- The cursor moves by one without wrap below TOKEN_MEM_SIZE (20 R62). -/
theorem cursor_succ_toNat {s : State} (h : s.snd.cursor.toNat < s.tokenSize) :
    (s.snd.cursor + 1).toNat = s.snd.cursor.toNat + 1 := fetched_cursor h

/-- Settles O9: the fetch on either side of the boundary TOKEN_MEM_SIZE. -/
theorem fetchReadsOneByte : Obligations.FetchReadsOneByte := by
  intro s hf
  refine ⟨fun hge => ?_, fun hlt => ⟨cursor_succ_toNat hlt, fun hr => ?_⟩⟩
  · rw [fetch_oob hge, scan_oob hge, raise_nil hf]
    exact ⟨rfl, rfl⟩
  · exact fetch_unraced hlt ((TokenMemory.isRaced_eq_false_iff _ _).mpr hr)

end Sys2Proof.Machine
end

section
/-!
PROOFS. What each step does to token memory and to the host's duties (spec/20_memory.md R60, R61, R70,
spec/70_reset_and_hazards.md R285): a tick step may end duties, a command may begin one, a host write changes one byte.
-/

namespace Sys2Proof.Machine

/-! ### A host step -/

/-- What a command leaves of token memory: all of it, and no stream live that was not; or a duty toward the stream at `a`
is begun, from where its scan will start. -/
def CommandTokens (s t : State) : Prop :=
  (t.tmem = s.tmem ∧ (t.snd.state.live = true → s.snd.state.live = true ∧ t.snd.cursor = s.snd.cursor)) ∨
    ∃ a, t.tmem = (s.beginDuty a).tmem ∧ t.snd.cursor = a.setWidth 17

/-- The host's write of the byte `b` at `a`, the next action of its program. -/
structure WritesToken (s t : State) (a : BitVec Config.wTaddr) (b : Byte) : Prop where
  prog : s.host.prog = .writeToken a b :: t.host.prog
  inside : a.toNat < s.tokenSize
  tmem : t.tmem = { bytes := Memory.write s.tmem.bytes a.toNat b, duties := s.dutiesAfter a.toNat }
  snd : t.snd = s.snd

theorem CommandTokens.of_eq {s t : State} (htmem : t.tmem = s.tmem) (hsnd : t.snd = s.snd) : CommandTokens s t :=
  Or.inl ⟨htmem, fun h => ⟨by rwa [hsnd] at h, by rw [hsnd]⟩⟩

theorem CommandTokens.bytes {s t : State} (h : CommandTokens s t) : t.tmem.bytes = s.tmem.bytes := by
  rcases h with ⟨htmem, -⟩ | ⟨a, htmem, -⟩
  · rw [htmem]
  · rw [htmem, State.beginDuty_bytes]

theorem exec_commandTokens {i : Instr} (hi : i.language = .command) {s t : State} (h : exec i s = .next t) :
    CommandTokens s t := by
  obtain ⟨t', ht', hcases⟩ := exec_tokens i hi s
  obtain rfl := Host.Outcome.next.inj (ht'.symm.trans h)
  rcases hcases with hkept | ⟨a, -, hbegun⟩
  · exact Or.inl hkept
  · exact Or.inr ⟨a, hbegun⟩

/-- A host step is a write of one byte, or does to token memory what a command can do. -/
theorem hostStep_tokens {s t : State} (h : hostStep s = .next t) :
    CommandTokens s t ∨ ∃ a b, WritesToken s t a b := by
  rcases hostStep_cases h with rfl | ⟨s0, -, -, rfl⟩ | ⟨r, i, u, -, -, hp, hu, rfl⟩ | ⟨r, -, -, -, rfl⟩ |
    ⟨frame, rest, i, -, -, -, hd, he⟩ | ⟨a, b, rest, -, -, hp, he⟩
  · exact Or.inl (.of_eq rfl rfl)
  · exact Or.inl (.of_eq rfl rfl)
  · have hk : CommandTokens s u := exec_commandTokens (primitive_command hp).1 hu
    exact Or.inl hk
  · exact Or.inl (.of_eq rfl rfl)
  · exact Or.inl (exec_commandTokens (s := s.popAct rest) (decode_command_language hd) he)
  · obtain ⟨hin, rfl⟩ := State.writeToken_next he
    exact Or.inr ⟨a, b, hp, hin, rfl, rfl⟩

/-! ### A tick step -/

/-- Settles O33: the frame of a tick step, without the schedule. -/
theorem tickKeepsHostState : Obligations.TickKeepsHostState := by
  intro s
  obtain ⟨t, ht, hf⟩ := tick_frame s
  exact ⟨t, ht, hf.front, hf.auxFront, hf.ctl, hf.host, hf.bytes, hf.par⟩

/-- A tick step without a sequencer tick leaves the sound state and all of token memory. -/
theorem tick_tokens_quiet {s t : State} (h : s.ctl.configured = true → s.drive.row ≠ 6#3) (ht : tick s = .next t) :
    t.tmem = s.tmem ∧ t.snd = s.snd := by
  have hs := displayOrSwap_frame s
  rcases tick_cases s with ⟨-, e⟩ | ⟨hc, q, m, -, -, hne, -, e⟩
  · obtain rfl := Host.Outcome.next.inj (e.symm.trans ht)
    exact ⟨rfl, rfl⟩
  · obtain ⟨rfl, rfl⟩ := hne (h hc)
    rcases e with ⟨-, e⟩ | ⟨-, e⟩ <;> obtain rfl := Host.Outcome.next.inj (e.symm.trans ht) <;>
      exact ⟨hs.tmem, hs.snd⟩

/-- A tick step with a sequencer tick that raises nothing: the sound state is the sequencer tick's, and of the duties only
the first stays, where a stream is live (70 R285). -/
theorem tick_tokens_sequencer {s t : State} (hc : s.ctl.configured = true) (hrow : s.drive.row = 6#3)
    (ht : tick s = .next t) (hf : t.faults = []) :
    ∃ q, seqTick (displayOrSwap s) = .next q ∧ t.snd = q.snd ∧
      t.tmem.duties = if t.snd.state.live then s.tmem.duties.take 1 else [] := by
  rcases tick_cases s with ⟨h, -⟩ | ⟨-, q, m, hfr, -, -, heq, e⟩
  · rw [hc] at h; cases h
  · obtain ⟨hq, rfl⟩ := heq hrow
    have hd : q.tmem.duties = s.tmem.duties :=
      congrArg TokenMemory.duties (hfr.tmem.trans (displayOrSwap_frame s).tmem)
    rcases e with ⟨h0, e⟩ | ⟨-, e⟩
    · obtain rfl := Host.Outcome.next.inj (e.symm.trans ht)
      exact absurd hf h0
    · obtain rfl := Host.Outcome.next.inj (e.symm.trans ht)
      exact ⟨q, hq, rfl, by rw [← hd]; rfl⟩

/-! ### Bytes change by a host write alone (20 R60, R61) -/

/-- Every step leaves the bytes of token memory, or is a host write of one of them. -/
theorem step_bytes {s t : State} (h : step s = .next t) :
    t.tmem.bytes = s.tmem.bytes ∨
      ∃ a b, s.host.prog = .writeToken a b :: t.host.prog ∧ a.toNat < s.tokenSize ∧
        t.tmem.bytes = Memory.write s.tmem.bytes a.toNat b := by
  obtain ⟨-, ⟨-, ht⟩ | ⟨-, -, hh⟩⟩ := step_cases h
  · obtain ⟨t', ht', hf⟩ := tick_frame s.turnTaken
    obtain rfl := Host.Outcome.next.inj (ht'.symm.trans ht)
    exact Or.inl (by rw [hf.bytes, turnTaken_tmem])
  · rcases hostStep_tokens hh with hk | ⟨a, b, hw⟩
    · exact Or.inl (by rw [hk.bytes, turnTaken_tmem])
    · refine Or.inr ⟨a, b, ?_, ?_, ?_⟩
      · rw [← hw.prog, turnTaken_host]
      · simpa only [State.tokenSize, turnTaken_par] using hw.inside
      · rw [hw.tmem, turnTaken_tmem]

/-- Settles O59: a step leaves every byte, or writes the one that the head of the host's program names. -/
theorem tokenMemoryWrites : Obligations.TokenMemoryWrites := by
  intro s t hwf h
  rcases step_bytes h with hb | ⟨a, b, hp, hin, hb⟩
  · exact Or.inl fun k => by rw [hb]
  · exact Or.inr ⟨a, b, t.host.prog, hp, rfl, hin, fun k => by rw [hb, Memory.read_write _ _ _ _ hwf]⟩

theorem step_memory_wf {s t : State} (hwf : Memory.wf s.tmem.bytes = true) (h : step s = .next t) :
    Memory.wf t.tmem.bytes = true := by
  rcases step_bytes h with hb | ⟨a, b, -, -, hb⟩
  · rw [hb]; exact hwf
  · rw [hb]; exact Memory.write_wf _ _ _ hwf

/-! ### The first duty is the one toward the live stream (log entry 5) -/

/-- `dutyOk` reads the sound state and the first duty's start alone. -/
theorem dutyOk_of_eq {s t : State} (hsnd : t.snd = s.snd)
    (hstart : t.tmem.duties.head?.map Duty.start = s.tmem.duties.head?.map Duty.start) (h : s.dutyOk) : t.dutyOk := by
  intro hl
  rw [hsnd] at hl ⊢
  obtain ⟨d, hd, hle⟩ := h hl
  rw [Option.mem_def.mp hd, Option.map_some] at hstart
  obtain ⟨e, he, hes⟩ := Option.map_eq_some_iff.mp hstart
  exact ⟨e, he, hes ▸ hle⟩

theorem turnTaken_dutyOk {s : State} (h : s.dutyOk) : s.turnTaken.dutyOk :=
  dutyOk_of_eq (turnTaken_snd s) (by rw [turnTaken_tmem]) h

/-- SETUP leaves no stream live, so no duty is asked for (70 R283). -/
theorem resetWith_answer_dutyOk (s : State) (l : BitVec 2) : ((s.resetWith l).answer none).dutyOk := by
  intro hl
  rw [State.answer_snd, resetWith_eq] at hl
  cases hl

theorem CommandTokens.dutyOk {s t : State} (h : CommandTokens s t) (hs : s.dutyOk) : t.dutyOk := by
  intro hl
  rcases h with ⟨htmem, hlive⟩ | ⟨a, htmem, hcur⟩
  · obtain ⟨hsl, hcur⟩ := hlive hl
    rw [htmem, hcur]
    exact hs hsl
  · rw [htmem, hcur]
    exact ⟨_, rfl, by simp [BitVec.toNat_setWidth]; omega⟩

theorem WritesToken.dutyOk {s t : State} {a : BitVec Config.wTaddr} {b : Byte} (h : WritesToken s t a b)
    (hs : s.dutyOk) : t.dutyOk := by
  refine dutyOk_of_eq h.snd ?_ hs
  rw [h.tmem, ← List.head?_map, ← List.head?_map, State.dutiesAfter_starts]

theorem hostStep_dutyOk {s t : State} (hs : s.ctl.configured = true → s.dutyOk) (h : hostStep s = .next t)
    (hf : t.faults = []) (hc : t.ctl.configured = true) : t.dutyOk := by
  rcases hostStep_frame h with ⟨rest, div, -, -, -, he⟩ | ⟨hfr, -⟩
  · rcases exec_setup div (s.popAct rest) with ⟨l, -, e⟩ | ⟨-, e⟩
    · obtain rfl := Host.Outcome.next.inj (e.symm.trans he)
      exact resetWith_answer_dutyOk _ l
    · obtain rfl := Host.Outcome.next.inj (e.symm.trans he)
      exact absurd hf (State.raise_faults_ne _ _)
  · rw [hfr.ctl] at hc
    rcases hostStep_tokens h with hk | ⟨a, b, hw⟩
    · exact hk.dutyOk (hs hc)
    · exact hw.dutyOk (hs hc)

theorem tick_dutyOk {s t : State} (hsf : s.faults = []) (hc : s.ctl.configured = true) (hs : s.dutyOk)
    (ht : tick s = .next t) (hf : t.faults = []) : t.dutyOk := by
  by_cases hrow : s.drive.row = 6#3
  · obtain ⟨q, hq, hsnd, hd⟩ := tick_tokens_sequencer hc hrow ht hf
    have hfr := displayOrSwap_frame s
    obtain ⟨q', hq', hcur, hlive⟩ := seqTick_cursor (hfr.faults.trans hsf)
    obtain rfl := Host.Outcome.next.inj (hq'.symm.trans hq)
    rw [hfr.snd] at hcur hlive
    intro hl
    rw [hd, if_pos hl, List.head?_take, if_neg Nat.one_ne_zero]
    rw [hsnd] at hl ⊢
    obtain ⟨d, hmem, hle⟩ := hs (hlive hl)
    exact ⟨d, hmem, hle.trans hcur⟩
  · obtain ⟨htmem, hsnd⟩ := tick_tokens_quiet (fun _ => hrow) ht
    exact dutyOk_of_eq hsnd (by rw [htmem]) hs

theorem step_dutyOk {s t : State} (hs : s.safe → s.ctl.configured = true → s.dutyOk) (h : step s = .next t)
    (hf : t.safe) (hc : t.ctl.configured = true) : t.dutyOk := by
  obtain ⟨hsf, hcases⟩ := step_cases h
  have before : s.turnTaken.ctl.configured = true → s.turnTaken.dutyOk := by
    intro hc'
    exact turnTaken_dutyOk (hs hsf (by simpa using hc'))
  rcases hcases with ⟨-, ht⟩ | ⟨-, -, hh⟩
  · obtain ⟨t', ht', hfr⟩ := tick_frame s.turnTaken
    obtain rfl := Host.Outcome.next.inj (ht'.symm.trans ht)
    rw [hfr.ctl] at hc
    exact tick_dutyOk ((turnTaken_faults s).trans hsf) hc (before hc) ht hf
  · exact hostStep_dutyOk before hh hf hc

/-- Settles O26: every step keeps the canonical form of token memory, and the first duty as the live stream's. -/
theorem memoryFormKept : Obligations.MemoryFormKept :=
  ⟨fun _ _ => step_memory_wf, fun _ _ => step_dutyOk⟩

end Sys2Proof.Machine
end

section
/-!
PROOFS. Raced bytes (spec/20_memory.md R70, R75, spec/70_reset_and_hazards.md R285): what a host write marks, what a command
and a tick step leave of the marks and the duties.
-/

namespace Sys2Proof.Machine

/-! ### A write marks its byte (20 R70, R75) -/

/-- The byte at `a` is one the host must leave alone: a stream read from its start, or the live one from SND_CURSOR, reaches
it. -/
theorem State.mustLeave_iff_exists (s : State) (running : Bool) (d : Duty) (a : Nat) :
    s.mustLeave running d a = true ↔ ∃ c : Nat,
      (c = d.start.toNat ∨ (running = true ∧ c = s.snd.cursor.toNat ∧ s.snd.state.live = true)) ∧
        s.tmem.reaches c a = true := by
  rw [s.mustLeave_iff]
  constructor
  · rintro (h | ⟨hr, hl, h⟩)
    · exact ⟨_, Or.inl rfl, h⟩
    · exact ⟨_, Or.inr ⟨hr, rfl, hl⟩, h⟩
  · rintro ⟨c, rfl | ⟨hr, rfl, hl⟩, h⟩
    · exact Or.inl h
    · exact Or.inr ⟨hr, hl, h⟩

/-- What was raced with a stream after a write of the byte at `a`, for the duty at place `j`. -/
theorem State.mem_raced_dutiesAfter {s : State} {a j : Nat} {d e : Duty} (hd : s.tmem.duties[j]? = some d)
    (he : (s.dutiesAfter a)[j]? = some e) (n : Nat) :
    n ∈ e.raced ↔ n ∈ d.raced ∨ (n = a ∧ s.mustLeave (j == 0) d a = true) := by
  rw [s.dutiesAfter_get, hd, Option.map_some] at he
  obtain rfl := Option.some.inj he
  exact s.mem_dutyAfter a n _ d

/-- The byte written is the one that a later fetch reads, unless the write left it raced. -/
theorem fetch_written {s t u : State} {a : BitVec Config.wTaddr} {b : Byte} (hwf : Memory.wf s.tmem.bytes = true)
    (hw : s.writeToken a b = .next t) (hr : t.tmem.isRaced a.toNat = false) (hu : u.tmem = t.tmem)
    (hpar : u.par = s.par) (hc : u.snd.cursor.toNat = a.toNat) :
    fetch u = (some b, { u with snd := { u.snd with cursor := u.snd.cursor + 1 } }) := by
  obtain ⟨hin, rfl⟩ := State.writeToken_next hw
  rw [fetch_unraced (by simpa only [State.tokenSize, hpar, hc] using hin) (by rw [hu, hc]; exact hr), hu, hc,
    Memory.read_write _ _ _ _ hwf, if_pos rfl]

/-! ### Commands (43 R220 to R222, 70 R283, R285) -/

theorem exec_tmem_of_ne_playSound {i : Instr} (hi : i.language = .command) (hn : ∀ a, i ≠ .playSound a) {s t : State}
    (h : exec i s = .next t) : t.tmem = s.tmem := by
  obtain ⟨t', ht', hcases⟩ := exec_tokens i hi s
  obtain rfl := Host.Outcome.next.inj (ht'.symm.trans h)
  rcases hcases with ⟨htmem, -⟩ | ⟨a, rfl, -⟩
  · exact htmem
  · exact absurd rfl (hn a)

/-- An accepted PLAY_SOUND begins the duty toward its stream. -/
theorem exec_playSound_tmem {a : BitVec Config.wTaddr} {s t : State} (hc : s.ctl.configured = true)
    (hd : s.snd.state ≠ .disabled) (h : exec (.playSound a) s = .next t) : t.tmem = (s.beginDuty a).tmem := by
  change execPlaySound a s = .next t at h
  unfold execPlaySound at h
  rw [ifConfigured_on hc, if_neg hd] at h
  obtain rfl := Host.Outcome.next.inj h
  rfl

/-! ### What a step leaves of the duties (70 R285) -/

/-- Every duty is still there, toward a stream of the same start, with all that was raced with it. -/
def DutiesKept (s t : State) : Prop :=
  ∀ d ∈ s.tmem.duties, ∃ e ∈ t.tmem.duties, e.start = d.start ∧ ∀ k ∈ d.raced, k ∈ e.raced

theorem DutiesKept.of_eq {s t : State} (h : t.tmem = s.tmem) : DutiesKept s t := by
  intro d hd
  exact ⟨d, by rwa [h], rfl, fun _ => id⟩

theorem beginDuty_dutiesKept (s : State) (a : BitVec Config.wTaddr) : DutiesKept s (s.beginDuty a) := by
  intro d hd
  by_cases ha : d.start = a
  · exact ⟨_, List.mem_cons_self, ha.symm, fun k hk => (s.tmem.mem_racedWith a k).mpr ⟨d, hd, ha, hk⟩⟩
  · exact ⟨d, List.mem_cons_of_mem _ (List.mem_filter.mpr ⟨hd, by simpa using ha⟩), rfl, fun _ => id⟩

theorem CommandTokens.dutiesKept {s t : State} (h : CommandTokens s t) : DutiesKept s t := by
  rcases h with ⟨htmem, -⟩ | ⟨a, htmem, -⟩
  · exact .of_eq htmem
  · unfold DutiesKept
    rw [htmem]
    exact beginDuty_dutiesKept s a

theorem WritesToken.dutiesKept {s t : State} {a : BitVec Config.wTaddr} {b : Byte} (h : WritesToken s t a b) :
    DutiesKept s t := by
  intro d hd
  obtain ⟨j, hj⟩ := List.mem_iff_getElem?.mp hd
  have he : (s.dutiesAfter a.toNat)[j]? = some (s.dutyAfter a.toNat (j == 0) d) := by
    rw [s.dutiesAfter_get, hj, Option.map_some]
  rw [h.tmem]
  exact ⟨_, List.mem_of_getElem? he, s.dutyAfter_start _ _ d, fun k hk => (s.mem_dutyAfter _ k _ d).mpr (Or.inl hk)⟩

/-- No step but a sequencer tick takes a duty away. -/
theorem step_dutiesKept {s t : State} (h : step s = .next t) (hn : ¬ s.sequencerNext) : DutiesKept s t := by
  obtain ⟨hsf, hcases⟩ := step_cases h
  have kept : DutiesKept s.turnTaken t := by
    rcases hcases with ⟨ha, ht⟩ | ⟨-, -, hh⟩
    · have quiet : s.turnTaken.ctl.configured = true → s.turnTaken.drive.row ≠ 6#3 := by
        rw [turnTaken_ctl, turnTaken_drive]
        exact fun hc hrow => hn ⟨hsf, ha, hc, hrow⟩
      exact .of_eq (tick_tokens_quiet quiet ht).1
    · rcases hostStep_tokens hh with hk | ⟨a, b, hw⟩
      · exact hk.dutiesKept
      · exact hw.dutiesKept
  simpa only [DutiesKept, turnTaken_tmem] using kept

/-- A sequencer tick that raises nothing leaves only the first duty, where a stream is live after it. -/
theorem step_duties_sequencer {s t : State} (h : step s = .next t) (hs : s.sequencerNext) (hf : t.faults = []) :
    t.tmem.duties = if t.snd.state.live then s.tmem.duties.take 1 else [] := by
  obtain ⟨hsf, ha, hc, hrow⟩ := hs
  rw [step_safe hsf, ha] at h
  obtain ⟨q, -, -, hd⟩ := tick_tokens_sequencer (s := s.turnTaken) (by rwa [turnTaken_ctl])
    (by rw [turnTaken_drive]; exact hrow) h hf
  rwa [turnTaken_tmem] at hd

/-- Settles O60: reads of raced bytes, the marks of a write, what a later fetch sees, commands, and steps. -/
theorem racedBytesAreFree : Obligations.RacedBytesAreFree := by
  refine ⟨fun s d hlt hd hr => ?_, fun s a b ha => ?_, fun s t u a b hwf hw hr hu hpar hc => ?_,
    fun i s t h => ⟨fun hi => ?_, fun a hi hc hd => ?_⟩, fun s t h => ⟨step_dutiesKept h, fun hs hf => ?_⟩⟩
  · exact fetch_raced hlt ((s.tmem.isRaced_iff _).mpr ⟨d, hd, hr⟩)
  · refine ⟨_, _, if_pos ha, s.dutiesAfter_starts _, fun j d e hd he n => ?_⟩
    rw [State.mem_raced_dutiesAfter hd he, State.mustLeave_iff_exists]
    simp only [TokenMemory.reaches_iff, TokenMemory.isRaced_iff, SndState.live_iff, beq_iff_eq]
    rfl
  · refine fetch_written hwf hw ((TokenMemory.isRaced_eq_false_iff _ _).mpr hr) hu hpar ?_
    rw [hc, BitVec.toNat_setWidth_of_le (by decide)]
  · rcases hi with rfl | rfl | ⟨div, rfl⟩ <;> exact exec_tmem_of_ne_playSound rfl (fun _ hp => by cases hp) h
  · subst hi
    refine ⟨_, _, exec_playSound_tmem hc hd h, rfl, s.tmem.mem_racedWith a, fun e => ?_⟩
    simp [List.mem_filter]
  · simpa only [SndState.live_iff] using step_duties_sequencer h hs hf

end Sys2Proof.Machine
end

section
/-!
PROOFS. Decode and encode agree, for instructions of both languages and for every token byte (spec/30_encoding.md R80 to
R83, R88, R89).
-/

namespace Sys2Proof

open Laws

/-! ### From an instruction to its bytes and back -/

/-- The round trip of every instruction, assembled from that of each constructor. -/
theorem roundTrip : ∀ i : Instr, RoundTrip.Statement i
  | .endTok => RoundTrip.endTok
  | .play d => RoundTrip.play d
  | .playr d => RoundTrip.playr d
  | .plays d => RoundTrip.plays d
  | .pause d => RoundTrip.pause d
  | .tempo k => RoundTrip.tempo k
  | .fadeoff => RoundTrip.fadeoff
  | .fadeup v => RoundTrip.fadeup v
  | .fadedn v => RoundTrip.fadedn v
  | .note n => RoundTrip.note n
  | .unrecognized b => RoundTrip.unrecognized b
  | .setup div => RoundTrip.setup div
  | .clear => RoundTrip.clear
  | .clearPixels => RoundTrip.clearPixels
  | .setPixel x y c => RoundTrip.setPixel x y c
  | .setPixelS x y c => RoundTrip.setPixelS x y c
  | .getPixel x y => RoundTrip.getPixel x y
  | .getPixelS x y => RoundTrip.getPixelS x y
  | .setAux mask => RoundTrip.setAux mask
  | .getAux => RoundTrip.getAux
  | .auxEnable k => RoundTrip.auxEnable k
  | .auxDisable k => RoundTrip.auxDisable k
  | .auxIsEnabled k => RoundTrip.auxIsEnabled k
  | .getButtonsCur => RoundTrip.getButtonsCur
  | .getButtonsLast => RoundTrip.getButtonsLast
  | .buttonPressed k => RoundTrip.buttonPressed k
  | .buttonDown k => RoundTrip.buttonDown k
  | .buttonReleased k => RoundTrip.buttonReleased k
  | .playSound a => RoundTrip.playSound a
  | .stopSound => RoundTrip.stopSound
  | .disableSound => RoundTrip.disableSound
  | .getPlayedNote => RoundTrip.getPlayedNote
  | .frameSync => RoundTrip.frameSync
  | .getLoadSample => RoundTrip.getLoadSample
  | .fillRect x y w h c => RoundTrip.fillRect x y w h c
  | .fillRectS x y w h c => RoundTrip.fillRectS x y w h c
  | .scroll dir => RoundTrip.scroll dir
  | .fadePixels => RoundTrip.fadePixels
  | .frameSyncShowLoad => RoundTrip.frameSyncShowLoad
  | .badCommand id => RoundTrip.badCommand id

/-- Settles O54: the round trip of each instruction. -/
theorem encodingRoundTrip : Obligations.EncodingRoundTrip := roundTrip

/-! ### From a token byte to its instruction and back (30 R80, R82) -/

/-- A byte is its class nibble before its operand nibble (30 R80). -/
theorem tokenByte_of_nibbles {t : Byte} {c a : BitVec 4} (hc : t.extractLsb' 4 4 = c) (ha : t.extractLsb' 0 4 = a) :
    tokenByte c a = t := by
  rw [← hc, ← ha]
  exact BitVec.extractLsb'_append_extractLsb' (w := 4) (len := 4)

/-- A note's byte is bit 7 before the note number (30 R81). -/
theorem noteByte_of_bit7 {t : Byte} (h : t.getLsbD 7 = true) : 1#1 ++ t.extractLsb' 0 7 = t := by
  have h7 : t.extractLsb' 7 1 = 1#1 := by rwa [BitVec.getLsbD_eq_extractLsb', beq_iff_eq] at h
  rw [← h7]
  exact BitVec.extractLsb'_append_extractLsb' (w := 1) (len := 7)

/-- A duration code fills its operand nibble (30 R81). -/
theorem durationNibble : ∀ a : BitVec 4, a ≤ 6#4 → a = (a.setWidth 3).setWidth 4 := by decide

/-- The operand nibble of FADEUP is bit 3 clear and the speed (30 R81). -/
theorem fadeupNibble : ∀ a : BitVec 4, a.getLsbD 3 = false → a = 0#1 ++ a.setWidth 3 := by decide

/-- The operand nibble of FADEDN is bit 3 set and the speed (30 R81). -/
theorem fadednNibble : ∀ a : BitVec 4, ¬ a.getLsbD 3 = false → a = 1#1 ++ a.setWidth 3 := by decide

/-- The byte of PLAY, PLAYR, PLAYS or PAUSE, each with its own class. -/
theorem durationByte {t : Byte} {c : BitVec 4} (h : t.extractLsb' 4 4 = c ∧ t.extractLsb' 0 4 ≤ 6#4) :
    tokenByte c (((t.extractLsb' 0 4).setWidth 3).setWidth 4) = t :=
  tokenByte_of_nibbles h.1 (durationNibble _ h.2)

/-- The decoder of tokens loses nothing of its byte: along the lines of R82, each class gives its byte back. -/
theorem encode_decodeToken (b : Byte) : encode (decodeToken b) = [b] := by
  unfold decodeToken
  dsimp only
  split_ifs with hnote hend hplay hplayr hplays hpause htempo hoff hup hdn
  all_goals refine congrArg ([·]) ?_
  · exact noteByte_of_bit7 hnote
  · exact hend.symm
  · exact durationByte hplay
  · exact durationByte hplayr
  · exact durationByte hplays
  · exact durationByte hpause
  · exact tokenByte_of_nibbles htempo rfl
  · exact tokenByte_of_nibbles hoff.1 hoff.2
  · exact tokenByte_of_nibbles hup.1 (fadeupNibble _ hup.2)
  · exact tokenByte_of_nibbles hdn.1 (fadednNibble _ fun h3 => hup ⟨hdn.1, h3⟩)
  · rfl

/-- A token is one byte (30 R80). -/
theorem decode_token_length {bs : List Byte} {i : Instr} (h : decode .token bs = .ok i) : ∃ b, bs = [b] := by
  rcases bs with _ | ⟨b, _ | ⟨c, bs⟩⟩
  · cases h
  · exact ⟨b, rfl⟩
  · cases h

/-- Settles O55: a byte decodes to a well-formed token and back, and no list of another length decodes. -/
theorem tokenBytesExact : Obligations.TokenBytesExact :=
  ⟨fun b => ⟨rfl, encode_decodeToken b, Machine.wf_of_decode b, Machine.decodeToken_language b⟩,
    fun _ _ => decode_token_length⟩

/-- Settles O56: the decoder run on each word. -/
theorem decodedWords : Obligations.DecodedWords := by
  unfold Obligations.DecodedWords
  decide

/-! ### The reserved bytes (30 R83) -/

/-- The round trip makes UNRECOGNIZED exactly the reserved bytes, each with its own byte. -/
theorem decodeToken_eq_unrecognized_iff (b c : Byte) :
    decodeToken b = .unrecognized c ↔ b = c ∧ reservedToken b = true := by
  constructor
  · intro h
    have hbyte := encode_decodeToken b
    have hwf := Machine.wf_of_decode b
    rw [h] at hbyte hwf
    obtain rfl : c = b := List.singleton_inj.mp hbyte
    exact ⟨rfl, hwf⟩
  · rintro ⟨rfl, h⟩
    exact Except.ok.inj (RoundTrip.unrecognized b h)

/-- The ranges of R83, written out. -/
theorem reservedToken_iff (b : Byte) : reservedToken b = true ↔
    (0x01 ≤ b.toNat ∧ b.toNat ≤ 0x0F) ∨ (0x17 ≤ b.toNat ∧ b.toNat ≤ 0x1F) ∨ (0x27 ≤ b.toNat ∧ b.toNat ≤ 0x2F) ∨
      (0x37 ≤ b.toNat ∧ b.toNat ≤ 0x3F) ∨ (0x47 ≤ b.toNat ∧ b.toNat ≤ 0x4F) ∨ b.toNat = 0x68 ∨
      (0x70 ≤ b.toNat ∧ b.toNat ≤ 0x7F) := by
  simp [reservedToken, reservedRanges, Nat.le_antisymm_iff, and_comm]

end Sys2Proof
end

section
/-!
PROOFS. How the decoded instruction is run: an unrecognized token in a scan (spec/42_sound_sequencer.md R192), an unlisted
command id (spec/43_host_interface.md R227), and the command at the head of the host's program (spec/30_encoding.md R88).
-/

namespace Sys2Proof.Machine

/-! ### Unrecognized tokens (42 R192) -/

theorem exec_unrecognized (c : Byte) (s : State) : exec (.unrecognized c) s = .next s := rfl

/-- There are 68 reserved bytes (30 R83). -/
theorem countP_unrecognized : ((List.range 256).countP fun k =>
    decide (decodeToken (BitVec.ofNat 8 k) = .unrecognized (BitVec.ofNat 8 k))) = 68 := by
  decide +kernel

/-- A scan goes on past an unrecognized token. -/
theorem scan_unrecognized {b c : Byte} {s t : State} (hf : fetch s = (some b, t))
    (hb : decodeToken b = .unrecognized c) : scan s = scan t := by
  rw [scan_fetch hf (u := t) (by rw [hb, exec_unrecognized]), hb]
  rfl

/-- Settles O7: the reserved bytes, their number, and the scan past one. -/
theorem unrecognizedTokenSkipped : Obligations.UnrecognizedTokenSkipped :=
  ⟨fun b c => by rw [decodeToken_eq_unrecognized_iff, reservedToken_iff], countP_unrecognized, exec_unrecognized,
    fun _ _ _ _ => scan_unrecognized⟩

/-! ### Unlisted command ids (43 R227) -/

theorem exec_badCommand (id : Byte) (s : State) :
    exec (.badCommand id) s = ifConfigured id s (.next (s.raise (.badCommand id))) := rfl

theorem listedId_eq_false {id : Byte}
    (h : ¬ ((0x01 ≤ id.toNat ∧ id.toNat ≤ 0x17) ∨ (0x20 ≤ id.toNat ∧ id.toNat ≤ 0x24))) : listedId id = false := by
  simpa only [listedId, ← Bool.not_eq_true, Bool.or_eq_true, Bool.and_eq_true, decide_eq_true_eq] using h

/-- Settles O46: an unlisted id decodes to BAD_COMMAND, which raises one fault, by whether the block is configured. -/
theorem unknownCommandsRefused : Obligations.UnknownCommandsRefused := by
  intro id h
  refine ⟨fun ops => decodeCommand_unlisted id ops (listedId_eq_false h), fun s hf => ⟨fun hc => ?_, fun hc => ?_⟩⟩
  · rw [exec_badCommand, ifConfigured_on hc, raise_nil hf]
  · rw [exec_badCommand, ifConfigured_off hc, raise_nil hf]

/-! ### The step of a command (30 R88) -/

/-- A host that waits for nothing and has an action left has a step, so the schedule names who moves. -/
theorem acting_of_prog {s : State} {g : Agent} {gs : List Agent} {a : HostAct} {rest : List HostAct}
    (hw : s.host.wait = none) (hp : s.host.prog = a :: rest) (hs : s.sched = g :: gs) : acting s = g := by
  simp [acting, hostEnabled, State.turn, hw, hp, hs]

/-- A free host runs the command at the head of its program. -/
theorem hostStep_command {s : State} {frame : List Byte} {rest : List HostAct} {i : Instr}
    (hw : s.host.wait = none) (hr : s.host.routine = none) (hp : s.host.prog = .command frame :: rest)
    (hd : decode .command frame = .ok i) : hostStep s = exec i (s.popAct rest) := by
  simp [hostStep, programStep, commandStep, hw, hr, hp, hd]

/-- Settles O57: the schedule names the host, and its step is the command's. -/
theorem stepRunsCommand : Obligations.StepRunsCommand := by
  intro s frame rest gs i hf hw hr hp hs hd
  calc step s = hostStep s.turnTaken := by rw [step_safe hf, acting_of_prog hw hp hs]; rfl
    _ = exec i (s.turnTaken.popAct rest) :=
        hostStep_command (by rwa [turnTaken_host]) (by rwa [turnTaken_host]) (by rwa [turnTaken_host]) hd
    _ = exec i { s with sched := gs, host := { s.host with prog := rest } } := by rw [turnTaken_cons hs]; rfl

end Sys2Proof.Machine
end

section
/-!
PROOFS. The pipeline invariant of the multiplexer, kept by every step, and the column frame that a tick step latches
(spec/40_multiplexer.md R105, R107, R108).
-/

namespace Sys2Proof.Machine

/-- The pipeline invariant reads the drive state and BACK alone. -/
theorem pipeline_of_eq {s t : State} (hdrive : t.drive = s.drive) (hback : t.store.back = s.store.back)
    (h : s.pipeline) : t.pipeline := by
  unfold State.pipeline at *
  rw [hdrive, hback]
  exact h

theorem resetWith_answer_pipeline (s : State) (l : BitVec 2) : ((s.resetWith l).answer none).pipeline := by
  obtain ⟨hpipe, -⟩ := resetWith_inv s l
  exact pipeline_of_eq (s := s.resetWith l) rfl rfl hpipe

/-- Away from a qualifying boundary the tick step is a display step, which latches AUX_ACTIVE and NEXT_PAT (40 R105, R107):
the divider of an unqualified boundary moves neither. -/
theorem displayOrSwap_colOut {s : State} (h : (s.atBoundary && s.qualifies) = false) :
    (displayOrSwap s).out.colOut = s.store.auxActive ++ s.drive.nextPat := by
  unfold displayOrSwap
  split
  · next hb =>
    have hq : s.qualifies = false := by simpa [hb] using h
    rw [hq, if_neg Bool.false_ne_true, displayStep_eq]
    rfl
  · rw [displayStep_eq]

/-- The sequencer tick and the cursor advance write no COL_OUT, whether or not the step raises. -/
theorem tick_colOut {s t : State} (hc : s.ctl.configured = true) (ht : tick s = .next t) :
    t.out.colOut = (displayOrSwap s).out.colOut := by
  rcases tick_cases s with ⟨h, -⟩ | ⟨-, q, m, hq, -, -, -, e⟩
  · rw [hc] at h; cases h
  · rcases e with ⟨-, e⟩ | ⟨-, e⟩ <;> obtain rfl := Host.Outcome.next.inj (e.symm.trans ht) <;> exact hq.colOut

/-- Settles O23: SETUP and every tick step make NEXT_PAT the pattern of the new cursor, no other host step writes what the
invariant reads, and a display step latches that pattern. -/
theorem pipelineKept : Obligations.PipelineKept := by
  refine ⟨fun s t => ?_, fun s t _ hc hp hn ht => ?_⟩
  · exact step_keeps
      (hturn := fun s h => pipeline_of_eq (turnTaken_drive s) (by rw [turnTaken_store]) h)
      (hsetup := resetWith_answer_pipeline)
      (htick := fun _ _ hc _ ht hf => tick_pipeline hc ht hf)
      (hhost := fun _ _ h hfr _ => pipeline_of_eq hfr.drive hfr.back h)
  · have quiet : (s.atBoundary && s.qualifies) = false := by
      rw [← Bool.not_eq_true, Bool.and_eq_true]
      exact fun ⟨hb, hq⟩ => hn ⟨hc, hb, hq⟩
    rw [tick_colOut hc ht, displayOrSwap_colOut quiet, hp]
    rfl

end Sys2Proof.Machine
end

section
/-!
PROOFS. The host commands do not read the display: two runs that differ only in the drive state and the display's outputs
differ only there afterwards (spec/40_multiplexer.md R112, spec/60_exceptions.md R268).
-/

namespace Sys2Proof.Machine

/-- The state with another drive state and other display outputs: all that a command other than SETUP must not read. -/
def State.withDisplay (d : Drive) (row : BitVec 8) (col : BitVec 32) (s : State) : State :=
  { s with drive := d, out := { s.out with rowEn := row, colOut := col } }

/-- Two answers are next states that differ in the display alone: the second holds `d`, `row` and `col` there. -/
def DisplayBlind (d : Drive) (row : BitVec 8) (col : BitVec 32) (o o' : Answer) : Prop :=
  ∃ t, o = .next t ∧ o' = .next (t.withDisplay d row col)

section
variable {d : Drive} {row : BitVec 8} {col : BitVec 32} {s : State}

/-- A test that reads no display chooses the same branch in both runs. -/
theorem blind_ite {p : Prop} [Decidable p] {a a' b b' : Answer} (ha : DisplayBlind d row col a a')
    (hb : DisplayBlind d row col b b') : DisplayBlind d row col (if p then a else b) (if p then a' else b') := by
  by_cases hp : p
  · rwa [if_pos hp, if_pos hp]
  · rwa [if_neg hp, if_neg hp]

/-- The configuration test reads no display, and neither does the fault it raises. -/
theorem blind_guarded {id : Byte} {k k' : Answer} (h : DisplayBlind d row col k k') :
    DisplayBlind d row col (ifConfigured id s k) (ifConfigured id (s.withDisplay d row col) k') :=
  blind_ite h ⟨_, rfl, rfl⟩

theorem clockTaken_withDisplay :
    (s.withDisplay d row col).clockTaken = s.clockTaken.withDisplay d row col := by
  rcases h : s.inp.clock with _ | ⟨v, vs⟩ <;> simp [State.clockTaken, State.withDisplay, h]

end

/-- No command but SETUP reads the drive state, ROW_EN or COL_OUT. -/
theorem exec_blind (i : Instr) (hi : i.language = .command) (hn : ∀ div, i ≠ .setup div) (d : Drive) (row : BitVec 8)
    (col : BitVec 32) (s : State) :
    DisplayBlind d row col (exec i s) (exec i (s.withDisplay d row col)) := by
  cases i
  case setup div => exact absurd rfl (hn div)
  case endTok | play | playr | plays | pause | tempo | fadeoff | fadeup | fadedn | note | unrecognized => cases hi
  case clear | clearPixels | setAux | getAux | getButtonsCur | getButtonsLast | disableSound | getPlayedNote |
      frameSync | fillRect | fillRectS | scroll | fadePixels | frameSyncShowLoad | badCommand =>
    exact blind_guarded ⟨_, rfl, rfl⟩
  case setPixel x y c | setPixelS x y c | getPixel x y | getPixelS x y =>
    refine blind_guarded ?_
    cases inMatrix x y <;> exact ⟨_, rfl, rfl⟩
  case auxEnable k | auxDisable k | auxIsEnabled k =>
    refine blind_guarded ?_
    cases auxIndex k <;> exact ⟨_, rfl, rfl⟩
  case buttonPressed k | buttonDown k | buttonReleased k =>
    refine blind_guarded ?_
    unfold buttonQuery
    cases buttonIndex k <;> exact ⟨_, rfl, rfl⟩
  case playSound | stopSound => exact blind_guarded (blind_ite ⟨_, rfl, rfl⟩ ⟨_, rfl, rfl⟩)
  case getLoadSample =>
    refine blind_guarded ?_
    rw [clockTaken_withDisplay]
    exact ⟨_, rfl, rfl⟩

/-- Settles O32: the command's frame, and that it reads no display. -/
theorem hostBlindToDisplay : Obligations.HostBlindToDisplay := by
  intro i s hi hn
  obtain ⟨t, ht, hfr, -⟩ := exec_command i hi hn s
  refine ⟨t, ht, hfr.drive, hfr.ctl, hfr.back, hfr.auxActive, hfr.frame, hfr.btn, hfr.rowEn, hfr.colOut, hfr.tonePeriod,
    hfr.bytes, fun d row col => ?_⟩
  obtain ⟨t', ht', hblind⟩ := exec_blind i hi hn d row col s
  obtain rfl := Host.Outcome.next.inj (ht'.symm.trans ht)
  exact hblind

end Sys2Proof.Machine
end

section
/-!
PROOFS. The order of a tick step, and the token that a tick step with a start request runs first (spec/40_multiplexer.md
R100, R109, spec/41_frame_sync.md R130 to R132, spec/42_sound_sequencer.md R163, R165).
-/

namespace Sys2Proof.Machine

/-! ### The display or the swap (41 R130 to R132) -/

theorem atBoundary_iff (s : State) : s.atBoundary = true ↔ s.drive.row = 7 ∧ s.drive.level = 15 := by
  simp [State.atBoundary]

/-- The decremented count is 0 at the count of 1 alone. -/
theorem divc_pred_eq_zero_iff (d : BitVec 4) : d - 1 = 0#4 ↔ d = 1 := sub_eq_zero

/-- The boundary at which the count of 1 reaches 0 qualifies. -/
theorem qualifies_iff (s : State) : s.qualifies = true ↔ s.drive.divc = 1 := by
  rw [State.qualifies, decide_eq_true_eq, divc_pred_eq_zero_iff]

theorem divider_reload {s : State} (h : s.drive.divc = 1) :
    divider s = { s with drive := { s.drive with divc := 1#4 <<< s.ctl.frameDivLog2.toNat } } := by
  unfold divider
  rw [if_pos ((divc_pred_eq_zero_iff _).mpr h)]
  rfl

theorem divider_count {s : State} (h : s.drive.divc ≠ 1) :
    divider s = { s with drive := { s.drive with divc := s.drive.divc - 1 } } := by
  unfold divider
  rw [if_neg (mt (divc_pred_eq_zero_iff _).mp h)]

theorem displayOrSwap_qualifying {s : State} (hb : s.atBoundary = true) (hq : s.qualifies = true) :
    displayOrSwap s = swapStep (divider s) := by
  rw [displayOrSwap, if_pos hb, if_pos hq]

theorem displayOrSwap_unqualified {s : State} (hb : s.atBoundary = true) (hq : ¬ s.qualifies = true) :
    displayOrSwap s = displayStep (divider s) := by
  rw [displayOrSwap, if_pos hb, if_neg hq]

theorem displayOrSwap_inside {s : State} (hb : ¬ s.atBoundary = true) : displayOrSwap s = displayStep s := by
  rw [displayOrSwap, if_neg hb]

/-! ### The parts after it (40 R100, R109) -/

theorem endDuties_next (p : State) : endDuties (.next p) = .next (if p.faults = [] then p.dutiesEnd else p) :=
  (apply_ite _ _ _ _).symm

theorem finishTick_next (q : State) :
    finishTick (.next q) = .next (if q.faults = [] then advanceCursor q else q) :=
  (apply_ite _ _ _ _).symm

theorem tick_configured {s : State} (h : s.ctl.configured = true) :
    tick s = finishTick (sequencerPart (displayOrSwap s)) := by
  rw [tick, if_pos h]

theorem tick_unconfigured {s : State} (h : s.ctl.configured = false) : tick s = .next s := by
  rw [tick, h, if_neg Bool.false_ne_true]

/-- The sequencer's part always answers, and leaves the drive state: the sequencer tick at row 6 with the end of the host's
duties, nothing at another row. -/
theorem sequencerPart_next (s : State) : ∃ q : State, sequencerPart s = .next q ∧ q.drive = s.drive ∧
    (s.drive.row ≠ 6 → q = s) ∧
    (s.drive.row = 6 → ∃ p : State, seqTick s = .next p ∧ q = if p.faults = [] then p.dutiesEnd else p) := by
  rcases sequencerPart_cases s with ⟨hr, e⟩ | ⟨hr, p, hp, hf, ⟨h0, e⟩ | ⟨h0, e⟩⟩
  · exact ⟨s, e, rfl, fun _ => rfl, fun h => absurd h hr⟩
  · exact ⟨p, e, hf.drive, fun h => absurd hr h, fun _ => ⟨p, hp, (if_neg h0).symm⟩⟩
  · exact ⟨p.dutiesEnd, e, hf.drive, fun h => absurd hr h, fun _ => ⟨p, hp, (if_pos h0).symm⟩⟩

/-- Settles O15: the display or the swap by the boundary and the divider, then the sequencer's part, then the cursor
advance unless that part raised. -/
theorem tickStep : Obligations.TickStep := by
  intro s _
  refine ⟨tick_unconfigured, fun hc => ⟨?qualifying, ?unqualified, ?inside, ?rest⟩⟩
  case qualifying =>
    rintro ⟨hr, hl, hd⟩
    rw [displayOrSwap_qualifying ((atBoundary_iff s).mpr ⟨hr, hl⟩) ((qualifies_iff s).mpr hd), divider_reload hd]
  case unqualified =>
    rintro ⟨hr, hl, hd⟩
    rw [displayOrSwap_unqualified ((atBoundary_iff s).mpr ⟨hr, hl⟩) (mt (qualifies_iff s).mp hd), divider_count hd]
  case inside => exact fun h => displayOrSwap_inside (mt (atBoundary_iff s).mp h)
  case rest =>
    have hshow := displayOrSwap_frame s
    obtain ⟨q, hq, hdrive, hquiet, hseq⟩ := sequencerPart_next (displayOrSwap s)
    rw [hshow.row] at hquiet hseq
    have htick : tick s = .next (if q.faults = [] then advanceCursor q else q) := by
      rw [tick_configured hc, hq, finishTick_next]
    refine ⟨q, hquiet, hseq, fun h => by rw [htick, if_neg h], fun h => ?_⟩
    rw [htick, if_pos h, advanceCursor, hdrive, hshow.row, hshow.level]

/-! ### The first token of a start request (42 R163, R165) -/

/-- Where the schedule names the tick agent, it moves, whatever the host has to do. -/
theorem acting_of_tick {s : State} {gs : List Agent} (h : s.sched = .tick :: gs) : acting s = .tick := by
  simp [acting, State.turn, h]

/-- At row 6 of a configured block a start request is scanned after the display step, with its defaults. -/
theorem tick_startRequest {s : State} (hc : s.ctl.configured = true) (hr : s.drive.row = 6)
    (hs : s.snd.state = .startRequested) :
    tick s = finishTick (endDuties (scan (startDefaults (displayStep s)))) := by
  have hin : ¬ s.atBoundary = true := by simp [atBoundary_iff, hr]
  have hseq : seqTick (displayStep s) = scan (startDefaults (displayStep s)) := by
    unfold seqTick
    rw [(displayStep_frame s).snd, hs]
    rfl
  have hrow : (displayStep s).drive.row = Config.seqRow := hr
  rw [tick_configured hc, displayOrSwap_inside hin, sequencerPart, if_pos hrow, hseq]

theorem fetched_snd (s : State) : (fetched s).snd = { s.snd with cursor := s.snd.cursor + 1 } := by
  simp [fetched]

/-- The end of a tick step at row 6 that raised nothing. -/
theorem finishTick_row6 {u : State} (hf : u.faults = []) (hr : u.drive.row = 6) :
    finishTick (endDuties (.next u)) = .next { u.dutiesEnd with drive := { u.drive with row := 7 } } := by
  have hf' : u.dutiesEnd.faults = [] := hf
  rw [endDuties_next, if_pos hf, finishTick_next, if_pos hf', advanceCursor, State.dutiesEnd_drive, hr]
  rfl

/-- Settles O58: the step is the tick's, whose scan begins with the token fetched at the cursor. -/
theorem stepRunsToken : Obligations.StepRunsToken := by
  intro s r t u b gs hf hc hr hs hg hrs hfetch hexec
  have hstep : step s = finishTick (endDuties (scan r)) := by
    rw [step_safe hf, acting_of_tick hg, turnTaken_cons hg, hrs]
    exact tick_startRequest hc hr hs
  rw [hstep, scan_fetch hfetch hexec]
  obtain ⟨-, -, rfl⟩ := fetch_some hfetch
  obtain ⟨u', hu', htok⟩ := exec_token (decodeToken b) (decodeToken_language b) (fetched r)
  obtain rfl := Host.Outcome.next.inj (hu'.symm.trans hexec)
  refine ⟨?_, ?_, fun he => ?_, fun he => ?_⟩
  · rw [fetched_snd, hrs]; rfl
  · rw [fetched_snd, hrs]; rfl
  · have hfaults : u'.faults = [] := by rw [htok.faults, fetched_faults, hrs]; exact hf
    have hrow : u'.drive.row = 6 := by rw [htok.drive, (fetched_frame r).drive, hrs]; exact hr
    rw [if_pos he, finishTick_row6 hfaults hrow]
  · rw [he, if_neg Bool.false_ne_true]

end Sys2Proof.Machine
end

section
/-!
PROOFS. The order of a sweep: the positions of the drive cursor and the tick steps that move it (spec/40_multiplexer.md R101
to R104).
-/

namespace Sys2Proof.Machine

/-- The cursor successor by the row's number (40 R101). -/
theorem nextCursor_eq (r : BitVec 3) (b : Level) :
    nextCursor r b = if r.toNat < 7 then (r + 1, b) else (0, b + 1) := by
  have hlast : r = 7#3 ↔ ¬ r.toNat < 7 := by bv_omega
  unfold nextCursor
  rw [if_congr hlast rfl rfl, ite_not]

/-- Position `n` of a sweep (40 R103): row n mod 8, level n / 8 mod 16. -/
def sweepPosition (n : Nat) : BitVec 3 × Level := (BitVec.ofNat 3 (n % 8), BitVec.ofNat 4 (n / 8 % 16))

theorem nextCursor_sweepPosition (n : Nat) :
    nextCursor (sweepPosition n).1 (sweepPosition n).2 = sweepPosition (n + 1) := by
  rw [nextCursor_eq]
  unfold sweepPosition
  split <;> ext1 <;> bv_omega

/-- From the start of a sweep, the cursor after `n` tick steps is at position `n`. -/
theorem cursorAfter_origin (n : Nat) : cursorAfter n (0, 0) = sweepPosition n := by
  induction n with
  | zero => rfl
  | succ n ih => rw [cursorAfter_succ, ih, nextCursor_sweepPosition]

theorem cursorAfter_add (m n : Nat) (c : BitVec 3 × Level) :
    cursorAfter m (cursorAfter n c) = cursorAfter (n + m) c := by
  induction m with
  | zero => rfl
  | succ m ih => rw [cursorAfter_succ, ih, ← Nat.add_assoc, cursorAfter_succ]

/-- A sweep has 128 positions. -/
theorem sweepPosition_add_sweep (n : Nat) : sweepPosition (n + 128) = sweepPosition n := by
  unfold sweepPosition
  congr 2 <;> omega

/-- The 128 positions of a sweep are different. -/
theorem sweepPosition_inj {m n : Nat} (hm : m < 128) (hn : n < 128) (h : sweepPosition m = sweepPosition n) : m = n := by
  obtain ⟨hrow, hlevel⟩ := Prod.mk.inj h
  bv_omega

/-- Every row and level is a position of the sweep. -/
theorem sweepPosition_of_cursor (r : BitVec 3) (b : Level) : sweepPosition (r.toNat + 8 * b.toNat) = (r, b) := by
  unfold sweepPosition
  ext1 <;> bv_omega

/-- `n` tick steps of a configured block that raise nothing move the cursor to its `n`-th successor: a swap and a display
step alike. -/
theorem ticks_cursor : ∀ (n : Nat) {s t : State}, s.ctl.configured = true → ticks n s = .next t → t.faults = [] →
    (t.drive.row, t.drive.level) = cursorAfter n (s.drive.row, s.drive.level)
  | 0, s, t, _, h, _ => by obtain rfl := Host.Outcome.next.inj h; rfl
  | n + 1, s, t, hc, h, hf => by
    obtain ⟨u, hu, hfr⟩ := agentStep_tick s
    have hrun : (if u.faults = [] then ticks n u else .next u) = .next t :=
      (runAgents_cons (gs := List.replicate n .tick) hu).symm.trans h
    split at hrun
    · next huf =>
      rw [ticks_cursor n (by rwa [hfr.ctl]) hrun hf, tick_cursor hc hu huf]
      rfl
    · next huf =>
      obtain rfl := Host.Outcome.next.inj hrun
      exact absurd hf huf

/-- Settles O18: the successor, the positions from the start of a sweep, each met once in 128 steps, and the tick steps. -/
theorem sweepOrder : Obligations.SweepOrder := by
  refine ⟨nextCursor_eq, cursorAfter_origin, fun r b => ⟨?_, r.toNat + 8 * b.toNat, ?_, ?_, fun m hm h => ?_⟩,
    fun n s t hc _ => ticks_cursor n hc⟩
  · rw [← sweepPosition_of_cursor, ← cursorAfter_origin, cursorAfter_add, cursorAfter_origin, cursorAfter_origin,
      sweepPosition_add_sweep]
  · omega
  · rw [cursorAfter_origin, sweepPosition_of_cursor]
  · rw [cursorAfter_origin, ← sweepPosition_of_cursor] at h
    exact sweepPosition_inj hm (by omega) h

end Sys2Proof.Machine
end

section
/-!
PROOFS. The display step and the pattern it precomputes: the channels compared with the threshold, the dark level, and the
levels at which a channel is lit (spec/40_multiplexer.md R105 to R107, R110, R111).
-/

namespace Sys2Proof.Machine

/-- Settles O16: the display step is one update. -/
theorem displayStepOutputs : Obligations.DisplayStepOutputs := displayStep_eq

/-! ### Lanes (40 R106) -/

theorem lit_eq (v t : Level) : lit v t = decide (t.toNat < v.toNat) := rfl

/-- Settles O19: the bits of the three channels are their lanes, each a compare of that channel's number. -/
theorem patternLanes : Obligations.PatternLanes := by
  intro p y x t
  obtain ⟨hred, hgreen, hblue⟩ := channels_toNat (Picture.pixel p x y)
  rw [← hred, ← hgreen, ← hblue, ← lit_eq, ← lit_eq, ← lit_eq]
  obtain ⟨hr, hg, hb⟩ := triple_getLsbD (byteOfLanes fun x => lit (red (Picture.pixel p x y)) t)
    (byteOfLanes fun x => lit (green (Picture.pixel p x y)) t)
    (byteOfLanes fun x => lit (blue (Picture.pixel p x y)) t) x.val x.isLt
  rw [byteOfLanes_getLsbD] at hr hg hb
  exact ⟨hr, hg, hb⟩

/-! ### The dark level and the lit levels (40 R110, R111) -/

/-- No intensity exceeds 15. -/
theorem lit_top (v : Level) : lit v 15 = false := by
  rw [lit_eq, decide_eq_false_iff_not]
  exact Nat.not_lt.mpr (Nat.le_of_lt_succ v.isLt)

theorem pattern_top (p : Picture) (y : Fin 8) : pattern p y 15 = 0 := by
  simp only [pattern, lit_top, byteOfLanes_false]
  rfl

/-- The numbers below 16 that lie below `v`. -/
theorem filter_lt_range16 : ∀ v ≤ 16, ((List.range 16).filter fun b => decide (b < v)) = List.range v := by decide

/-- A bit that compares the level with an intensity is set at exactly the levels below that intensity. -/
theorem filter_levels {f : Level → Bool} {v : Nat} (hv : v ≤ 16) (hf : ∀ t : Level, f t = decide (t.toNat < v)) :
    ((List.range 16).filter fun b => f (BitVec.ofNat 4 b)) = List.range v := by
  rw [← filter_lt_range16 v hv]
  refine List.filter_congr fun b hb => ?_
  have hb : b < 2 ^ 4 := List.mem_range.mp hb
  rw [hf, BitVec.toNat_ofNat, Nat.mod_eq_of_lt hb]

/-- A display step latches NEXT_PAT below the auxiliary mask (40 R107). -/
theorem displayStep_columns (s : State) : (displayStep s).out.colOut.setWidth 24 = s.drive.nextPat := by
  rw [displayStep_eq]
  exact BitVec.setWidth_append_eq_right

/-- Settles O20: level 15 is dark, an intensity is lit at the levels below it, and the latched triple of level 15 is dark
under the pipeline invariant. -/
theorem darkLevelAndDuty : Obligations.DarkLevelAndDuty := by
  refine ⟨pattern_top, fun p y x => ?_, fun s hp hl => ?_⟩
  · have hc := (Picture.pixel p x y).isLt
    have lanes := patternLanes p y x
    rw [forall_and, forall_and] at lanes
    obtain ⟨hred, hgreen, hblue⟩ := lanes
    exact ⟨filter_levels (by omega) hred, filter_levels (by omega) hgreen, filter_levels (by omega) hblue⟩
  · rw [displayStep_columns, hp, hl, pattern_top]

end Sys2Proof.Machine
end

section
/-!
PROOFS. SETUP and State.reset meet every invariant of a configured block (spec/40_multiplexer.md R108,
spec/42_sound_sequencer.md R170, spec/70_reset_and_hazards.md R280).
-/

namespace Sys2Proof.Machine

/-- State.reset before its SETUP: no clock sample drawn and no Out performed. -/
def State.beforeReset : State :=
  { State.reset with draws := 0, out := { State.reset.out with events := [] } }

/-- State.reset is what SETUP leaves for a divisor of 1 (log entries 1, 2 and 6). -/
theorem reset_eq_setup : State.reset = (State.beforeReset.resetWith 0).answer none := rfl

/-- What SETUP leaves of the invariants of a configured block. -/
theorem resetWith_answer_inv (s : State) (l : BitVec 2) :
    ((s.resetWith l).answer none).pipeline ∧ ((s.resetWith l).answer none).soundOk ∧
      ((s.resetWith l).answer none).divcOk ∧ ((s.resetWith l).answer none).btn.clean ∧
      ((s.resetWith l).answer none).rowEnOk ∧ ((s.resetWith l).answer none).dutyOk := by
  obtain ⟨hdivc, hbtn, hrow⟩ := resetWith_answer_rangesOk s l
  exact ⟨resetWith_answer_pipeline s l, resetWith_answer_soundOk s l, hdivc, hbtn, hrow, resetWith_answer_dutyOk s l⟩

/-- SETUP leaves the sound Idle with no valid cursor (70 R283). -/
theorem resetWith_answer_silent (s : State) (l : BitVec 2) :
    ((s.resetWith l).answer none).snd.state = .idle ∧ ((s.resetWith l).answer none).snd.cursorValid = false := by
  rw [resetWith_eq]
  exact ⟨rfl, rfl⟩

theorem reset_inv : State.reset.inv := by
  intro _ _
  rw [reset_eq_setup]
  exact resetWith_answer_inv _ 0

/-- Settles O27: SETUP with a legal divisor meets each invariant, and State.reset is such a SETUP's result. -/
theorem setupMeetsInvariants : Obligations.SetupMeetsInvariants := by
  refine ⟨fun l s => ?_, rfl, reset_inv, rfl, rfl, .refl _, .refl _⟩
  obtain ⟨hpipe, hsound, hdivc, hbtn, hrow, hduty⟩ := resetWith_answer_inv s l
  exact ⟨_, exec_setup_pow l s, hpipe, hsound, hdivc, hbtn, hrow, hduty, resetWith_answer_silent s l⟩

end Sys2Proof.Machine
end

section
/-!
PROOFS. What a tick step does at a sweep boundary, which steps move the displayed, frame and button state, and the frame rate
from SETUP on (spec/41_frame_sync.md R130 to R140).
-/

namespace Sys2Proof.Machine

/-! ### A tick step by the boundary and the divider (41 R130 to R132) -/

/-- What neither the sequencer tick nor the cursor advance touches, so that the display or the swap decides it. -/
structure ShownFrame (s t : State) : Prop where
  divc : t.drive.divc = s.drive.divc
  store : t.store = s.store
  frame : t.frame = s.frame
  btn : t.btn = s.btn
  rowEn : t.out.rowEn = s.out.rowEn
  colOut : t.out.colOut = s.out.colOut

theorem SoundFrame.shown {s t : State} (h : SoundFrame s t) : ShownFrame s t :=
  ⟨by rw [h.drive], h.store, h.frame, h.btn, h.rowEn, h.colOut⟩

/-- A tick step of a configured block shows what its display or swap shows, whether or not it raises. -/
theorem tick_shown {s t : State} (hc : s.ctl.configured = true) (ht : tick s = .next t) :
    ShownFrame (displayOrSwap s) t := by
  rcases tick_cases s with ⟨h, -⟩ | ⟨-, q, m, hq, -, -, -, ⟨-, e⟩ | ⟨-, e⟩⟩
  · rw [hc] at h; cases h
  · obtain rfl := Host.Outcome.next.inj (e.symm.trans ht)
    exact hq.shown
  · obtain rfl := Host.Outcome.next.inj (e.symm.trans ht)
    exact ⟨hq.shown.divc, hq.store, hq.frame, hq.btn, hq.rowEn, hq.colOut⟩

/-- A frame: DIVC reloaded, the front buffers copied, the counters advanced, the buttons moved on and COL_OUT held
(41 R131, R133, R134, R136). -/
structure FrameShown (s t : State) : Prop where
  divc : t.drive.divc = frameDivOf s.ctl.frameDivLog2
  back : t.store.back = s.store.front
  auxActive : t.store.auxActive = s.store.auxFront
  count : t.frame.count = s.frame.count + 1
  signal : t.frame.signal = s.frame.signal + 1
  prev : t.btn.prev = s.btn.cur
  colOut : t.out.colOut = s.out.colOut

/-- A tick step at a qualifying boundary swaps. -/
theorem tick_qualifying {s t : State} (hc : s.ctl.configured = true) (hb : s.atBoundary = true) (hd : s.drive.divc = 1)
    (ht : tick s = .next t) : FrameShown s t := by
  have hshown := tick_shown hc ht
  rw [displayOrSwap_qualifying hb ((qualifies_iff s).mpr hd), swapStep_eq, divider_reload hd] at hshown
  obtain ⟨hdivc, hstore, hframe, hbtn, -, hcol⟩ := hshown
  exact ⟨hdivc, by rw [hstore], by rw [hstore], by rw [hframe], by rw [hframe], by rw [hbtn], hcol⟩

/-- A tick step at any other boundary counts DIVC down and displays its last row (41 R131, R132). -/
theorem tick_unqualified {s t : State} (hc : s.ctl.configured = true) (hb : s.atBoundary = true) (hd : s.drive.divc ≠ 1)
    (ht : tick s = .next t) :
    t.drive.divc = s.drive.divc - 1 ∧ t.frame = s.frame ∧ t.btn = s.btn ∧ t.store = s.store ∧ t.out.rowEn = 0x80 := by
  have hshown := tick_shown hc ht
  rw [displayOrSwap_unqualified hb (mt (qualifies_iff s).mp hd), displayStep_eq, divider_count hd] at hshown
  obtain ⟨hdivc, hstore, hframe, hbtn, hrow, -⟩ := hshown
  refine ⟨hdivc, hframe, hbtn, hstore, ?_⟩
  rw [hrow, ((atBoundary_iff s).mp hb).1]
  rfl

/-- A tick step inside a sweep moves neither DIVC nor the frame state. -/
theorem tick_inside {s t : State} (hc : s.ctl.configured = true) (hb : ¬ s.atBoundary = true) (ht : tick s = .next t) :
    t.drive.divc = s.drive.divc ∧ t.frame = s.frame := by
  have hshown := tick_shown hc ht
  rw [displayOrSwap_inside hb] at hshown
  exact ⟨hshown.divc, hshown.frame⟩

theorem frameDivOf_toNat (l : BitVec 2) : (frameDivOf l).toNat = 2 ^ l.toNat := by revert l; decide

/-- With FRAME_DIV = 1 the range of DIVC leaves only 1, so every boundary qualifies (10 R25, 41 R131). -/
theorem divc_eq_one {s : State} (h : s.divcOk) (hl : s.ctl.frameDivLog2 = 0) : s.drive.divc = 1 := by
  obtain ⟨hlow, hhigh⟩ := h
  have hdiv : s.frameDiv.toNat = 1 := by rw [State.frameDiv, hl]; rfl
  bv_omega

/-- Settles O21: the swap with DIVC = 1, the count with any other DIVC. -/
theorem dividerCounts : Obligations.DividerCounts := by
  intro s hc _ hr hl
  have hb : s.atBoundary = true := (atBoundary_iff s).mpr ⟨hr, hl⟩
  obtain ⟨t, ht, -⟩ := tick_frame s
  refine ⟨t, ht, fun hd => ?_, fun hd => tick_unqualified hc hb hd ht, fun hok h0 => ?_⟩
  · have hframe := tick_qualifying hc hb hd ht
    exact ⟨by rw [hframe.divc, frameDivOf_toNat], hframe.signal, hframe.back, hframe.colOut⟩
  · exact (tick_qualifying hc hb (divc_eq_one hok h0) ht).count

/-! ### Which steps move the displayed, frame and button state (41 R133, R134, R139) -/

/-- Whether the next tick step swaps does not hang on the schedule. -/
theorem turnTaken_swapsNext (s : State) : s.turnTaken.swapsNext ↔ s.swapsNext := by
  simp [State.swapsNext, State.atBoundary, State.qualifies]

theorem tick_swaps {s t : State} (h : s.swapsNext) (ht : tick s = .next t) : FrameShown s t := by
  obtain ⟨hc, hb, hq⟩ := h
  exact tick_qualifying hc hb ((qualifies_iff s).mp hq) ht

/-- A tick step that does not swap: an unconfigured block stands still, a configured one is away from a qualifying
boundary. -/
theorem tick_not_swaps {s t : State} (h : ¬ s.swapsNext) (ht : tick s = .next t) :
    t.store = s.store ∧ t.frame = s.frame ∧ t.btn = s.btn := by
  cases hc : s.ctl.configured with
  | false =>
    obtain rfl := Host.Outcome.next.inj ((tick_unconfigured hc).symm.trans ht)
    exact ⟨rfl, rfl, rfl⟩
  | true =>
    have hquiet : (s.atBoundary && s.qualifies) = false := by simpa [State.swapsNext, hc] using h
    obtain ⟨hframe, hbtn, hstore, -⟩ := tick_quiet hquiet ht
    exact ⟨hstore, hframe, hbtn⟩

/-- A host step that does not issue SETUP leaves what the display reads (60 R268). -/
theorem step_host_frame {s t : State} (ha : acting s = .host) (hn : ¬ s.issuesSetup)
    (hh : hostStep s.turnTaken = .next t) : HostFrame s.turnTaken t := by
  rcases hostStep_frame hh with ⟨-, -, hw, hr, hsetup, -⟩ | ⟨hfr, -⟩
  · rw [turnTaken_host] at hw hr
    exact absurd ⟨ha, hw, hr, by simpa only [State.setupNext, turnTaken_host] using hsetup⟩ hn
  · exact hfr

/-- Settles O31: the tick step by whether it swaps, and the host step by its frame. -/
theorem onlySwapMovesFrames : Obligations.OnlySwapMovesFrames := by
  intro s t hst hn
  obtain ⟨-, ⟨ha, ht⟩ | ⟨ha, -, hh⟩⟩ := step_cases hst
  · refine ⟨fun ⟨_, hsw⟩ => ?_, fun hnot => ?_⟩
    · have h := tick_swaps ((turnTaken_swapsNext s).mpr hsw) ht
      simp [h.back, h.auxActive, h.count, h.signal, h.prev]
    · obtain ⟨hstore, hframe, hbtn⟩ :=
        tick_not_swaps (fun h => hnot ⟨ha, (turnTaken_swapsNext s).mp h⟩) ht
      simp [hstore, hframe, hbtn]
  · refine ⟨fun ⟨htick, _⟩ => ?_, fun _ => ?_⟩
    · rw [ha] at htick; cases htick
    · have h := step_host_frame ha hn hh
      simp [h.back, h.auxActive, h.frame, h.btn]

/-! ### The host's program along an interleaving -/

theorem exec_command_prog {i : Instr} (hi : i.language = .command) {s t : State} (h : exec i s = .next t) :
    t.host.prog = s.host.prog := by
  by_cases hset : ∃ div, i = .setup div
  · obtain ⟨div, rfl⟩ := hset
    rcases exec_setup div s with ⟨l, -, e⟩ | ⟨-, e⟩ <;> obtain rfl := Host.Outcome.next.inj (e.symm.trans h)
    · rw [resetWith_eq]; rfl
    · rfl
  · obtain ⟨t', ht', hfr, -⟩ := exec_command i hi (fun div hd => hset ⟨div, hd⟩) s
    obtain rfl := Host.Outcome.next.inj (ht'.symm.trans h)
    exact hfr.prog

/-- A host step takes at most the first action off the host's program, and adds none. -/
theorem hostStep_prog {s t : State} (h : hostStep s = .next t) : t.host.prog <:+ s.host.prog := by
  rcases hostStep_cases h with rfl | ⟨s0, -, -, rfl⟩ | ⟨r, i, u, -, -, hp, hu, rfl⟩ | ⟨r, -, -, -, rfl⟩ |
    ⟨frame, rest, i, -, -, hp, hd, he⟩ | ⟨a, b, rest, -, -, hp, he⟩
  · exact List.suffix_rfl
  · exact List.suffix_rfl
  · exact exec_command_prog (primitive_command hp).1 hu ▸ List.suffix_rfl
  · exact List.suffix_rfl
  · rw [exec_command_prog (decode_command_language hd) he, hp]
    exact List.suffix_cons _ _
  · obtain ⟨-, rfl⟩ := State.writeToken_next he
    rw [hp]
    exact List.suffix_cons _ _

theorem State.noSetup.of_suffix {s t : State} (hs : s.noSetup) (h : t.host.prog <:+ s.host.prog) : t.noSetup :=
  fun frame div hm => hs frame div (h.subset hm)

theorem State.noSetup.not_setupNext {s : State} (hs : s.noSetup) : ¬ s.setupNext := by
  rintro ⟨frame, rest, div, hp, hd⟩
  exact hs frame div (by simp [hp]) hd

/-- A host step of a program without SETUP stays within the host's frame, and so does the rest of its program. -/
theorem hostStep_noSetup {s t : State} (hs : s.noSetup) (h : hostStep s = .next t) : HostFrame s t ∧ t.noSetup := by
  refine ⟨?_, hs.of_suffix (hostStep_prog h)⟩
  rcases hostStep_frame h with ⟨-, -, -, -, hsetup, -⟩ | ⟨hfr, -⟩
  · exact absurd hsetup hs.not_setupNext
  · exact hfr

/-! ### Interleavings by their tick steps -/

/-- A run of the agents that ends without a fault: each of its steps answered without one. -/
theorem runAgents_cons_safe {g : Agent} {gs : List Agent} {s t : State} (h : runAgents (g :: gs) s = .next t)
    (hf : t.faults = []) : ∃ u, agentStep g s = .next u ∧ u.faults = [] ∧ runAgents gs u = .next t := by
  unfold runAgents at h
  split at h
  · next u hu =>
    split at h
    · next huf => exact ⟨u, hu, huf, h⟩
    · next huf =>
      obtain rfl := Host.Outcome.next.inj h
      exact absurd hf huf
  · cases h
  · cases h

/-- The induction of a claim that counts tick steps: `P n` is what holds after `n` of them, and host steps keep it. -/
theorem runAgents_ticks {P : Nat → State → Prop}
    (htick : ∀ n s t, P n s → tick s = .next t → t.faults = [] → P (n + 1) t)
    (hhost : ∀ n s t, P n s → hostStep s = .next t → P n t) :
    ∀ (gs : List Agent) (n : Nat) (s t : State), P n s → runAgents gs s = .next t → t.faults = [] →
      P (n + gs.count .tick) t := by
  intro gs
  induction gs with
  | nil =>
    intro n s t hp h _
    obtain rfl := Host.Outcome.next.inj h
    exact hp
  | cons g gs ih =>
    intro n s t hp h hf
    obtain ⟨u, hu, huf, hrest⟩ := runAgents_cons_safe h hf
    cases g with
    | tick =>
      have hcount : n + (Agent.tick :: gs).count .tick = n + 1 + gs.count .tick := by simp; omega
      rw [hcount]
      exact ih (n + 1) u t (htick n s u hp hu huf) hrest hf
    | host =>
      have hcount : (Agent.host :: gs).count .tick = gs.count .tick := by simp
      rw [hcount]
      exact ih n u t (hhost n s u hp hu) hrest hf

/-! ### The frame rate (41 R140) -/

/-- The count of DIVC after `n` tick steps with divisor `k`: one less at each sweep boundary, and `k` again after 1. -/
def divcAfter (k n : Nat) : Nat := k - n / 128 % k

/-- How many frames `n` tick steps with divisor `k` bring. -/
def framesAfter (k n : Nat) : Nat := n / (128 * k)

theorem divisor_cases : ∀ l : BitVec 2, 2 ^ l.toNat = 1 ∨ 2 ^ l.toNat = 2 ∨ 2 ^ l.toNat = 4 ∨ 2 ^ l.toNat = 8 := by decide

/-- Inside a sweep one tick step more moves neither count. -/
theorem divcAfter_inside (l : BitVec 2) {n : Nat} (h : n % 128 ≠ 127) :
    divcAfter (2 ^ l.toNat) (n + 1) = divcAfter (2 ^ l.toNat) n ∧
      framesAfter (2 ^ l.toNat) (n + 1) = framesAfter (2 ^ l.toNat) n := by
  unfold divcAfter framesAfter
  rcases divisor_cases l with hk | hk | hk | hk <;> rw [hk] <;> omega

/-- At a sweep boundary with DIVC at 1, it starts again and a frame is counted. -/
theorem divcAfter_qualifying (l : BitVec 2) {n : Nat} (h : n % 128 = 127) (hd : divcAfter (2 ^ l.toNat) n = 1) :
    divcAfter (2 ^ l.toNat) (n + 1) = 2 ^ l.toNat ∧
      framesAfter (2 ^ l.toNat) (n + 1) = framesAfter (2 ^ l.toNat) n + 1 := by
  unfold divcAfter framesAfter at *
  rcases divisor_cases l with hk | hk | hk | hk <;> rw [hk] at hd ⊢ <;> omega

/-- At any other sweep boundary DIVC counts down and the number of frames stands still. -/
theorem divcAfter_unqualified (l : BitVec 2) {n : Nat} (h : n % 128 = 127) (hd : divcAfter (2 ^ l.toNat) n ≠ 1) :
    divcAfter (2 ^ l.toNat) (n + 1) + 1 = divcAfter (2 ^ l.toNat) n ∧
      framesAfter (2 ^ l.toNat) (n + 1) = framesAfter (2 ^ l.toNat) n := by
  unfold divcAfter framesAfter at *
  rcases divisor_cases l with hk | hk | hk | hk <;> rw [hk] at hd ⊢ <;> omega

/-- The state of the multiplexer and the frame synchronizer `n` tick steps after SETUP with the divisor of field `l`, the
host having no SETUP left. -/
structure SinceSetup (l : BitVec 2) (n : Nat) (s : State) : Prop where
  ctl : s.ctl = { frameDivLog2 := l, configured := true }
  cursor : (s.drive.row, s.drive.level) = sweepPosition n
  divc : s.drive.divc.toNat = divcAfter (2 ^ l.toNat) n
  count : s.frame.count = BitVec.ofNat 32 (framesAfter (2 ^ l.toNat) n)
  signal : s.frame.signal = BitVec.ofNat 8 (framesAfter (2 ^ l.toNat) n)
  noSetup : s.noSetup

theorem resetWith_answer_sinceSetup (s : State) (l : BitVec 2) (h : ((s.resetWith l).answer none).noSetup) :
    SinceSetup l 0 ((s.resetWith l).answer none) := by
  have hk : (frameDivOf l).toNat = divcAfter (2 ^ l.toNat) 0 := by simp [divcAfter, frameDivOf_toNat]
  have h0 : framesAfter (2 ^ l.toNat) 0 = 0 := Nat.zero_div _
  refine ⟨?_, ?_, ?_, ?_, ?_, h⟩ <;> rw [resetWith_eq]
  · rfl
  · rfl
  · exact hk
  · rw [h0]; rfl
  · rw [h0]; rfl

/-- The sweep boundary is the last of each 128 positions. -/
theorem SinceSetup.atBoundary_iff {l : BitVec 2} {n : Nat} {s : State} (h : SinceSetup l n s) :
    s.atBoundary = true ↔ n % 128 = 127 := by
  obtain ⟨hrow, hlevel⟩ := Prod.mk.inj h.cursor
  rw [Machine.atBoundary_iff, hrow, hlevel]
  bv_omega

theorem tick_sinceSetup {l : BitVec 2} {n : Nat} {s t : State} (h : SinceSetup l n s) (ht : tick s = .next t)
    (hf : t.faults = []) : SinceSetup l (n + 1) t := by
  have hc : s.ctl.configured = true := by rw [h.ctl]
  obtain ⟨t', ht', hfr⟩ := tick_frame s
  obtain rfl := Host.Outcome.next.inj (ht'.symm.trans ht)
  have hctl := hfr.ctl.trans h.ctl
  have hcursor : (t'.drive.row, t'.drive.level) = sweepPosition (n + 1) := by
    rw [tick_cursor hc ht hf, ← nextCursor_sweepPosition, ← h.cursor]
  have hno : t'.noSetup := h.noSetup.of_suffix (hfr.host ▸ List.suffix_rfl)
  by_cases hb : s.atBoundary = true
  · by_cases hd : s.drive.divc = 1
    · have hframe := tick_qualifying hc hb hd ht
      obtain ⟨hdivc, hframes⟩ := divcAfter_qualifying l (h.atBoundary_iff.mp hb) (by rw [← h.divc, hd]; rfl)
      refine ⟨hctl, hcursor, ?_, ?_, ?_, hno⟩
      · rw [hframe.divc, h.ctl, frameDivOf_toNat, hdivc]
      · rw [hframe.count, h.count, hframes, BitVec.ofNat_add]; rfl
      · rw [hframe.signal, h.signal, hframes, BitVec.ofNat_add]; rfl
    · have hd' : s.drive.divc.toNat ≠ 1 := fun he => hd (BitVec.eq_of_toNat_eq he)
      obtain ⟨hdivc, hframes⟩ := divcAfter_unqualified l (h.atBoundary_iff.mp hb) (h.divc ▸ hd')
      obtain ⟨hcounted, hframe, -⟩ := tick_unqualified hc hb hd ht
      refine ⟨hctl, hcursor, ?_, ?_, ?_, hno⟩
      · have := h.divc
        bv_omega
      · rw [hframe, h.count, hframes]
      · rw [hframe, h.signal, hframes]
  · obtain ⟨hdivc, hframes⟩ := divcAfter_inside l (mt h.atBoundary_iff.mpr hb)
    obtain ⟨hkept, hframe⟩ := tick_inside hc hb ht
    exact ⟨hctl, hcursor, by rw [hkept, h.divc, hdivc], by rw [hframe, h.count, hframes],
      by rw [hframe, h.signal, hframes], hno⟩

theorem hostStep_sinceSetup {l : BitVec 2} {n : Nat} {s t : State} (h : SinceSetup l n s) (hst : hostStep s = .next t) :
    SinceSetup l n t := by
  obtain ⟨hfr, hno⟩ := hostStep_noSetup h.noSetup hst
  exact ⟨hfr.ctl.trans h.ctl, by rw [hfr.drive, h.cursor], by rw [hfr.drive, h.divc], by rw [hfr.frame, h.count],
    by rw [hfr.frame, h.signal], hno⟩

/-- Settles O22: SETUP starts a sweep with DIVC full and no frame, every tick step moves on by one position, and no host step
touches what is counted. -/
theorem frameRate : Obligations.FrameRate := by
  intro l r s t gs _ hset hno hrun hf
  obtain rfl := Host.Outcome.next.inj ((exec_setup_pow l r).symm.trans hset)
  have hend := runAgents_ticks (P := SinceSetup l) (fun _ _ _ => tick_sinceSetup) (fun _ _ _ => hostStep_sinceSetup)
    gs 0 _ t (resetWith_answer_sinceSetup r l hno) hrun hf
  rw [Nat.zero_add] at hend
  exact ⟨hend.count, hend.signal, hend.cursor.trans (cursorAfter_origin _).symm⟩

end Sys2Proof.Machine
end

section
/-!
PROOFS. The byte of each sound token (spec/30_encoding.md R80 to R82), from the round trip of decoder and encoder.
-/

namespace Sys2Proof

open Laws

/-- A byte decodes to a token exactly where the token is well-formed and has that byte. -/
theorem decodeToken_eq_iff {i : Instr} (hi : i.language = .token) (b : Byte) :
    decodeToken b = i ↔ i.wellFormed = true ∧ encode i = [b] := by
  constructor
  · rintro rfl
    exact ⟨Machine.wf_of_decode b, encode_decodeToken b⟩
  · rintro ⟨hw, he⟩
    have h := roundTrip i hw
    rw [hi, he] at h
    exact Except.ok.inj h

theorem singleton_eq_iff_toNat (c b : Byte) : [c] = [b] ↔ b.toNat = c.toNat := by
  rw [List.singleton_inj, BitVec.toNat_eq, eq_comm]

theorem toNat_append_eq {m n : Nat} (x : BitVec m) (y : BitVec n) : (x ++ y).toNat = 2 ^ n * x.toNat + y.toNat := by
  rw [BitVec.toNat_append, Nat.shiftLeft_eq, Nat.mul_comm, Nat.two_pow_add_eq_or_of_lt y.isLt]

theorem tokenByte_toNat (c a : BitVec 4) : (tokenByte c a).toNat = 16 * c.toNat + a.toNat := toNat_append_eq c a

theorem durationCode_iff (d : BitVec 3) : durationCode d = true ↔ d.toNat ≤ 6 := by
  rw [durationCode, decide_eq_true_eq, BitVec.le_def]
  rfl

theorem fadeSpeed_iff (v : BitVec 3) : fadeSpeed v = true ↔ 1 ≤ v.toNat := by
  rw [fadeSpeed, decide_eq_true_eq]
  bv_omega

/-- The bytes of a token with a duration code, by its class. -/
theorem duration_byte_iff (c : BitVec 4) (d : BitVec 3) (b : Byte) :
    (durationCode d = true ∧ [tokenByte c (d.setWidth 4)] = [b]) ↔ d.toNat ≤ 6 ∧ b.toNat = 16 * c.toNat + d.toNat := by
  rw [durationCode_iff, singleton_eq_iff_toNat, tokenByte_toNat, BitVec.toNat_setWidth_of_le (by decide)]

/-- The bytes of a fade token with a speed, by bit 3 of its operand nibble. -/
theorem fade_byte_iff (x : BitVec 1) (v : BitVec 3) (b : Byte) :
    (fadeSpeed v = true ∧ [tokenByte 6 (x ++ v)] = [b]) ↔ 1 ≤ v.toNat ∧ b.toNat = 0x60 + 8 * x.toNat + v.toNat := by
  rw [fadeSpeed_iff, singleton_eq_iff_toNat, tokenByte_toNat, toNat_append_eq, Nat.add_assoc]
  rfl

theorem decodeToken_eq_note_iff (b : Byte) (n : BitVec 7) : decodeToken b = .note n ↔ b.toNat = 128 + n.toNat := by
  rw [decodeToken_eq_iff rfl]
  exact (and_iff_right rfl).trans ((singleton_eq_iff_toNat _ b).trans (by rw [toNat_append_eq]; rfl))

theorem decodeToken_eq_endTok_iff (b : Byte) : decodeToken b = .endTok ↔ b.toNat = 0 := by
  rw [decodeToken_eq_iff rfl]
  exact (and_iff_right rfl).trans (singleton_eq_iff_toNat _ b)

theorem decodeToken_eq_play_iff (b : Byte) (d : BitVec 3) :
    decodeToken b = .play d ↔ d.toNat ≤ 6 ∧ b.toNat = 0x10 + d.toNat :=
  (decodeToken_eq_iff rfl b).trans (duration_byte_iff 1 d b)

theorem decodeToken_eq_playr_iff (b : Byte) (d : BitVec 3) :
    decodeToken b = .playr d ↔ d.toNat ≤ 6 ∧ b.toNat = 0x20 + d.toNat :=
  (decodeToken_eq_iff rfl b).trans (duration_byte_iff 2 d b)

theorem decodeToken_eq_plays_iff (b : Byte) (d : BitVec 3) :
    decodeToken b = .plays d ↔ d.toNat ≤ 6 ∧ b.toNat = 0x30 + d.toNat :=
  (decodeToken_eq_iff rfl b).trans (duration_byte_iff 3 d b)

theorem decodeToken_eq_pause_iff (b : Byte) (d : BitVec 3) :
    decodeToken b = .pause d ↔ d.toNat ≤ 6 ∧ b.toNat = 0x40 + d.toNat :=
  (decodeToken_eq_iff rfl b).trans (duration_byte_iff 4 d b)

theorem decodeToken_eq_tempo_iff (b : Byte) (k : BitVec 4) : decodeToken b = .tempo k ↔ b.toNat = 0x50 + k.toNat := by
  rw [decodeToken_eq_iff rfl]
  exact (and_iff_right rfl).trans ((singleton_eq_iff_toNat _ b).trans (by rw [tokenByte_toNat]; rfl))

theorem decodeToken_eq_fadeoff_iff (b : Byte) : decodeToken b = .fadeoff ↔ b.toNat = 0x60 := by
  rw [decodeToken_eq_iff rfl]
  exact (and_iff_right rfl).trans (singleton_eq_iff_toNat _ b)

theorem decodeToken_eq_fadeup_iff (b : Byte) (v : BitVec 3) :
    decodeToken b = .fadeup v ↔ 1 ≤ v.toNat ∧ b.toNat = 0x60 + v.toNat :=
  (decodeToken_eq_iff rfl b).trans (fade_byte_iff 0 v b)

theorem decodeToken_eq_fadedn_iff (b : Byte) (v : BitVec 3) :
    decodeToken b = .fadedn v ↔ 1 ≤ v.toNat ∧ b.toNat = 0x68 + v.toNat :=
  (decodeToken_eq_iff rfl b).trans (fade_byte_iff 1 v b)

end Sys2Proof
end

section
/-!
PROOFS. What each sound token does and whether the scan goes on after it (spec/42_sound_sequencer.md R165, R181 to R191).
-/

namespace Sys2Proof.Machine

/-! ### The scan after a token (42 R165, R180) -/

/-- A scan ends with the meaning of a token that ends it. -/
theorem scan_ends {b : Byte} {s t : State} (hf : fetch s = (some b, t)) (he : endsScan (decodeToken b) = true) :
    scan s = exec (decodeToken b) t := by
  obtain ⟨u, hu, -⟩ := exec_token (decodeToken b) (decodeToken_language b) t
  rw [scan_fetch hf hu, if_pos he, hu]

/-- A scan goes on from what any other token leaves. -/
theorem scan_goes_on {b : Byte} {s t u : State} (hf : fetch s = (some b, t)) (hu : exec (decodeToken b) t = .next u)
    (he : endsScan (decodeToken b) = false) : scan s = scan u := by
  rw [scan_fetch hf hu, he, if_neg Bool.false_ne_true]

theorem scan_fault {s t : State} (hf : fetch s = (none, t)) : scan s = .next t := by
  rcases Nat.lt_or_ge s.snd.cursor.toNat s.tokenSize with hlt | hge
  · rw [fetch_byte hlt] at hf
    cases hf
  · rw [fetch_oob hge] at hf
    rw [scan_oob hge, (Prod.mk.inj hf).2]

/-- Settles O10: the token just fetched is run, and ends the scan or not by its kind. -/
theorem scanRunsEachToken : Obligations.ScanRunsEachToken := by
  refine fun s => ⟨fun t => scan_fault, fun b t u hf hu => ⟨fun hends => ?_, fun hgoes => ?_⟩⟩
  · refine (scan_ends hf ?_).trans hu
    rcases hends with h | ⟨d, h | h | h | h⟩ <;> rw [h] <;> rfl
  · refine scan_goes_on hf hu ?_
    rcases hgoes with h | ⟨n, h⟩ | ⟨k, h⟩ | ⟨v, h | h⟩ | ⟨c, h⟩ <;> rw [h] <;> rfl

/-! ### NOTE, TEMPO and the fade tokens: one register, and the scan goes on (42 R181, R187 to R191) -/

theorem exec_note (n : BitVec 7) (s : State) : exec (.note n) s = .next { s with snd := { s.snd with note := n } } := rfl

theorem scan_note {b : Byte} {n : BitVec 7} {s t : State} (hf : fetch s = (some b, t)) (hb : decodeToken b = .note n) :
    scan s = scan { t with snd := { t.snd with note := n } } :=
  scan_goes_on hf (by rw [hb, exec_note]) (by rw [hb]; rfl)

theorem exec_tempo (k : BitVec 4) (s : State) :
    exec (.tempo k) s = .next { s with snd := { s.snd with tempo := tempoOf k } } := rfl

/-- TEMPO_TABLE, written out (30 R85). -/
theorem tempoTable_get : ∀ k : BitVec 4,
    [150, 144, 120, 100, 96, 90, 80, 75, 72, 60, 50, 48, 45, 40, 36, 30][k.toNat]? = some (tempoOf k).toNat := by
  decide

/-- A fade token with the direction and the speed it selects (42 R189 to R191). -/
def IsFade (i : Instr) (dir : FadeDir) (v : BitVec 3) : Prop :=
  (i = .fadeoff ∧ dir = .off ∧ v = 0) ∨ (i = .fadeup v ∧ dir = .up) ∨ (i = .fadedn v ∧ dir = .down)

theorem exec_fade {i : Instr} {dir : FadeDir} {v : BitVec 3} (h : IsFade i dir v) (s : State) :
    exec i s = .next { s with snd := { s.snd with fadeDir := dir, fadeSpeed := v } } := by
  rcases h with ⟨rfl, rfl, rfl⟩ | ⟨rfl, rfl⟩ | ⟨rfl, rfl⟩ <;> rfl

theorem IsFade.goes_on {i : Instr} {dir : FadeDir} {v : BitVec 3} (h : IsFade i dir v) : endsScan i = false := by
  rcases h with ⟨rfl, -⟩ | ⟨rfl, -⟩ | ⟨rfl, -⟩ <;> rfl

/-! ### END, the play tokens and PAUSE: the scan ends (42 R169, R182 to R186) -/

theorem silence_eq (s : State) : s.silence = { s with
    out := { s.out with toneOn := false, events := s.out.events ++ [.toneOn false] }
    snd := { s.snd with state := .idle, cursorValid := false } } := rfl

theorem exec_endTok (s : State) : exec .endTok s = .next s.silence := rfl

theorem startNote_eq (s : State) (dur thr : BitVec 7) : startNote s dur thr = { s with
    snd := { s.snd with dur := dur, thr := thr, subtick := s.snd.tempo, state := .playing }
    out := { s.out with
      tonePeriod := Config.notePeriod s.snd.note.toFin, toneOn := true
      events := s.out.events ++ [.tonePeriod (Config.notePeriod s.snd.note.toFin), .toneOn true] } } := by
  simp [startNote, State.outTonePeriod, State.outToneOn, periodOf]

/-- A play token with duration code `d` and silence threshold `thr` (42 R183 to R185). -/
def IsPlay (i : Instr) (d : BitVec 3) (thr : BitVec 7) : Prop :=
  (i = .play d ∧ thr = 0) ∨ (i = .playr d ∧ thr = 1) ∨ (i = .plays d ∧ thr = durOf d / 2)

theorem exec_play {i : Instr} {d : BitVec 3} {thr : BitVec 7} (h : IsPlay i d thr) (s : State) :
    exec i s = .next (startNote s (durOf d) thr) := by
  rcases h with ⟨rfl, rfl⟩ | ⟨rfl, rfl⟩ | ⟨rfl, rfl⟩ <;> rfl

theorem IsPlay.ne_pause {i : Instr} {d : BitVec 3} {thr : BitVec 7} (h : IsPlay i d thr) : ∀ e, i ≠ .pause e := by
  rcases h with ⟨rfl, -⟩ | ⟨rfl, -⟩ | ⟨rfl, -⟩ <;> exact fun _ he => by cases he

theorem exec_pause (d : BitVec 3) (s : State) : exec (.pause d) s = .next { s with
    snd := { s.snd with dur := durOf d, thr := 0, subtick := s.snd.tempo, state := .paused }
    out := { s.out with toneOn := false, events := s.out.events ++ [.toneOn false] } } := rfl

/-! ### FADE_STEP (42 R168) -/

theorem fadeTick_fading {s : State} (hp : s.snd.state = .playing) (hd : s.snd.fadeDir ≠ .off) :
    fadeTick s = fadeStep s := by
  rw [fadeTick, if_pos ⟨hp, hd⟩]

theorem fadeTick_still {s : State} (h : s.snd.state ≠ .playing ∨ s.snd.fadeDir = .off) : fadeTick s = s := by
  rw [fadeTick, if_neg]
  rintro ⟨hp, hd⟩
  exact h.elim (fun hn => hn hp) hd

theorem fadeStep_up {s : State} (h : s.snd.fadeDir = .up) : fadeStep s =
    s.outTonePeriod (BitVec.ofNat 16 (s.out.tonePeriod.toNat - s.snd.fadeSpeed.toNat)) := by
  rw [fadeStep, h]
  rfl

theorem fadeStep_down {s : State} (h : s.snd.fadeDir = .down) : fadeStep s =
    s.outTonePeriod (BitVec.ofNat 16 (min (s.out.tonePeriod.toNat + s.snd.fadeSpeed.toNat) 65535)) := by
  rw [fadeStep, h]
  rfl

/-! ### The statements -/

/-- Settles O1: the byte of NOTE, its one write, and the scan past one NOTE and past two; a PLAY then reads the note. -/
theorem noteTokenSelects : Obligations.NoteTokenSelects := by
  refine ⟨decodeToken_eq_note_iff, exec_note, fun b n s t => scan_note, fun b b' n n' s t u hf hb hf' hb' => ?_,
    fun n d s => ⟨_, _, exec_note n s, rfl, exec_play (Or.inl ⟨rfl, rfl⟩) _, ?_⟩⟩
  · rw [scan_note hf hb, scan_note hf' hb']
  · rw [startNote_eq]

/-- Settles O2: the byte of END, its writes, and the scan that ends with them, the fetch having moved the cursor. -/
theorem endTokenStops : Obligations.EndTokenStops := by
  refine ⟨decodeToken_eq_endTok_iff, fun s => by rw [exec_endTok, silence_eq], fun b s t hf hb => ⟨?_, ?_⟩⟩
  · obtain ⟨-, -, rfl⟩ := fetch_some hf
    rw [fetched_snd]
  · rw [scan_ends hf (by rw [hb]; rfl), hb, exec_endTok, silence_eq]

/-- Settles O3: the bytes of the play tokens, the note they start, and the scan that ends with it. -/
theorem playTokensStartNote : Obligations.PlayTokensStartNote := by
  refine ⟨fun b d => ⟨decodeToken_eq_play_iff b d, decodeToken_eq_playr_iff b d, decodeToken_eq_plays_iff b d⟩,
    fun i d thr s h => ?_, fun b d s t hf hb => scan_ends hf ?_⟩
  · rw [exec_play h, startNote_eq]
    rfl
  · rcases hb with h | h | h <;> rw [h] <;> rfl

/-- Settles O4: the bytes of PAUSE, its writes, and the scan that ends with them. -/
theorem pauseTokenRests : Obligations.PauseTokenRests := by
  refine ⟨decodeToken_eq_pause_iff, exec_pause, fun b d s t hf hb => ?_⟩
  rw [← hb]
  exact scan_ends hf (by rw [hb]; rfl)

/-- Settles O5: the bytes of TEMPO, the table's entry, and the scan that goes on. -/
theorem tempoTokenSelects : Obligations.TempoTokenSelects := by
  refine ⟨decodeToken_eq_tempo_iff, fun k s => ⟨tempoOf k, tempoTable_get k, exec_tempo k s, fun b r hf hb => ?_⟩⟩
  exact scan_goes_on hf (by rw [hb, exec_tempo]) (by rw [hb]; rfl)

/-- Settles O6: the bytes of the fade tokens, the two registers they write, and the retune of a sequencer tick by the
direction. -/
theorem fadeTokensSlide : Obligations.FadeTokensSlide := by
  refine ⟨fun b => ⟨decodeToken_eq_fadeoff_iff b, decodeToken_eq_fadeup_iff b, decodeToken_eq_fadedn_iff b⟩,
    fun i dir v s h => ⟨exec_fade h s, fun b r hf hb => ?_⟩, fun s => ⟨fun hp hd => ?_, fun hp hd => ?_, fadeTick_still⟩⟩
  · exact scan_goes_on hf (by rw [hb, exec_fade h]) (by rw [hb]; exact IsFade.goes_on h)
  · rw [fadeTick_fading hp (by rw [hd]; decide), fadeStep_up hd]
    rfl
  · rw [fadeTick_fading hp (by rw [hd]; decide), fadeStep_down hd]
    rfl

/-- The frame of a token, as one update. -/
theorem TokenFrame.eq_update {s t : State} (h : TokenFrame s t) : t = { s with
    snd := { t.snd with cursor := s.snd.cursor }
    out := { s.out with toneOn := t.out.toneOn, tonePeriod := t.out.tonePeriod, events := t.out.events } } := by
  obtain ⟨⟨hdrive, hctl, hstore, hframe, hbtn, hinp, hhost, htmem, hpar, hsched, hrow, hcol⟩, hfaults, hdraws, hcur⟩ := h
  dsimp only
  rw [← hdrive, ← hctl, ← hstore, ← hframe, ← hbtn, ← hinp, ← hhost, ← htmem, ← hpar, ← hsched, ← hfaults, ← hdraws,
    ← hcur, ← hrow, ← hcol]

/-- Settles O8: every byte is a token, whose frame says what it leaves. -/
theorem tokensTouchOnlySound : Obligations.TokensTouchOnlySound := by
  intro b s
  obtain ⟨t, ht, hframe⟩ := exec_token (decodeToken b) (decodeToken_language b) s
  exact ⟨t, ht, hframe.eq_update⟩

end Sys2Proof.Machine
end

section
/-!
PROOFS. Where a scan ends (spec/42_sound_sequencer.md R172): at a terminating token below TOKEN_MEM_SIZE, or at the first
fetch that is not.
-/

namespace Sys2Proof.Machine

/-- The scan from `s` has come to the fetch of `r`: it goes on as the scan of `r` does, nothing has been raised, and every
byte read so far lies below TOKEN_MEM_SIZE. -/
structure ScanAt (s r : State) : Prop where
  same : scan s = scan r
  faults : r.faults = []
  tmem : r.tmem = s.tmem
  par : r.par = s.par
  low : s.snd.cursor.toNat ≤ r.snd.cursor.toNat
  high : r.snd.cursor.toNat ≤ max s.tokenSize s.snd.cursor.toNat

/-- The scan from `s` has ended in `t`: by a terminating token that its last fetch answered, or by TOKEN_OOB. -/
def ScanEnded (s t : State) : Prop :=
  (∃ (r u : State) (b : Byte), ScanAt s r ∧ r.snd.cursor.toNat < r.tokenSize ∧ fetch r = (some b, u) ∧
    exec (decodeToken b) u = .next t ∧ endsScan (decodeToken b) = true) ∨
  ∃ r, ScanAt s r ∧ r.tokenSize ≤ r.snd.cursor.toNat ∧ t = r.raise (.tokenOob r.snd.cursor)

theorem ScanAt.refl {s : State} (hf : s.faults = []) : ScanAt s s :=
  ⟨rfl, hf, rfl, rfl, Nat.le_refl _, Nat.le_max_right _ _⟩

theorem ScanAt.tokenSize {s r : State} (h : ScanAt s r) : r.tokenSize = s.tokenSize := by
  rw [State.tokenSize, h.par, State.tokenSize]

theorem fetch_exec_cursor {r u t : State} {b : Byte} (hf : fetch r = (some b, u))
    (ht : exec (decodeToken b) u = .next t) : t.snd.cursor.toNat = r.snd.cursor.toNat + 1 ∧ t.faults = r.faults := by
  obtain ⟨hlt, -, rfl⟩ := fetch_some hf
  obtain ⟨t', ht', hframe⟩ := exec_token (decodeToken b) (decodeToken_language b) (fetched r)
  obtain rfl := Host.Outcome.next.inj (ht'.symm.trans ht)
  rw [hframe.cursor, fetched_cursor hlt, hframe.faults, fetched_faults]
  exact ⟨rfl, rfl⟩

/-- A token that does not end the scan takes it to the next fetch. -/
theorem ScanAt.token {s r u : State} (h : ScanAt s r) (hlt : r.snd.cursor.toNat < r.tokenSize)
    (hu : exec (decodeToken (r.tokenByte r.snd.cursor.toNat)) (fetched r) = .next u)
    (he : endsScan (decodeToken (r.tokenByte r.snd.cursor.toNat)) = false) : ScanAt s u := by
  obtain ⟨u', hu', hframe⟩ := exec_token _ (decodeToken_language (r.tokenByte r.snd.cursor.toNat)) (fetched r)
  obtain rfl := Host.Outcome.next.inj (hu'.symm.trans hu)
  obtain ⟨hcur, hfaults⟩ := fetch_exec_cursor (fetch_byte hlt) hu
  have hlow := h.low
  have hsize := h.tokenSize
  refine ⟨h.same.trans (scan_goes_on (fetch_byte hlt) hu he), hfaults.trans h.faults,
    (hframe.tmem.trans (fetched_frame r).tmem).trans h.tmem, (hframe.par.trans (fetched_frame r).par).trans h.par, ?_, ?_⟩
  · omega
  · have := Nat.le_max_left s.tokenSize s.snd.cursor.toNat
    omega

/-- Every scan ends. -/
theorem scan_ended {s : State} (hf : s.faults = []) : ∃ t, scan s = .next t ∧ ScanEnded s t := by
  refine scan_induct (P := ScanAt s) (Q := ScanEnded s) (fun r h hge => Or.inr ⟨r, h, hge, rfl⟩)
    (fun r h hlt u hu => ?_) s (ScanAt.refl hf)
  cases he : endsScan (decodeToken (r.tokenByte r.snd.cursor.toNat)) with
  | true => exact Or.inl ⟨r, fetched r, _, h, hlt, fetch_byte hlt, hu, he⟩
  | false => exact h.token hlt hu he

/-- Settles O11: the two ends of a scan, with what its last fetch read. -/
theorem scanStopsInBounds : Obligations.ScanStopsInBounds := by
  intro s hf
  obtain ⟨t, ht, hend⟩ := scan_ended hf
  refine ⟨t, ht, ?_⟩
  change _ ∧ _ - _ ≤ s.tokenSize - _ ∧ (_ ∨ _ ∧ _ = max s.tokenSize _)
  rcases hend with ⟨r, u, b, hr, hlt, hfetch, hexec, hends⟩ | ⟨r, hr, hge, rfl⟩
  · obtain ⟨hcur, hfaults⟩ := fetch_exec_cursor hfetch hexec
    have hlow := hr.low
    have hsize := hr.tokenSize
    refine ⟨by omega, by omega, Or.inl ⟨hfaults.trans hr.faults, by omega,
      ⟨r, u, b, hr.same, hr.tmem, hr.par, hcur.symm, hfetch, hexec, hends⟩, fun hraced => ?_⟩⟩
    rw [hcur, Nat.add_sub_cancel, ← hr.tmem] at hraced ⊢
    rw [fetch_unraced hlt ((TokenMemory.isRaced_eq_false_iff _ _).mpr hraced)] at hfetch
    rwa [Option.some.inj (Prod.mk.inj hfetch).1]
  · have hhigh := hr.high
    have hlow := hr.low
    rw [hr.tokenSize] at hge
    rw [State.raise_snd]
    exact ⟨hlow, by omega, Or.inr ⟨State.raise_faults r _ hr.faults, by omega⟩⟩

end Sys2Proof.Machine
end

section
/-!
PROOFS. One sequencer tick by the sound state (spec/42_sound_sequencer.md R160 to R163, R167): nothing, a request, or one
count of a running duration.
-/

namespace Sys2Proof.Machine

theorem startDefaults_eq (s : State) : startDefaults s = { s with
    snd := { s.snd with tempo := 60, fadeDir := .off, fadeSpeed := 0, state := .idle } } := rfl

/-! ### By the sound state (42 R161 to R163) -/

theorem seqTick_quiet {s : State} (h : s.snd.state = .idle ∨ s.snd.state = .disabled) : seqTick s = .next s := by
  unfold seqTick
  rcases h with h | h <;> rw [h]

theorem seqTick_stopRequested {s : State} (h : s.snd.state = .stopRequested) : seqTick s = .next s.silence := by
  unfold seqTick
  rw [h]
  rfl

theorem seqTick_startRequested {s : State} (h : s.snd.state = .startRequested) :
    seqTick s = scan (startDefaults s) := by
  unfold seqTick
  rw [h]
  rfl

theorem seqTick_running {s : State} (h : s.snd.state = .playing ∨ s.snd.state = .paused) : seqTick s = countdown s := by
  unfold seqTick
  rcases h with h | h <;> rw [h]

/-- Settles O12: the sequencer tick of each state in which no duration runs. -/
theorem sequencerRequests : Obligations.SequencerRequests := fun s =>
  ⟨seqTick_quiet, fun h => by rw [seqTick_stopRequested h, silence_eq],
    fun h => by rw [seqTick_startRequested h, startDefaults_eq]⟩

/-! ### A running duration (42 R167) -/

theorem countSubtick_fadeTick (s : State) :
    countSubtick (fadeTick s) = { fadeTick s with snd := { s.snd with subtick := s.snd.subtick - 1 } } := by
  rw [countSubtick, fadeTick_snd]

theorem countUnit_fadeTick (s : State) : countUnit (countSubtick (fadeTick s)) =
    { fadeTick s with snd := { s.snd with subtick := s.snd.tempo, dur := s.snd.dur - 1 } } := by
  rw [countSubtick_fadeTick, countUnit]

section
variable {s : State} (hp : s.snd.state = .playing ∨ s.snd.state = .paused)
include hp

/-- While the sub-tick timer runs, the tick only counts it down. -/
theorem seqTick_timer (h : s.snd.subtick ≠ 1) :
    seqTick s = .next { fadeTick s with snd := { s.snd with subtick := s.snd.subtick - 1 } } := by
  rw [seqTick_running hp, ← countSubtick_fadeTick]
  rcases countdown_cases s with ⟨-, e⟩ | ⟨h0, -⟩ | ⟨h0, -⟩ | ⟨h0, -⟩
  · exact e
  all_goals exact absurd (sub_eq_zero.mp h0) h

/-- The last tick of the last unit scans on. -/
theorem seqTick_over (h : s.snd.subtick = 1) (hd : s.snd.dur = 1) :
    seqTick s = scan { fadeTick s with snd := { s.snd with subtick := s.snd.tempo, dur := 0 } } := by
  rw [seqTick_running hp]
  rcases countdown_cases s with ⟨h0, -⟩ | ⟨-, hz, e⟩ | ⟨-, h0, -⟩ | ⟨-, h0, -⟩
  · exact absurd (sub_eq_zero.mpr h) h0
  · rw [e, countUnit_fadeTick, hz]
  all_goals exact absurd (sub_eq_zero.mpr hd) h0

/-- The last tick of a unit that reaches the silence threshold stops the tone; the rest is counted in Paused. -/
theorem seqTick_cut (h : s.snd.subtick = 1) (hd : s.snd.dur ≠ 1) (ht : s.snd.dur - 1 = s.snd.thr) :
    seqTick s = .next { fadeTick s with
      snd := { s.snd with subtick := s.snd.tempo, dur := s.snd.dur - 1, state := .paused }
      out := { (fadeTick s).out with toneOn := false, events := (fadeTick s).out.events ++ [.toneOn false] } } := by
  rw [seqTick_running hp]
  rcases countdown_cases s with ⟨h0, -⟩ | ⟨-, h0, -⟩ | ⟨-, -, -, e⟩ | ⟨-, -, h0, -⟩
  · exact absurd (sub_eq_zero.mpr h) h0
  · exact absurd (sub_eq_zero.mp h0) hd
  · rw [e, countUnit_fadeTick]
    rfl
  · exact absurd ht h0

/-- The last tick of any other unit reloads the timer and counts the unit. -/
theorem seqTick_unit (h : s.snd.subtick = 1) (hd : s.snd.dur ≠ 1) (ht : s.snd.dur - 1 ≠ s.snd.thr) :
    seqTick s = .next { fadeTick s with
      snd := { s.snd with subtick := s.snd.tempo, dur := s.snd.dur - 1 } } := by
  rw [seqTick_running hp]
  rcases countdown_cases s with ⟨h0, -⟩ | ⟨-, h0, -⟩ | ⟨-, -, h0, -⟩ | ⟨-, -, -, e⟩
  · exact absurd (sub_eq_zero.mpr h) h0
  · exact absurd (sub_eq_zero.mp h0) hd
  · exact absurd h0 ht
  · rw [e, countUnit_fadeTick]

end

/-- Settles O13: the four outcomes of a count, by the timer, the duration and the threshold. -/
theorem countdownTick : Obligations.CountdownTick := fun _ hp =>
  ⟨rfl, seqTick_timer hp, seqTick_over hp, seqTick_cut hp, seqTick_unit hp⟩

end Sys2Proof.Machine
end

section
/-!
PROOFS. How long a note or a pause lasts and when its tone stops (spec/42_sound_sequencer.md R171), by induction over the
sequencer ticks after the token has run.
-/

namespace Sys2Proof.Machine

/-! ### Durations and half durations, in units (30 R84) -/

theorem durOf_toNat : ∀ d : BitVec 3, (durOf d).toNat = 64 / 2 ^ d.toNat := by decide

theorem durOf_half_toNat : ∀ d : BitVec 3, (durOf d / 2).toNat = 64 / 2 ^ d.toNat / 2 := by decide

/-! ### A duration that has begun, and its count -/

/-- A duration has just begun: the timer is full, and the tone is on in Playing and off in Paused. -/
structure Begun (s : State) : Prop where
  faults : s.faults = []
  dur : 1 ≤ s.snd.dur.toNat
  subtick : s.snd.subtick = s.snd.tempo
  tempo : 1 ≤ s.snd.tempo.toNat
  running : s.snd.state = .playing ∨ s.snd.state = .paused
  tone : s.out.toneOn = true ↔ s.snd.state = .playing

/-- The tone of the duration begun in `s` still sounds in its unit `q`: a note, and its threshold is not reached. -/
def SoundsAt (s : State) (q : Nat) : Prop :=
  s.snd.state = .playing ∧
    (1 ≤ s.snd.thr.toNat ∧ s.snd.thr.toNat < s.snd.dur.toNat → q < s.snd.dur.toNat - s.snd.thr.toNat)

/-- The state `m` sequencer ticks into unit `q` of the duration begun in `s`. -/
structure Counting (s : State) (q m : Nat) (t : State) : Prop where
  faults : t.faults = []
  cursor : t.snd.cursor = s.snd.cursor
  tempo : t.snd.tempo = s.snd.tempo
  thr : t.snd.thr = s.snd.thr
  dur : t.snd.dur.toNat + q = s.snd.dur.toNat
  subtick : t.snd.subtick.toNat + m = s.snd.tempo.toNat
  running : t.snd.state = .playing ∨ t.snd.state = .paused
  tone : t.out.toneOn = true ↔ SoundsAt s q

theorem Begun.counting {s : State} (h : Begun s) : Counting s 0 0 s := by
  refine ⟨h.faults, rfl, rfl, rfl, rfl, by rw [h.subtick]; rfl, h.running, h.tone.trans ?_⟩
  unfold SoundsAt
  constructor
  · exact fun hp => ⟨hp, fun hthr => by omega⟩
  · exact And.left

section
variable {s t : State} {q m : Nat}

/-- Inside a unit a sequencer tick counts the timer. -/
theorem Counting.timer (h : Counting s q m t) (hm : m + 1 < s.snd.tempo.toNat) :
    ∃ u, seqTick t = .next u ∧ Counting s q (m + 1) u := by
  have hsub := h.subtick
  have hne : t.snd.subtick ≠ 1 := by bv_omega
  refine ⟨_, seqTick_timer h.running hne, (fadeTick_faults t).trans h.faults, h.cursor, h.tempo, h.thr, h.dur, ?_,
    h.running, by rw [← h.tone, ← fadeTick_toneOn t]⟩
  show (t.snd.subtick - 1).toNat + (m + 1) = _
  bv_omega

/-- The tone stops at the unit in which the duration left is the threshold, and at no other (42 R167, R171). -/
theorem soundsAt_succ (h : q + 1 < s.snd.dur.toNat) :
    SoundsAt s (q + 1) ↔ SoundsAt s q ∧ s.snd.dur.toNat - (q + 1) ≠ s.snd.thr.toNat := by
  unfold SoundsAt
  constructor
  · rintro ⟨hp, hq⟩
    exact ⟨⟨hp, fun hthr => by have := hq hthr; omega⟩, fun he => by have := hq (by omega); omega⟩
  · rintro ⟨⟨hp, hq⟩, hne⟩
    exact ⟨hp, fun hthr => by have := hq hthr; omega⟩

/-- The last sequencer tick of a unit that is not the last counts the unit, and stops the tone at the threshold. -/
theorem Counting.unit (h : Counting s q m t) (hm : m + 1 = s.snd.tempo.toNat) (hq : q + 1 < s.snd.dur.toNat) :
    ∃ u, seqTick t = .next u ∧ Counting s (q + 1) 0 u := by
  obtain ⟨hf, hcur, htempo, hthr, hdur, hsub, hrun, htone⟩ := h
  have hone : t.snd.subtick = 1 := by bv_omega
  have hne : t.snd.dur ≠ 1 := by bv_omega
  have hleft : (t.snd.dur - 1).toNat + (q + 1) = s.snd.dur.toNat := by bv_omega
  have hfull : s.snd.tempo.toNat + 0 = s.snd.tempo.toNat := rfl
  by_cases hcut : t.snd.dur - 1 = t.snd.thr
  · refine ⟨_, seqTick_cut hrun hone hne hcut, (fadeTick_faults t).trans hf, hcur, htempo, hthr, hleft,
      by rw [← hfull, ← htempo], Or.inr rfl, iff_of_false Bool.false_ne_true fun hs => ?_⟩
    refine ((soundsAt_succ hq).mp hs).2 ?_
    rw [← hthr, ← hcut]
    omega
  · refine ⟨_, seqTick_unit hrun hone hne hcut, (fadeTick_faults t).trans hf, hcur, htempo, hthr, hleft,
      by rw [← hfull, ← htempo], hrun, ?_⟩
    have hstay : s.snd.dur.toNat - (q + 1) ≠ s.snd.thr.toNat := fun he =>
      hcut (BitVec.eq_of_toNat_eq (by rw [hthr]; omega))
    show (fadeTick t).out.toneOn = true ↔ _
    rw [fadeTick_toneOn, htone, soundsAt_succ hq, and_iff_left hstay]

/-- The last sequencer tick of the last unit is the next scan. -/
theorem Counting.over (h : Counting s q m t) (hm : m + 1 = s.snd.tempo.toNat) (hq : q + 1 = s.snd.dur.toNat) :
    ∃ u, seqTick t = scan u ∧ u.faults = [] ∧ u.snd.cursor = s.snd.cursor ∧ u.snd.dur = 0 ∧
      u.snd.tempo = s.snd.tempo := by
  obtain ⟨hf, hcur, htempo, -, hdur, hsub, hrun, -⟩ := h
  have hone : t.snd.subtick = 1 := by bv_omega
  have hlast : t.snd.dur = 1 := by bv_omega
  exact ⟨_, seqTick_over hrun hone hlast, (fadeTick_faults t).trans hf, hcur, rfl, htempo⟩

end

/-! ### The ticks of a whole duration (42 R171) -/

/-- One number more, inside a block of `T`. -/
theorem divMod_succ_inside {n T : Nat} (h : n % T + 1 < T) : (n + 1) / T = n / T ∧ (n + 1) % T = n % T + 1 := by
  have hn := Nat.div_add_mod n T
  have hT : 0 < T := by omega
  rw [Nat.div_mod_unique hT]
  exact ⟨by omega, h⟩

/-- One number more, at the end of a block of `T`. -/
theorem divMod_succ_end {n T : Nat} (h : n % T + 1 = T) : (n + 1) / T = n / T + 1 ∧ (n + 1) % T = 0 := by
  have hn := Nat.div_add_mod n T
  have hT : 0 < T := by omega
  rw [Nat.div_mod_unique hT, Nat.mul_add_one]
  exact ⟨by omega, hT⟩

/-- The state after `n` sequencer ticks, fewer than the duration has. -/
theorem Begun.counted {s : State} (h : Begun s) : ∀ n, n < s.snd.dur.toNat * s.snd.tempo.toNat →
    ∃ t, seqTicks n s = .next t ∧ Counting s (n / s.snd.tempo.toNat) (n % s.snd.tempo.toNat) t
  | 0, _ => ⟨s, rfl, by rw [Nat.zero_div, Nat.zero_mod]; exact h.counting⟩
  | n + 1, hn => by
    obtain ⟨t, ht, hc⟩ := h.counted n (by omega)
    have hlt : n % s.snd.tempo.toNat < s.snd.tempo.toNat := Nat.mod_lt _ h.tempo
    rw [seqTicks_snoc n s t h.faults ht hc.faults]
    by_cases hm : n % s.snd.tempo.toNat + 1 < s.snd.tempo.toNat
    · obtain ⟨hdiv, hmod⟩ := divMod_succ_inside hm
      rw [hdiv, hmod]
      exact hc.timer hm
    · have hm' : n % s.snd.tempo.toNat + 1 = s.snd.tempo.toNat := by omega
      obtain ⟨hdiv, hmod⟩ := divMod_succ_end hm'
      have hq : (n + 1) / s.snd.tempo.toNat < s.snd.dur.toNat := (Nat.div_lt_iff_lt_mul h.tempo).mpr hn
      rw [hdiv] at hq ⊢
      rw [hmod]
      exact hc.unit hm' hq

/-- The last sequencer tick of a duration is the next scan. -/
theorem Begun.scans {s : State} (h : Begun s) : ∃ u, seqTicks (s.snd.dur.toNat * s.snd.tempo.toNat) s = scan u ∧
    u.faults = [] ∧ u.snd.cursor = s.snd.cursor ∧ u.snd.dur = 0 ∧ u.snd.tempo = s.snd.tempo := by
  obtain ⟨n, hn⟩ : ∃ n, s.snd.dur.toNat * s.snd.tempo.toNat = n + 1 :=
    Nat.exists_eq_add_one.mpr (Nat.mul_pos h.dur h.tempo)
  obtain ⟨t, ht, hc⟩ := h.counted n (by omega)
  have hall : (n + 1) / s.snd.tempo.toNat = s.snd.dur.toNat := by rw [← hn, Nat.mul_div_cancel _ h.tempo]
  have hin : n / s.snd.tempo.toNat < s.snd.dur.toNat := (Nat.div_lt_iff_lt_mul h.tempo).mpr (by omega)
  have hlt : n % s.snd.tempo.toNat < s.snd.tempo.toNat := Nat.mod_lt _ h.tempo
  have hm : n % s.snd.tempo.toNat + 1 = s.snd.tempo.toNat := by
    by_contra hne
    have := (divMod_succ_inside (n := n) (T := s.snd.tempo.toNat) (by omega)).1
    omega
  rw [hn, seqTicks_snoc n s t h.faults ht hc.faults]
  exact hc.over hm ((divMod_succ_end hm).1.symm.trans hall)

/-- The four kinds of token of R171, in two: a play token with the threshold `thr`, or PAUSE. -/
theorem play_or_pause {i : Instr} {d : BitVec 3} {thr : Nat}
    (h : (i = .play d ∧ thr = 0) ∨ (i = .playr d ∧ thr = 1) ∨ (i = .plays d ∧ thr = 64 / 2 ^ d.toNat / 2) ∨
      (i = .pause d ∧ thr = 0)) :
    (∃ x, IsPlay i d x ∧ x.toNat = thr) ∨ (i = .pause d ∧ thr = 0) := by
  rcases h with ⟨hi, rfl⟩ | ⟨hi, rfl⟩ | ⟨hi, rfl⟩ | h
  · exact Or.inl ⟨0, Or.inl ⟨hi, rfl⟩, rfl⟩
  · exact Or.inl ⟨1, Or.inr (Or.inl ⟨hi, rfl⟩), rfl⟩
  · exact Or.inl ⟨_, Or.inr (Or.inr ⟨hi, rfl⟩), durOf_half_toNat d⟩
  · exact Or.inr h

/-- What a play or pause token begins, with its duration, its threshold and the tempo of the state before. -/
theorem exec_begins {i : Instr} {d : BitVec 3} {thr : Nat} {r s : State} (hd : d.toNat ≤ 6) (hf : r.faults = [])
    (ht : r.snd.tempoOk) (he : exec i r = .next s) (hi : (∃ x, IsPlay i d x ∧ x.toNat = thr) ∨ (i = .pause d ∧ thr = 0)) :
    Begun s ∧ s.snd.dur.toNat = 64 / 2 ^ d.toNat ∧ s.snd.thr.toNat = thr ∧ s.snd.tempo = r.snd.tempo ∧
      (s.snd.state = .playing ↔ ∀ e, i ≠ .pause e) := by
  have htempo : 1 ≤ r.snd.tempo.toNat := by
    obtain ⟨k, hk⟩ := ht
    rw [hk]
    exact tempoOf_pos k
  have hdur : 1 ≤ (durOf d).toNat := (durOf_bounds d hd).1
  rcases hi with ⟨x, hx, rfl⟩ | ⟨rfl, rfl⟩
  · obtain rfl := Host.Outcome.next.inj ((exec_play hx r).symm.trans he)
    rw [startNote_eq]
    exact ⟨⟨hf, hdur, rfl, htempo, Or.inl rfl, iff_of_true rfl rfl⟩, durOf_toNat d, rfl, rfl,
      iff_of_true rfl hx.ne_pause⟩
  · obtain rfl := Host.Outcome.next.inj ((exec_pause d r).symm.trans he)
    exact ⟨⟨hf, hdur, rfl, htempo, Or.inr rfl, iff_of_false Bool.false_ne_true (fun h => by cases h)⟩, durOf_toNat d,
      rfl, rfl, iff_of_false (fun h => by cases h) fun h => h d rfl⟩

/-- Settles O14: the token begins the duration, and its ticks are counted one by one, up to the next scan. -/
theorem noteTiming : Obligations.NoteTiming := by
  intro i d thr r s hd hf ht he hi
  obtain ⟨hb, hdur, hthr, htempo, hplays⟩ := exec_begins hd hf ht he (play_or_pause hi)
  have hpos := hb.tempo
  have all := hb.counted
  have last := hb.scans
  rw [hdur, htempo] at all last
  rw [htempo] at hpos
  refine ⟨fun n hn => ?_, last⟩
  obtain ⟨t, hrun, hc⟩ := all n hn
  have hleft := hc.dur
  have hsub := hc.subtick
  rw [hdur] at hleft
  rw [htempo] at hsub
  refine ⟨t, hrun, hc.faults, hc.cursor, hc.tempo.trans htempo, by omega, by omega, hc.running, ?_⟩
  rw [hc.tone, SoundsAt, hplays, hdur, hthr, Nat.div_lt_iff_lt_mul hpos]

end Sys2Proof.Machine
end

section
/-!
PROOFS. The sound commands and what the next sequencer tick makes of them (spec/42_sound_sequencer.md R161, R166,
spec/43_host_interface.md R220 to R222).
-/

namespace Sys2Proof.Machine

/-! ### The commands of a configured block -/

section
variable {s : State} (hc : s.ctl.configured = true)
include hc

theorem exec_playSound (a : BitVec Config.wTaddr) (hd : s.snd.state ≠ .disabled) : exec (.playSound a) s =
    .next (State.answer { s.beginDuty a with
      snd := { s.snd with cursor := a.setWidth 17, cursorValid := true, state := .startRequested } } none) :=
  (ifConfigured_on hc).trans (if_neg hd)

theorem exec_stopSound (hd : s.snd.state ≠ .disabled) :
    exec .stopSound s = .next (State.answer { s with snd := { s.snd with state := .stopRequested } } none) :=
  (ifConfigured_on hc).trans (if_neg hd)

/-- In Disabled a request is dropped (43 R220, R221). -/
theorem exec_request_disabled (hd : s.snd.state = .disabled) :
    (∀ a, exec (.playSound a) s = .next (s.answer none)) ∧ exec .stopSound s = .next (s.answer none) :=
  ⟨fun _ => (ifConfigured_on hc).trans (if_pos hd), (ifConfigured_on hc).trans (if_pos hd)⟩

theorem exec_disableSound : exec .disableSound s = .next (State.answer { s with
    snd := { s.snd with state := .disabled, cursorValid := false }
    out := { s.out with toneOn := false, events := s.out.events ++ [.toneOn false] } } none) :=
  ifConfigured_on hc

end

/-- Settles O42: each command's update, and the sequencer tick of the request it leaves. -/
theorem soundCommands : Obligations.SoundCommands := by
  refine fun s hc => ⟨fun a hd => ?_, fun hd => ?_, exec_request_disabled hc, exec_disableSound hc⟩
  · exact ⟨_, (s.beginDuty a).tmem.duties, exec_playSound hc a hd, rfl, seqTick_startRequested rfl⟩
  · exact ⟨_, exec_stopSound hc hd, rfl, seqTick_stopRequested rfl⟩

/-! ### Disabled (42 R161, 43 R222) -/

/-- No tick step touches a Disabled sound state. -/
theorem tick_disabled {s t : State} (hd : s.snd.state = .disabled) (ht : tick s = .next t) : t.snd = s.snd := by
  have hsnd : (displayOrSwap s).snd = s.snd := (displayOrSwap_frame s).snd
  rcases tick_cases s with ⟨-, e⟩ | ⟨-, q, m, -, -, hother, hseq, e⟩
  · obtain rfl := Host.Outcome.next.inj (e.symm.trans ht)
    rfl
  · have hq : q.snd = s.snd := by
      by_cases hrow : s.drive.row = 6#3
      · have hquiet := seqTick_quiet (s := displayOrSwap s) (Or.inr (by rw [hsnd, hd]))
        rw [← Host.Outcome.next.inj (hquiet.symm.trans (hseq hrow).1), hsnd]
      · rw [(hother hrow).1, hsnd]
    rcases e with ⟨-, e⟩ | ⟨-, e⟩ <;> obtain rfl := Host.Outcome.next.inj (e.symm.trans ht) <;> exact hq

/-- Settles O30: a tick step leaves a Disabled sound state, and no host step without SETUP leaves Disabled. -/
theorem disabledIsSticky : Obligations.DisabledIsSticky := by
  intro s t hd hn hst
  have hd' : s.turnTaken.snd.state = .disabled := by rwa [turnTaken_snd]
  obtain ⟨-, ⟨-, ht⟩ | ⟨ha, -, hh⟩⟩ := step_cases hst
  · rw [tick_disabled hd' ht, hd']
  · rcases hostStep_frame hh with ⟨-, -, hw, hr, hsetup, -⟩ | ⟨-, hsound⟩
    · rw [turnTaken_host] at hw hr
      exact absurd ⟨ha, hw, hr, by simpa only [State.setupNext, turnTaken_host] using hsetup⟩ hn
    · exact hsound.disabled hd'

end Sys2Proof.Machine
end

section
/-!
PROOFS. The colours, the picture and the played note as the host reads and writes them, and the commands of a configured
block that carry them (spec/43_host_interface.md R201 to R208, R223).
-/

namespace Sys2Proof.Machine

/-! ### Colours (43 R207, R208) -/

theorem color_toNat (r g b : Nat) : (color r g b).toNat = 256 * (r % 16) + 16 * (g % 16) + b % 16 := by
  simp only [color, toNat_append_eq, BitVec.toNat_ofNat]
  omega

/-- Settles O47: a word by its number, and its channels as the digits of that number. -/
theorem colourRoundTrip : Obligations.ColourRoundTrip := by
  refine ⟨fun r g b => ?_, fun c => ?_⟩
  · obtain ⟨hred, hgreen, hblue⟩ := channels_toNat (color r g b)
    rw [hred, hgreen, hblue, color_toNat]
    omega
  · obtain ⟨hred, hgreen, hblue⟩ := channels_toNat c
    apply BitVec.eq_of_toNat_eq
    rw [color_toNat, hred, hgreen, hblue]
    omega

/-! ### Pixels (43 R201 to R206) -/

theorem blackPicture_pixel (x y : Fin 8) : Picture.pixel blackPicture x y = 0 := by
  simp [Picture.pixel, Picture.cell, blackPicture]

@[simp] theorem cellOf_x (x y : Fin 8) : Cell.x (cellOf x y) = x := (cellOf_inj.mp (cellOf_xy (cellOf x y))).1

@[simp] theorem cellOf_y (x y : Fin 8) : Cell.y (cellOf x y) = y := (cellOf_inj.mp (cellOf_xy (cellOf x y))).2

section
variable {s : State} (hc : s.ctl.configured = true)
include hc

theorem exec_clear : exec .clear s =
    .next (State.answer { s with store := { s.store with front := blackPicture, auxFront := 0 } } none) :=
  ifConfigured_on hc

theorem exec_clearPixels : exec .clearPixels s =
    .next (State.answer { s with store := { s.store with front := blackPicture } } none) :=
  ifConfigured_on hc

theorem exec_setPixel_in (x y : Fin 8) (c : Colour) :
    exec (.setPixel x.val y.val c) s = .next ((s.setFront x y c).answer none) := by
  simpa only [coord, cellOf_x, cellOf_y] using exec_setPixel_cell hc (cellOf x y) c

theorem exec_getPixel_in (x y : Fin 8) : exec (.getPixel x.val y.val) s =
    .next (s.answer (some (.colour (Picture.pixel s.store.front x y)))) := by
  simpa only [coord, cellOf_x, cellOf_y, Picture.pixel] using exec_getPixel_cell hc (cellOf x y)

theorem exec_setPixelS_in (x y : Fin 8) (c : Colour) :
    exec (.setPixelS x.val y.val c) s = .next ((s.setFront x y c).answer none) := by
  show execSetPixelS _ _ _ s = _
  rw [execSetPixelS, ifConfigured_on hc, inMatrix_in]
  rfl

theorem exec_getPixelS_in (x y : Fin 8) : exec (.getPixelS x.val y.val) s =
    .next (s.answer (some (.colour (Picture.pixel s.store.front x y)))) := by
  show execGetPixelS _ _ s = _
  rw [execGetPixelS, ifConfigured_on hc, inMatrix_in]
  rfl

variable {x y : Int} (h : ¬ (0 ≤ x ∧ x < 8 ∧ 0 ≤ y ∧ y < 8))
include h

theorem exec_setPixel_out (c : Colour) : exec (.setPixel x y c) s = .next (s.raise (.uncheckedRange x y)) := by
  show execSetPixel _ _ _ s = _
  rw [execSetPixel, ifConfigured_on hc, inMatrix_out h]

theorem exec_getPixel_out : exec (.getPixel x y) s = .next (s.raise (.uncheckedRange x y)) := by
  show execGetPixel _ _ s = _
  rw [execGetPixel, ifConfigured_on hc, inMatrix_out h]

theorem exec_setPixelS_out (c : Colour) : exec (.setPixelS x y c) s = .next (s.answer none) := by
  show execSetPixelS _ _ _ s = _
  rw [execSetPixelS, ifConfigured_on hc, inMatrix_out h]
  rfl

theorem exec_getPixelS_out : exec (.getPixelS x y) s = .next (s.answer (some (.colour 0))) := by
  show execGetPixelS _ _ s = _
  rw [execGetPixelS, ifConfigured_on hc, inMatrix_out h]
  rfl

end

/-- Settles O37: FRONT black, with AUX_FRONT cleared or kept. -/
theorem clearCommands : Obligations.ClearCommands :=
  fun _ hc => ⟨blackPicture, blackPicture_pixel, exec_clear hc, exec_clearPixels hc⟩

/-- Settles O38: one word of FRONT in range, a fault or nothing out of range. -/
theorem setPixelCommands : Obligations.SetPixelCommands := by
  refine fun c s hc => ⟨fun x y => ?_, fun x y h => ⟨fun hf => ?_, exec_setPixelS_out hc h c⟩⟩
  · exact ⟨Picture.withPixel s.store.front x y c, Picture.pixel_withPixel s.store.front x y c,
      exec_setPixel_in hc x y c, exec_setPixelS_in hc x y c⟩
  · rw [exec_setPixel_out hc h, raise_nil hf]

/-- Settles O39: the word of FRONT in range, which SET_PIXEL may just have written, and a fault or black out of range. -/
theorem getPixelCommands : Obligations.GetPixelCommands := by
  refine fun s hc => ⟨fun x y => ⟨exec_getPixel_in hc x y, exec_getPixelS_in hc x y, fun c => ?_⟩,
    fun x y h => ⟨fun hf => ?_, exec_getPixelS_out hc h⟩⟩
  · have written : Picture.pixel (s.setFront x y c).store.front x y = c := by simp [Picture.pixel_withPixel]
    have hread := exec_getPixel_in (s := (s.setFront x y c).answer none) hc x y
    rw [State.answer_store, written] at hread
    exact ⟨_, exec_setPixel_in hc x y c, hread⟩
  · rw [exec_getPixel_out hc h, raise_nil hf]

/-! ### The played note (43 R223) -/

/-- The 1-based index of note 127 is 128, which 8 bits hold. -/
theorem playedNote_toNat (toneOn : Bool) (n : BitVec 7) :
    (playedNote toneOn n).toNat = if toneOn = true then n.toNat + 1 else 0 := by
  cases toneOn with
  | false => rfl
  | true =>
    show (n.setWidth 8 + 1).toNat = n.toNat + 1
    bv_omega

/-- Settles O43: the note as its number, with the state as it was but for the result. -/
theorem playedNoteReported : Obligations.PlayedNoteReported :=
  fun s hc => ⟨playedNote s.out.toneOn s.snd.note, ifConfigured_on hc, playedNote_toNat _ _⟩

end Sys2Proof.Machine
end

section
/-!
PROOFS. The auxiliary LED commands and the button queries of a configured block, bit by bit (spec/43_host_interface.md R209
to R218).
-/

namespace Sys2Proof.Machine

/-! ### One bit of a mask (43 R211 to R213) -/

/-- Bit `j` of a mask with bit `k` set or cleared. -/
theorem withBit_getLsbD (m : Byte) (k : Fin 8) (b : Bool) {j : Nat} (hj : j < 8) :
    (withBit m k b).getLsbD j = if j = k.val then b else m.getLsbD j := by
  have hone : (1#8 <<< k.val).getLsbD j = decide (j = k.val) := by
    rw [← BitVec.twoPow_eq, BitVec.getLsbD_twoPow]
    simp [k.isLt, eq_comm]
  cases b with
  | true =>
    show (m ||| 1#8 <<< k.val).getLsbD j = _
    rw [BitVec.getLsbD_or, hone]
    by_cases h : j = k.val <;> simp [h]
  | false =>
    show (m &&& ~~~(1#8 <<< k.val)).getLsbD j = _
    rw [BitVec.getLsbD_and, BitVec.getLsbD_not, hone]
    by_cases h : j = k.val <;> simp [h, hj]

section
variable {s : State} (hc : s.ctl.configured = true)
include hc

theorem exec_auxBit_in (k : Fin 8) :
    exec (.auxEnable k.val) s = .next ((s.setAuxFront (withBit s.store.auxFront k true)).answer none) ∧
    exec (.auxDisable k.val) s = .next ((s.setAuxFront (withBit s.store.auxFront k false)).answer none) ∧
    exec (.auxIsEnabled k.val) s = .next (s.answer (some (.flag (s.store.auxFront.getLsbD k.val)))) := by
  have hk : auxIndex k.val = some k := indexBelow_in k
  show execAuxEnable _ s = _ ∧ execAuxDisable _ s = _ ∧ execAuxIsEnabled _ s = _
  simp only [execAuxEnable, execAuxDisable, execAuxIsEnabled, ifConfigured_on hc, hk]
  exact ⟨rfl, rfl, rfl⟩

theorem exec_auxBit_out {k : Int} (h : ¬ (0 ≤ k ∧ k < 8)) :
    exec (.auxEnable k) s = .next (s.answer none) ∧
    exec (.auxDisable k) s = .next (s.answer none) ∧
    exec (.auxIsEnabled k) s = .next (s.answer (some (.flag false))) := by
  have hk : auxIndex k = none := indexBelow_out h
  show execAuxEnable _ s = _ ∧ execAuxDisable _ s = _ ∧ execAuxIsEnabled _ s = _
  simp only [execAuxEnable, execAuxDisable, execAuxIsEnabled, ifConfigured_on hc, hk]
  exact ⟨rfl, rfl, rfl⟩

end

/-- Settles O40: the whole mask, one bit of it, and nothing out of range. -/
theorem auxCommands : Obligations.AuxCommands := by
  refine fun s hc => ⟨fun _ => ifConfigured_on hc, ifConfigured_on hc, fun k => ?_, fun _ => exec_auxBit_out hc⟩
  refine ⟨withBit s.store.auxFront k true, withBit s.store.auxFront k false, fun j hj => ?_, fun j hj => ?_,
    exec_auxBit_in hc k⟩
  · rw [withBit_getLsbD _ _ _ hj]
    by_cases h : j = k.val <;> simp [h]
  · rw [withBit_getLsbD _ _ _ hj]
    by_cases h : j = k.val <;> simp [h]

/-! ### One button (43 R216 to R218) -/

/-- A button query of a predicate on bit numbers: the predicate in range, false out of range, and no write but the result. -/
theorem buttonQuery_answer (k : Int) (g : Nat → Bool) (s : State) : ∃ b : Bool,
    buttonQuery k (fun n => g n.val) s = .next (s.answer (some (.flag b))) ∧
    (b = true ↔ (0 ≤ k ∧ k < 6) ∧ g k.toNat = true) := by
  by_cases h : 0 ≤ k ∧ k < 6
  · have hk : buttonIndex k = some ⟨k.toNat, by omega⟩ := dif_pos h
    exact ⟨g k.toNat, by rw [buttonQuery, hk]; rfl, by simp [h]⟩
  · have hk : buttonIndex k = none := indexBelow_out h
    exact ⟨false, by rw [buttonQuery, hk]; rfl, by simp [h]⟩

/-- Settles O41: the two bytes, and each query as a predicate on the bits of one button. -/
theorem buttonQueries : Obligations.ButtonQueries := by
  refine fun s hc => ⟨ifConfigured_on hc, ifConfigured_on hc, fun k => ?_⟩
  obtain ⟨p, hp, hpIff⟩ := buttonQuery_answer k (fun n => s.btn.cur.getLsbD n && !s.btn.prev.getLsbD n) s
  obtain ⟨d, hd, hdIff⟩ := buttonQuery_answer k s.btn.cur.getLsbD s
  obtain ⟨r, hr, hrIff⟩ := buttonQuery_answer k (fun n => !s.btn.cur.getLsbD n && s.btn.prev.getLsbD n) s
  refine ⟨p, d, r, (ifConfigured_on hc).trans hp, (ifConfigured_on hc).trans hd, (ifConfigured_on hc).trans hr,
    ?_, hdIff, ?_⟩
  · simpa using hpIff
  · simpa using hrIff

end Sys2Proof.Machine
end

section
/-!
PROOFS. Before setup (spec/43_host_interface.md R219, spec/70_reset_and_hazards.md R281, R282): every command but SETUP
raises NOT_CONFIGURED, and SETUP reads none of what power-on leaves unspecified. A host that waits issues nothing.
-/

namespace Sys2Proof.Machine

/-! ### Commands of an unconfigured block (43 R219) -/

/-- Every command but SETUP tests the configuration first, and raises its own id. -/
theorem exec_unconfigured {i : Instr} {s : State} (hi : i.language = .command) (hn : ∀ div, i ≠ .setup div)
    (hc : s.ctl.configured = false) :
    ∃ id, (encode i).head? = some id ∧ exec i s = .next (s.raise (.notConfigured id)) := by
  cases i
  case setup div => exact absurd rfl (hn div)
  case endTok | play | playr | plays | pause | tempo | fadeoff | fadeup | fadedn | note | unrecognized => cases hi
  all_goals exact ⟨_, rfl, ifConfigured_off hc⟩

/-! ### A host that waits (43 R219, R225) -/

section
variable {s : State} {s0 : BitVec Config.wFrameSignal} (hw : s.host.wait = some s0)
include hw

theorem hostStep_holds (h : s.frame.signal = s0) : hostStep s = .next s := by
  simp [hostStep, hw, h]

theorem hostStep_returns (h : s.frame.signal ≠ s0) : hostStep s =
    .next { s with host := { s.host with wait := none, result := some (.frames s.frame.count) } } := by
  simp [hostStep, hw, h, frameSyncReturn, complete, State.answer]

end

/-- Settles O36: the fault of each command, and the step of a host that waits. -/
theorem commandsNeedSetup : Obligations.CommandsNeedSetup := by
  refine ⟨fun i s hi hn hc hf => ?_, fun s t s0 hw ht => ?_⟩
  · obtain ⟨id, hid, he⟩ := exec_unconfigured hi hn hc
    exact ⟨id, hid, by rw [he, raise_nil hf]⟩
  · by_cases h : s.frame.signal = s0
    · obtain rfl := Host.Outcome.next.inj ((hostStep_holds hw h).symm.trans ht)
      exact ⟨rfl, rfl, fun _ => rfl⟩
    · obtain rfl := Host.Outcome.next.inj ((hostStep_returns hw h).symm.trans ht)
      exact ⟨rfl, rfl, fun h' => absurd h' h⟩

/-! ### Power-on (70 R281, R282) -/

theorem clockNow_of_inp {s t : State} (h : t.inp = s.inp) (hd : t.draws = s.draws) : t.clockNow = s.clockNow := by
  simp only [State.clockNow, h, hd]

/-- SETUP reads the inputs, the event history, FAULTS, the host, token memory and the model's own fields alone. -/
theorem resetWith_congr {s t : State} (l : BitVec 2) (hinp : t.inp = s.inp) (hdraws : t.draws = s.draws)
    (hevents : t.out.events = s.out.events) (hfaults : t.faults = s.faults) (hhost : t.host = s.host)
    (htmem : t.tmem = s.tmem) (hpar : t.par = s.par) (hsched : t.sched = s.sched) :
    t.resetWith l = s.resetWith l := by
  simp only [resetWith_eq, State.clockTaken_inp, State.clockTaken_draws, clockNow_of_inp hinp hdraws, hinp, hdraws,
    hevents, hfaults, hhost, htmem, hpar, hsched]

/-- Settles O34: the tick step, the commands, SETUP and a write of a token byte at power-on. -/
theorem powerOnValuesUnread : Obligations.PowerOnValuesUnread := by
  refine fun u => ⟨tick_unconfigured rfl, fun i hi hn => ?_,
    fun l v hinp hdraws hevents hbytes hhost hpar hsched => ?_, fun a b ha => if_pos ha⟩
  · obtain ⟨id, -, he⟩ := exec_unconfigured (s := u.powerOn) hi hn rfl
    exact ⟨id, by rw [he, raise_nil rfl]⟩
  · have hhost' : u.powerOn.host = v.powerOn.host := by simp [State.powerOn, hhost]
    have htmem : u.powerOn.tmem = v.powerOn.tmem := by simp [State.powerOn, hbytes]
    have hreset : u.powerOn.resetWith l = v.powerOn.resetWith l :=
      resetWith_congr l hinp hdraws hevents rfl hhost' htmem hpar hsched
    rw [exec_setup_pow, exec_setup_pow, hreset]

end Sys2Proof.Machine
end

section
/-!
PROOFS. FRAME_SYNC (spec/43_host_interface.md R224, R225): while FRAME_SIGNAL stands, a waiting host has no step, and the
tick steps come to a swap; in a run that meets HOST_SYNC_FAIR the return step is then taken
(spec/70_reset_and_hazards.md R287).
-/

namespace Sys2Proof.Machine

/-! ### One step of a waiting host (43 R225) -/

section
variable {s t : State} {s0 : BitVec Config.wFrameSignal} (hw : s.host.wait = some s0)
include hw

theorem hostEnabled_waiting : hostEnabled s = decide (s.frame.signal ≠ s0) := by simp [hostEnabled, hw]

theorem acting_holds (h : s.frame.signal = s0) : acting s = .tick := by
  simp [acting, hostEnabled_waiting hw, h]

theorem acting_returns (h : s.frame.signal ≠ s0) : acting s = s.turn := by
  simp [acting, hostEnabled_waiting hw, h]

/-- While FRAME_SIGNAL stands, the step is a tick step. -/
theorem step_holds (h : s.frame.signal = s0) (hst : step s = .next t) : tick s.turnTaken = .next t := by
  obtain ⟨-, ⟨-, ht⟩ | ⟨ha, -, -⟩⟩ := step_cases hst
  · exact ht
  · rw [acting_holds hw h] at ha; cases ha

/-- What the tick step of a waiting host leaves. -/
theorem step_holds_frame (h : s.frame.signal = s0) (hst : step s = .next t) : t.ctl = s.ctl ∧ t.host = s.host := by
  obtain ⟨t', ht', hfr⟩ := tick_frame s.turnTaken
  obtain rfl := Host.Outcome.next.inj (ht'.symm.trans (step_holds hw h hst))
  exact ⟨by rw [hfr.ctl, turnTaken_ctl], by rw [hfr.host, turnTaken_host]⟩

/-- FRAME_SIGNAL changes in a swap alone, which counts a frame. -/
theorem step_holds_signal (h : s.frame.signal = s0) (hst : step s = .next t) (hne : t.frame.signal ≠ s0) :
    s.swapsNext ∧ t.frame.count = s.frame.count + 1 := by
  have ht := step_holds hw h hst
  have hsw : s.turnTaken.swapsNext := by
    by_contra hn
    obtain ⟨-, hframe, -⟩ := tick_not_swaps hn ht
    exact hne (by rw [hframe, turnTaken_frame, h])
  exact ⟨(turnTaken_swapsNext s).mp hsw, by rw [(tick_swaps hsw ht).count, turnTaken_frame]⟩

/-- The return step ends the wait (43 R225). -/
theorem step_returns (h : s.frame.signal ≠ s0) (ha : acting s = .host) (hst : step s = .next t) :
    t.host = { s.host with wait := none, result := some (.frames s.frame.count) } := by
  obtain ⟨-, ⟨ha', -⟩ | ⟨-, -, hh⟩⟩ := step_cases hst
  · rw [ha] at ha'; cases ha'
  · have hret := hostStep_returns (s := s.turnTaken) (by rwa [turnTaken_host]) (by rwa [turnTaken_frame])
    obtain rfl := Host.Outcome.next.inj (hret.symm.trans hh)
    rw [turnTaken_host, turnTaken_frame]

end

/-! ### The tick steps come to a swap (40 R103, 41 R131) -/

/-- How many tick steps of a configured block come before its next swap: whole sweeps by DIVC, which wraps at 0, and what
is left of this one by the cursor. -/
def State.ticksToSwap (s : State) : Nat :=
  128 * (s.drive.divc - 1).toNat + (127 - (s.drive.row.toNat + 8 * s.drive.level.toNat))

/-- Every tick step that does not swap comes one closer to the swap. -/
theorem tick_ticksToSwap {s t : State} (hc : s.ctl.configured = true) (hn : ¬ s.swapsNext) (ht : tick s = .next t)
    (hf : t.faults = []) : t.ticksToSwap + 1 = s.ticksToSwap := by
  have hcursor := (tick_cursor hc ht hf).trans (nextCursor_eq _ _)
  by_cases hb : s.atBoundary = true
  · have hd : s.drive.divc ≠ 1 := fun hd => hn ⟨hc, hb, (qualifies_iff s).mpr hd⟩
    obtain ⟨hrow, hlevel⟩ := (atBoundary_iff s).mp hb
    rw [hrow, hlevel] at hcursor
    obtain ⟨hrow', hlevel'⟩ := Prod.mk.inj hcursor
    simp only [State.ticksToSwap, (tick_unqualified hc hb hd ht).1, hrow, hlevel, hrow', hlevel']
    bv_omega
  · have hinside : ¬ (s.drive.row = 7 ∧ s.drive.level = 15) := mt (atBoundary_iff s).mpr hb
    rw [State.ticksToSwap, State.ticksToSwap, (tick_inside hc hb ht).1]
    split at hcursor <;> obtain ⟨hrow', hlevel'⟩ := Prod.mk.inj hcursor <;> rw [hrow', hlevel'] <;> bv_omega

/-- In a run, a wait of a configured block comes to its return step: the tick steps come to a swap, which moves
FRAME_SIGNAL away from what the call recorded. -/
theorem IsRun.returnEnabled {r : Nat → State} (hr : IsRun r) {s0 : BitVec Config.wFrameSignal} (n : Nat)
    (hc : (r n).ctl.configured = true) (hw : (r n).host.wait = some s0) : ∃ m, n ≤ m ∧ (r m).returnEnabled s0 := by
  by_cases h : (r n).frame.signal = s0
  · have ht := step_holds hw h (hr n)
    obtain ⟨hctl, hhost⟩ := step_holds_frame hw h (hr n)
    by_cases hsw : (r n).swapsNext
    · have hsignal := (tick_swaps ((turnTaken_swapsNext _).mpr hsw) ht).signal
      rw [turnTaken_frame, h] at hsignal
      exact ⟨n + 1, n.le_succ, by rw [hhost, hw], by rw [hsignal]; exact mt add_eq_left.mp (by decide)⟩
    · have hcloser : (r (n + 1)).ticksToSwap + 1 = (r n).ticksToSwap := by
        simpa [State.ticksToSwap] using tick_ticksToSwap (by rwa [turnTaken_ctl])
          (mt (turnTaken_swapsNext _).mp hsw) ht (step_cases (hr (n + 1))).1
      obtain ⟨m, hm, hret⟩ := IsRun.returnEnabled hr (n + 1) (by rwa [hctl]) (by rwa [hhost])
      exact ⟨m, (n.le_succ).trans hm, hret⟩
  · exact ⟨n, le_rfl, hw, h⟩
termination_by (r n).ticksToSwap

/-- Settles O44: the call, the hold, the return, and the end of every wait in a run that meets HOST_SYNC_FAIR. -/
theorem frameSyncWaits : Obligations.FrameSyncWaits := by
  refine ⟨fun r n s0 hr hfair hc hw => ?_,
    fun s => ⟨fun hc => ifConfigured_on hc, fun s0 hw => ⟨fun h => ?_, fun h => ?_⟩⟩⟩
  · obtain ⟨m, hm, hret⟩ := hr.returnEnabled n hc hw
    obtain ⟨k, hk, hhost, hheld⟩ := hfair m s0 hret
    obtain ⟨hwait, hne⟩ := hheld k hk le_rfl
    exact ⟨k, hm.trans hk, hhost, ⟨hwait, hne⟩, step_returns hwait hne hhost (hr k)⟩
  · exact ⟨by simp [hostEnabled_waiting hw, h], acting_holds hw h, fun t hst =>
      ⟨(step_holds_frame hw h hst).2, step_holds_signal hw h hst⟩⟩
  · exact ⟨by simp [hostEnabled_waiting hw, h], acting_returns hw h, hostStep_returns hw h⟩

end Sys2Proof.Machine
end

section
/-!
PROOFS. A library routine in an interleaving (spec/44_host_library.md R246): what each host step does to the routine and to
FRONT, and what a run of as many host steps as the routine has leaves, whatever tick steps fall between.
-/

namespace Sys2Proof.Machine

/-! ### Painting cells of a picture -/

/-- The picture with `f k` written into each cell `k` of a list, in its order. -/
def Picture.paint (f : Cell → Colour) (l : List Cell) (p : Picture) : Picture :=
  l.foldl (fun q k => Picture.withPixel q (Cell.x k) (Cell.y k) (f k)) p

theorem Picture.paint_concat (f : Cell → Colour) (l : List Cell) (k : Cell) (p : Picture) :
    Picture.paint f (l ++ [k]) p = Picture.withPixel (Picture.paint f l p) (Cell.x k) (Cell.y k) (f k) := by
  simp [Picture.paint]

theorem Picture.cell_paint (f : Cell → Colour) (l : List Cell) (p : Picture) (k : Cell) :
    Picture.cell (Picture.paint f l p) k = if k ∈ l then f k else Picture.cell p k := by
  induction l using List.reverseRecOn with
  | nil => rfl
  | append_singleton l j ih =>
    rw [Picture.paint_concat, Picture.cell_withPixel, cellOf_xy, ih]
    by_cases h : k = j <;> simp [h]

/-! ### A routine in progress -/

/-- The host has come to `r` in the routine it called from `s₀`, with `p` in FRONT; AUX_FRONT and the rest of its program
are what they were. -/
structure Progress (s₀ : State) (r : Option Routine) (p : Picture) (s : State) : Prop where
  configured : s.ctl.configured = true
  front : s.store.front = p
  auxFront : s.store.auxFront = s₀.store.auxFront
  wait : s.host.wait = none
  prog : s.host.prog = s₀.host.prog
  routine : s.host.routine = r

theorem Progress.start {s₀ : State} (hc : s₀.ctl.configured = true) (hw : s₀.host.wait = none) (r : Option Routine) :
    Progress s₀ r s₀.store.front (s₀.startRoutine r) := ⟨hc, rfl, rfl, hw, rfl, rfl⟩

theorem Progress.tick {s₀ s t : State} {r : Option Routine} {p : Picture} (h : Progress s₀ r p s) (ht : TickFrame s t) :
    Progress s₀ r p t where
  configured := by rw [ht.ctl, h.configured]
  front := by rw [ht.front, h.front]
  auxFront := by rw [ht.auxFront, h.auxFront]
  wait := by rw [ht.host, h.wait]
  prog := by rw [ht.host, h.prog]
  routine := by rw [ht.host, h.routine]

/-- A host step of the routine called from `s₀` takes it and FRONT from `r` and `p` to `r'` and `p'`, and raises nothing. -/
def StepsTo (s₀ : State) (r : Option Routine) (p : Picture) (r' : Option Routine) (p' : Picture) : Prop :=
  ∀ s, Progress s₀ r p s → ∃ t, hostStep s = .next t ∧ t.faults = s.faults ∧ Progress s₀ r' p' t

section
variable {s₀ : State} {r : Routine} {p : Picture} {k : Cell}

theorem stepsTo_read (hr : r.primitive = some (.getPixel (coord (Cell.x k)) (coord (Cell.y k)))) :
    StepsTo s₀ (some r) p (r.after (some (.colour (Picture.cell p k)))) p := by
  intro s h
  refine ⟨_, hostStep_routine h.wait h.routine hr (exec_getPixel_cell h.configured k), rfl,
    h.configured, h.front, h.auxFront, h.wait, h.prog, ?_⟩
  simp [h.front]

/-- SET_PIXEL and SET_PIXEL_S of a cell of the matrix. -/
theorem stepsTo_write {i : Instr} {c : Colour} (hr : r.primitive = some i)
    (hi : ∀ s : State, s.ctl.configured = true → exec i s = .next ((s.setFront (Cell.x k) (Cell.y k) c).answer none)) :
    StepsTo s₀ (some r) p (r.after none) (Picture.withPixel p (Cell.x k) (Cell.y k) c) := by
  intro s h
  refine ⟨_, hostStep_routine h.wait h.routine hr (hi s h.configured), rfl,
    h.configured, ?_, h.auxFront, h.wait, h.prog, rfl⟩
  simp [h.front]

/-- SET_PIXEL_S outside the matrix. -/
theorem stepsTo_drop {i : Instr} (hr : r.primitive = some i)
    (hi : ∀ s : State, s.ctl.configured = true → exec i s = .next (s.answer none)) :
    StepsTo s₀ (some r) p (r.after none) p := by
  intro s h
  exact ⟨_, hostStep_routine h.wait h.routine hr (hi s h.configured), rfl,
    h.configured, h.front, h.auxFront, h.wait, h.prog, rfl⟩

end

/-- The run of a routine of `n` host steps none of which raises: after them, with ticks anywhere between, it has come to its
`n`-th place, unless a tick has raised TOKEN_OOB. -/
theorem runAgents_routine {s₀ s : State} {n : Nat} {r : Nat → Option Routine} {p : Nat → Picture}
    (hsteps : ∀ k < n, StepsTo s₀ (r k) (p k) (r (k + 1)) (p (k + 1))) (hs : Progress s₀ (r 0) (p 0) s)
    (hf : s.faults = []) {gs : List Agent} (hgs : gs.count .host = n) :
    ∃ u, runAgents gs s = .next u ∧ (u.faults = [] ∨ ∃ c, u.faults = [.tokenOob c]) ∧
      (u.faults = [] → Progress s₀ (r n) (p n) u) := by
  have hhost : ∀ k s, k < n → Progress s₀ (r k) (p k) s → s.faults = [] →
      ∃ t, hostStep s = .next t ∧ (t.faults = [] → Progress s₀ (r (k + 1)) (p (k + 1)) t) := fun k s hk h _ =>
    let ⟨t, ht, _, hp⟩ := hsteps k hk s h
    ⟨t, ht, fun _ => hp⟩
  obtain ⟨u, hu, ⟨hfu, hp⟩ | ⟨m, -, -, -, c, hc⟩ | ⟨m, s', -, hm, hp, hf', hst, hfu⟩⟩ :=
    runAgents_induct (P := fun k => Progress s₀ (r k) (p k)) (fun _ _ _ h ht => h.tick ht) hhost gs 0 s (by omega) hs hf
  · rw [Nat.zero_add, hgs] at hp
    exact ⟨u, hu, Or.inl hfu, fun _ => hp⟩
  · exact ⟨u, hu, Or.inr ⟨c, hc⟩, fun h => by simp [h] at hc⟩
  · obtain ⟨t, ht, hft, -⟩ := hsteps m (by omega) s' hp
    obtain rfl := Host.Outcome.next.inj (ht.symm.trans hst)
    exact absurd (hft.trans hf') hfu

end Sys2Proof.Machine
end

section
/-!
PROOFS. SCROLL and FADE_PIXELS (spec/44_host_library.md R242, R243): the place of the routine and the picture after each
host step, in whatever order the machine visits the cells.
-/

namespace Sys2Proof.Machine

/-! ### An order of the cells, from its `j`-th cell on -/

section
variable {order : List Cell} (horder : order.Perm (List.finRange 64))
include horder

theorem order_length : order.length = 64 := by rw [horder.length_eq, List.length_finRange]

/-- The `j`-th cell of the order, which is none of those before it. -/
theorem order_split {j : Nat} (hj : j < 64) : ∃ k, order.drop j = k :: order.drop (j + 1) ∧
    order.take (j + 1) = order.take j ++ [k] ∧ k ∉ order.take j := by
  have hlt : j < order.length := by rw [order_length horder]; exact hj
  have htake : order.take (j + 1) = order.take j ++ [order[j]] := (List.take_append_getElem hlt).symm
  refine ⟨order[j], List.drop_eq_getElem_cons hlt, htake, fun hmem => ?_⟩
  have hnodup : (order.take (j + 1)).Nodup :=
    (horder.nodup_iff.mpr (List.nodup_finRange 64)).sublist (List.take_sublist _ _)
  rw [htake, List.nodup_append] at hnodup
  exact hnodup.2.2 _ hmem _ (List.mem_singleton_self _) rfl

theorem order_drop_all : order.drop 64 = [] := List.drop_eq_nil_of_le (order_length horder).le

/-- A picture painted in every cell. -/
theorem pixel_paint_all (f : Cell → Colour) (p : Picture) (a b : Fin 8) :
    Picture.pixel (Picture.paint f (order.take 64) p) a b = f (cellOf a b) := by
  rw [List.take_of_length_le (order_length horder).le, Picture.pixel, Picture.cell_paint,
    if_pos (horder.mem_iff.mpr (List.mem_finRange _))]

end

/-! ### SCROLL: 64 reads in the order of the cells, then 64 writes -/

/-- The place of SCROLL after `n` of its host steps. -/
def scrollAt (dir : Dir) (order : List Cell) (p : Picture) (n : Nat) : Option Routine :=
  if n < 64 then some (.scrollRead dir order (p.toList.take n)) else scrollWrites dir (order.drop (n - 64)) p.toList

/-- FRONT after `n` host steps of SCROLL. -/
def scrollPicture (dir : Dir) (order : List Cell) (p : Picture) (n : Nat) : Picture :=
  Picture.paint (fun k => Picture.cell p (scrollSource dir k)) (order.take (n - 64)) p

theorem toList_take_succ (p : Picture) (k : Cell) :
    p.toList.take (k.val + 1) = p.toList.take k.val ++ [Picture.cell p k] := by
  rw [List.take_succ_eq_append_getElem (by simp)]
  rfl

theorem toList_getD_cell (p : Picture) (k : Cell) : p.toList.getD k.val 0 = Picture.cell p k := by
  rw [List.getD_eq_getElem _ _ (by simp)]
  rfl

theorem scroll_reads (s₀ : State) (dir : Dir) (order : List Cell) (p : Picture) {n : Nat} (hn : n < 64) :
    StepsTo s₀ (scrollAt dir order p n) (scrollPicture dir order p n)
      (scrollAt dir order p (n + 1)) (scrollPicture dir order p (n + 1)) := by
  have hlen : (p.toList.take n).length = n := by simp; omega
  have hpic : ∀ m ≤ 64, scrollPicture dir order p m = p := fun m hm => by
    simp [scrollPicture, Nat.sub_eq_zero_of_le hm, Picture.paint]
  have hprim : (Routine.scrollRead dir order (p.toList.take n)).primitive =
      some (.getPixel (coord (Cell.x ⟨n, hn⟩)) (coord (Cell.y ⟨n, hn⟩))) := by
    simp only [Routine.primitive, hlen, hn, dif_pos]
  have hafter : (Routine.scrollRead dir order (p.toList.take n)).after (some (.colour (Picture.cell p ⟨n, hn⟩))) =
      scrollAt dir order p (n + 1) := by
    simp only [Routine.after, scrollAt, hlen, ← toList_take_succ p ⟨n, hn⟩]
    by_cases h : n + 1 < 64
    · simp [h]
    · obtain rfl : n = 63 := by omega
      simp [List.take_of_length_le]
  rw [hpic n (by omega), hpic (n + 1) (by omega), ← hafter, scrollAt, if_pos hn]
  exact stepsTo_read hprim

theorem scroll_writes (s₀ : State) (dir : Dir) {order : List Cell} (horder : order.Perm (List.finRange 64)) (p : Picture)
    {j : Nat} (hj : j < 64) :
    StepsTo s₀ (scrollAt dir order p (64 + j)) (scrollPicture dir order p (64 + j))
      (scrollAt dir order p (64 + j + 1)) (scrollPicture dir order p (64 + j + 1)) := by
  obtain ⟨k, hdrop, htake, -⟩ := order_split horder hj
  have hj' : 64 + j + 1 - 64 = j + 1 := by omega
  simp only [scrollAt, scrollPicture, Nat.add_sub_cancel_left, hj', hdrop, htake, Picture.paint_concat,
    show ¬ 64 + j < 64 by omega, show ¬ 64 + j + 1 < 64 by omega, if_false]
  rw [← toList_getD_cell]
  exact stepsTo_write (r := .scrollWrite dir (k :: order.drop (j + 1)) p.toList) rfl
    (fun s hc => exec_setPixel_cell hc k _)

/-- Settles O50: 64 reads leave FRONT as it was, and the writes paint every cell with the old word of its source. -/
theorem scrollRun : Obligations.ScrollRun := by
  intro dir s hc hf hw ⟨horder, _⟩
  refine ⟨_, ifConfigured_on hc, rfl, rfl, fun gs hgs => ?_⟩
  have hsteps : ∀ n < 128, StepsTo s (scrollAt dir s.par.scrollOrder s.store.front n)
      (scrollPicture dir s.par.scrollOrder s.store.front n) (scrollAt dir s.par.scrollOrder s.store.front (n + 1))
      (scrollPicture dir s.par.scrollOrder s.store.front (n + 1)) := by
    intro n hn
    by_cases h : n < 64
    · exact scroll_reads s dir _ _ h
    · obtain ⟨j, rfl⟩ := Nat.exists_eq_add_of_le (Nat.le_of_not_lt h)
      exact scroll_writes s dir horder _ (by omega)
  obtain ⟨u, hu, hfu, hend⟩ := runAgents_routine hsteps (Progress.start hc hw _) hf hgs
  refine ⟨u, hu, hfu, fun h => ?_⟩
  obtain ⟨-, hfront, haux, hwait, hprog, hroutine⟩ := hend h
  refine ⟨?_, hwait, hprog, haux, fun a b => ?_⟩
  · rw [hroutine, scrollAt, if_neg (by omega), order_drop_all horder]
    rfl
  · rw [hfront, scrollPicture, pixel_paint_all horder]
    cases dir <;> simp [scrollSource, Picture.pixel]

/-! ### FADE_PIXELS: a read and a write of each cell -/

/-- The place of FADE_PIXELS after `n` of its host steps. -/
def fadeAt (order : List Cell) (p : Picture) (n : Nat) : Option Routine :=
  match order.drop (n / 2) with
  | [] => none
  | k :: ks => if n % 2 = 0 then some (.fadeRead (k :: ks)) else some (.fadeWrite (Picture.cell p k) (k :: ks))

/-- FRONT after `n` host steps of FADE_PIXELS. -/
def fadePicture (order : List Cell) (p : Picture) (n : Nat) : Picture :=
  Picture.paint (fun k => fadeColour (Picture.cell p k)) (order.take (n / 2)) p

theorem fadeAt_even (order : List Cell) (p : Picture) (j : Nat) : fadeAt order p (2 * j) = fadeCells (order.drop j) := by
  cases h : order.drop j <;> simp [fadeAt, fadeCells, h]

theorem fadeAt_odd {order : List Cell} (p : Picture) {j : Nat} {k : Cell} {ks : List Cell} (h : order.drop j = k :: ks) :
    fadeAt order p (2 * j + 1) = some (.fadeWrite (Picture.cell p k) (k :: ks)) := by
  simp [fadeAt, show (2 * j + 1) / 2 = j by omega, h]

theorem fadePicture_even (order : List Cell) (p : Picture) (j : Nat) : fadePicture order p (2 * j) =
    Picture.paint (fun k => fadeColour (Picture.cell p k)) (order.take j) p := by
  rw [fadePicture, Nat.mul_div_cancel_left j Nat.two_pos]

/-- A read leaves FRONT as it is. -/
theorem fadePicture_odd (order : List Cell) (p : Picture) (j : Nat) :
    fadePicture order p (2 * j + 1) = fadePicture order p (2 * j) := by
  rw [fadePicture, fadePicture, show (2 * j + 1) / 2 = 2 * j / 2 by omega]

section
variable (s₀ : State) {order : List Cell} (horder : order.Perm (List.finRange 64)) (p : Picture)
include horder

theorem fade_reads {j : Nat} (hj : j < 64) :
    StepsTo s₀ (fadeAt order p (2 * j)) (fadePicture order p (2 * j))
      (fadeAt order p (2 * j + 1)) (fadePicture order p (2 * j + 1)) := by
  obtain ⟨k, hdrop, -, hnew⟩ := order_split horder hj
  have hread : Picture.cell (fadePicture order p (2 * j)) k = Picture.cell p k := by
    rw [fadePicture_even, Picture.cell_paint, if_neg hnew]
  rw [fadeAt_even, hdrop, fadeAt_odd p hdrop, fadePicture_odd, ← hread]
  exact stepsTo_read (r := .fadeRead (k :: order.drop (j + 1))) rfl

theorem fade_writes {j : Nat} (hj : j < 64) :
    StepsTo s₀ (fadeAt order p (2 * j + 1)) (fadePicture order p (2 * j + 1))
      (fadeAt order p (2 * j + 1 + 1)) (fadePicture order p (2 * j + 1 + 1)) := by
  obtain ⟨k, hdrop, htake, -⟩ := order_split horder hj
  rw [show 2 * j + 1 + 1 = 2 * (j + 1) by omega, fadeAt_even, fadeAt_odd p hdrop, fadePicture_odd, fadePicture_even,
    fadePicture_even, htake, Picture.paint_concat]
  exact stepsTo_write (r := .fadeWrite _ (k :: order.drop (j + 1))) rfl (fun s hc => exec_setPixel_cell hc k _)

end

theorem fadeColour_channels (c : Colour) : (fadeColour c).toNat / 256 = c.toNat / 256 - 1 ∧
    (fadeColour c).toNat / 16 % 16 = c.toNat / 16 % 16 - 1 ∧ (fadeColour c).toNat % 16 = c.toNat % 16 - 1 := by
  obtain ⟨hred, hgreen, hblue⟩ := channels_toNat c
  have hc := c.isLt
  rw [fadeColour, color_toNat, hred, hgreen, hblue]
  omega

/-- Settles O51: each cell is read before anything has written it, and painted with its faded word. -/
theorem fadePixelsRun : Obligations.FadePixelsRun := by
  intro s hc hf hw ⟨_, horder⟩
  refine ⟨_, ifConfigured_on hc, rfl, rfl, fun gs hgs => ?_⟩
  have hsteps : ∀ n < 128, StepsTo s (fadeAt s.par.fadeOrder s.store.front n)
      (fadePicture s.par.fadeOrder s.store.front n) (fadeAt s.par.fadeOrder s.store.front (n + 1))
      (fadePicture s.par.fadeOrder s.store.front (n + 1)) := by
    intro n hn
    obtain ⟨j, rfl | rfl⟩ := Nat.even_or_odd' n
    · exact fade_reads s horder _ (by omega)
    · exact fade_writes s horder _ (by omega)
  have hstart : Progress s (fadeAt s.par.fadeOrder s.store.front 0) (fadePicture s.par.fadeOrder s.store.front 0)
      (s.startRoutine (fadeCells s.par.fadeOrder)) := by
    rw [show fadeAt _ _ 0 = fadeCells _ from fadeAt_even _ _ 0]
    exact Progress.start hc hw _
  obtain ⟨u, hu, hfu, hend⟩ := runAgents_routine hsteps hstart hf hgs
  refine ⟨u, hu, hfu, fun h => ?_⟩
  obtain ⟨-, hfront, haux, hwait, hprog, hroutine⟩ := hend h
  refine ⟨?_, hwait, hprog, haux, fun a b => ?_⟩
  · rw [hroutine, fadeAt, order_drop_all horder]
  · rw [hfront, fadePicture, pixel_paint_all horder]
    exact fadeColour_channels _

end Sys2Proof.Machine
end

section
/-!
PROOFS. FILL_RECT and FILL_RECT_S (spec/44_host_library.md R240, R241): the cells row after row, cell `m` being
(x + m mod w, y + m / w), and the picture painted in those of them that lie in the matrix.
-/

namespace Sys2Proof.Machine

/-! ### The cells of a rectangle -/

/-- The cell of an integer pair, none outside the matrix. -/
def cellAt (x y : Int) : Option Cell := (inMatrix x y).map fun q => cellOf q.1 q.2

theorem cellAt_coord (k : Cell) : cellAt (coord (Cell.x k)) (coord (Cell.y k)) = some k := by
  simp [cellAt]

theorem cellAt_out {x y : Int} (h : ¬ (0 ≤ x ∧ x < 8 ∧ 0 ≤ y ∧ y < 8)) : cellAt x y = none := by
  simp [cellAt, inMatrix_out h]

/-- An integer pair of the matrix is the pair of a cell. -/
theorem exists_cell_of_inside {x y : Int} (h : 0 ≤ x ∧ x < 8 ∧ 0 ≤ y ∧ y < 8) :
    ∃ k : Cell, x = coord (Cell.x k) ∧ y = coord (Cell.y k) := by
  refine ⟨cellOf ⟨x.toNat, by omega⟩ ⟨y.toNat, by omega⟩, ?_⟩
  simp only [cellOf_x, cellOf_y, coord]
  omega

theorem cellAt_eq_some_iff {x y : Int} (a b : Fin 8) :
    cellAt x y = some (cellOf a b) ↔ (a.val : Int) = x ∧ (b.val : Int) = y := by
  constructor
  · intro h
    obtain ⟨q, hq, hcell⟩ := Option.map_eq_some_iff.mp h
    obtain ⟨rfl, rfl⟩ := cellOf_inj.mp hcell
    obtain ⟨hx, hy⟩ := inMatrix_some hq
    exact ⟨hx.symm, hy.symm⟩
  · rintro ⟨rfl, rfl⟩
    rw [cellAt, inMatrix_in]
    rfl

/-- The column of cell `k` of a rectangle, row after row. -/
def fillX (x : Int) (w k : Nat) : Int := x + (k % w : Nat)

/-- The row of cell `k` of a rectangle. -/
def fillY (y : Int) (w k : Nat) : Int := y + (k / w : Nat)

/-- Cell `k` of a rectangle lies in the matrix. -/
def FillInside (x y : Int) (w k : Nat) : Prop :=
  0 ≤ fillX x w k ∧ fillX x w k < 8 ∧ 0 ≤ fillY y w k ∧ fillY y w k < 8

/-- The first `m` cells of a rectangle, of those that lie in the matrix. -/
def fillCells (x y : Int) (w m : Nat) : List Cell :=
  (List.range m).filterMap fun k => cellAt (fillX x w k) (fillY y w k)

theorem fillCells_succ (x y : Int) (w m : Nat) : fillCells x y w (m + 1) =
    fillCells x y w m ++ (cellAt (fillX x w m) (fillY y w m)).toList := by
  rw [fillCells, List.range_succ, List.filterMap_append, fillCells]
  cases h : cellAt (fillX x w m) (fillY y w m) <;> simp [h]

theorem mem_fillCells (x y : Int) (w m : Nat) (a b : Fin 8) : cellOf a b ∈ fillCells x y w m ↔
    ∃ k, k < m ∧ (a.val : Int) = fillX x w k ∧ (b.val : Int) = fillY y w k := by
  simp only [fillCells, List.mem_filterMap, List.mem_range, cellAt_eq_some_iff]

/-- The cells of a whole rectangle are those between its sides. -/
theorem mem_fillCells_all (x y w h : Int) (a b : Fin 8) : cellOf a b ∈ fillCells x y w.toNat (w.toNat * h.toNat) ↔
    x ≤ a.val ∧ a.val < x + w ∧ y ≤ b.val ∧ b.val < y + h := by
  rw [mem_fillCells]
  constructor
  · rintro ⟨k, hk, ha, hb⟩
    have hw : 0 < w.toNat := Nat.pos_of_mul_pos_right (Nat.zero_lt_of_lt hk)
    have hcol : k % w.toNat < w.toNat := Nat.mod_lt k hw
    have hrow : k / w.toNat < h.toNat := Nat.div_lt_of_lt_mul hk
    unfold fillX fillY at *
    generalize k % w.toNat = i, k / w.toNat = j at *
    omega
  · rintro ⟨hxa, haw, hyb, hbh⟩
    obtain ⟨i, hi⟩ := Int.eq_ofNat_of_zero_le (Int.sub_nonneg.mpr hxa)
    obtain ⟨j, hj⟩ := Int.eq_ofNat_of_zero_le (Int.sub_nonneg.mpr hyb)
    have hiw : i < w.toNat := by omega
    have hjh : j + 1 ≤ h.toNat := by omega
    have hk : w.toNat * j + i < w.toNat * h.toNat :=
      calc w.toNat * j + i < w.toNat * (j + 1) := by rw [Nat.mul_add_one]; omega
        _ ≤ w.toNat * h.toNat := Nat.mul_le_mul_left _ hjh
    refine ⟨w.toNat * j + i, hk, ?_, ?_⟩
    · rw [fillX, Nat.mul_add_mod, Nat.mod_eq_of_lt hiw]
      omega
    · rw [fillY, Nat.mul_add_div (by omega), Nat.div_eq_of_lt hiw]
      omega

/-! ### The routine, cell by cell -/

/-- The place of a fill after `m` of its host steps. -/
def fillAt (checked : Bool) (x y : Int) (w h : Nat) (c : Colour) (m : Nat) : Option Routine :=
  if m < w * h then some (.fill checked x y w h c (m / w) (m % w)) else none

/-- FRONT after `m` host steps of a fill. -/
def fillPicture (x y : Int) (w : Nat) (c : Colour) (p : Picture) (m : Nat) : Picture :=
  Picture.paint (fun _ => c) (fillCells x y w m) p

theorem fillPicture_pixel (x y : Int) (w : Nat) (c : Colour) (p : Picture) (m : Nat) (a b : Fin 8) :
    Picture.pixel (fillPicture x y w c p m) a b =
      if cellOf a b ∈ fillCells x y w m then c else Picture.pixel p a b := Picture.cell_paint _ _ _ _

theorem fillRoutine_eq_fillAt (checked : Bool) (x y w h : Int) (c : Colour) :
    fillRoutine checked x y w h c = fillAt checked x y w.toNat h.toNat c 0 := by
  simp [fillRoutine, fillAt]

section
variable {checked : Bool} {x y : Int} {w h m : Nat} {c : Colour} (hm : m < w * h)
include hm

theorem fillAt_before_end : fillAt checked x y w h c m = some (.fill checked x y w h c (m / w) (m % w)) := if_pos hm

/-- The next cell is in the same row, or the first of the next one. -/
theorem fill_after : (Routine.fill checked x y w h c (m / w) (m % w)).after none = fillAt checked x y w h c (m + 1) := by
  have hw : 0 < w := Nat.pos_of_mul_pos_right (Nat.zero_lt_of_lt hm)
  have hrow : m / w < h := Nat.div_lt_of_lt_mul hm
  have hcol : m % w < w := Nat.mod_lt m hw
  have hm' := Nat.div_add_mod m w
  by_cases hlast : m % w + 1 < w
  · obtain ⟨hdiv, hmod⟩ := divMod_succ_inside hlast
    have hin : m + 1 < w * h := by
      have hle : w * (m / w + 1) ≤ w * h := Nat.mul_le_mul_left w hrow
      rw [Nat.mul_add_one] at hle
      omega
    simp only [Routine.after, fillAt, if_pos hlast, hin, if_true, hdiv, hmod]
  · obtain ⟨hdiv, hmod⟩ := divMod_succ_end (n := m) (T := w) (by omega)
    have hnext : m + 1 = w * (m / w + 1) := by rw [Nat.mul_add_one]; omega
    have hin : m + 1 < w * h ↔ m / w + 1 < h := by rw [hnext]; exact Nat.mul_lt_mul_left hw
    simp only [Routine.after, fillAt, if_neg hlast, hin, hdiv, hmod]

/-- A cell of the matrix is written by either form of SET_PIXEL. -/
theorem fill_step_inside {s₀ : State} {p : Picture} (hin : FillInside x y w m) :
    StepsTo s₀ (fillAt checked x y w h c m) (fillPicture x y w c p m)
      (fillAt checked x y w h c (m + 1)) (fillPicture x y w c p (m + 1)) := by
  obtain ⟨k, hx, hy⟩ := exists_cell_of_inside hin
  rw [fillAt_before_end hm, ← fill_after hm, fillPicture, fillPicture, fillCells_succ, hx, hy, cellAt_coord,
    Option.toList_some, Picture.paint_concat]
  cases checked with
  | false =>
    exact stepsTo_write (congrArg₂ (fun x y => some (Instr.setPixel x y c)) hx hy) fun s hc => exec_setPixel_cell hc k c
  | true =>
    exact stepsTo_write (congrArg₂ (fun x y => some (Instr.setPixelS x y c)) hx hy) fun s hc => exec_setPixelS_in hc _ _ c

end

/-- FILL_RECT_S leaves out a cell outside the matrix. -/
theorem fill_step_checked {s₀ : State} {p : Picture} {x y : Int} {w h m : Nat} {c : Colour} (hm : m < w * h) :
    StepsTo s₀ (fillAt true x y w h c m) (fillPicture x y w c p m)
      (fillAt true x y w h c (m + 1)) (fillPicture x y w c p (m + 1)) := by
  by_cases hin : FillInside x y w m
  · exact fill_step_inside hm hin
  · rw [fillAt_before_end hm, ← fill_after hm, fillPicture, fillPicture, fillCells_succ, cellAt_out hin,
      Option.toList_none, List.append_nil]
    exact stepsTo_drop rfl fun s hc => exec_setPixelS_out hc hin c

/-- FILL_RECT raises UNCHECKED_RANGE at a cell outside the matrix, and writes nothing. -/
theorem hostStep_fill_outside {s₀ s : State} {p : Picture} {x y : Int} {w h m : Nat} {c : Colour} (hm : m < w * h)
    (hout : ¬ FillInside x y w m) (hs : Progress s₀ (fillAt false x y w h c m) p s) (hf : s.faults = []) :
    ∃ t, hostStep s = .next t ∧ t.faults = [.uncheckedRange (fillX x w m) (fillY y w m)] ∧
      t.store.front = s.store.front :=
  ⟨_, hostStep_routine hs.wait (hs.routine.trans (fillAt_before_end hm)) rfl (exec_setPixel_out hs.configured hout c),
    State.raise_faults _ _ hf, rfl⟩

/-- Settles O48: every host step writes its cell or leaves it out, and the cells of the whole rectangle are those between
its sides. -/
theorem fillRectCheckedRun : Obligations.FillRectCheckedRun := by
  intro x y w h c s hc hf hw
  refine ⟨_, ifConfigured_on hc, rfl, rfl, fun gs hgs => ?_⟩
  rw [fillRoutine_eq_fillAt]
  obtain ⟨u, hu, hfu, hend⟩ := runAgents_routine (p := fillPicture x y w.toNat c s.store.front)
    (fun m hm => fill_step_checked hm) (Progress.start hc hw _) hf hgs
  refine ⟨u, hu, hfu, fun h0 => ?_⟩
  obtain ⟨-, hfront, haux, hwait, hprog, hroutine⟩ := hend h0
  refine ⟨hroutine.trans (if_neg (lt_irrefl _)), hwait, hprog, haux, fun a b => ?_⟩
  rw [hfront, fillPicture_pixel]
  exact if_congr (mem_fillCells_all x y w h a b) rfl rfl

/-- FILL_RECT after `m` host steps, all of them at cells of the matrix. -/
def Filled (x y : Int) (w h : Nat) (c : Colour) (s₀ : State) (m : Nat) (s : State) : Prop :=
  Progress s₀ (fillAt false x y w h c m) (fillPicture x y w c s₀.store.front m) s ∧
    ∀ k, k < m → FillInside x y w k

/-- A host step of FILL_RECT at a cell of the matrix, or at the first cell outside it. -/
theorem Filled.step {x y : Int} {w h m : Nat} {c : Colour} {s₀ s : State} (hs : Filled x y w h c s₀ m s) (hm : m < w * h)
    (hf : s.faults = []) : ∃ t, hostStep s = .next t ∧
      ((t.faults = [] ∧ Filled x y w h c s₀ (m + 1) t) ∨
        (t.faults = [.uncheckedRange (fillX x w m) (fillY y w m)] ∧ t.store.front = s.store.front ∧
          ¬ FillInside x y w m)) := by
  obtain ⟨hprogress, hinside⟩ := hs
  by_cases hin : FillInside x y w m
  · obtain ⟨t, ht, hft, hp⟩ := fill_step_inside hm hin s hprogress
    refine ⟨t, ht, Or.inl ⟨hft.trans hf, hp, fun k hk => ?_⟩⟩
    rcases Nat.lt_succ_iff_lt_or_eq.mp hk with hlt | rfl
    · exact hinside k hlt
    · exact hin
  · obtain ⟨t, ht, hft, hfront⟩ := hostStep_fill_outside hm hin hprogress hf
    exact ⟨t, ht, Or.inr ⟨hft, hfront, hin⟩⟩

/-- Settles O49: the cells before the first one outside the matrix are written, and the step at that one raises. -/
theorem fillRectRun : Obligations.FillRectRun := by
  intro x y w h c s hc hf hw
  refine ⟨_, ifConfigured_on hc, rfl, rfl, fun hwh => if_neg (by omega), fun gs hgs => ?_⟩
  rw [fillRoutine_eq_fillAt]
  have hhost : ∀ m s', m < w.toNat * h.toNat → Filled x y w.toNat h.toNat c s m s' → s'.faults = [] →
      ∃ t, hostStep s' = .next t ∧ (t.faults = [] → Filled x y w.toNat h.toNat c s (m + 1) t) := by
    intro m s' hm hs' hf'
    obtain ⟨t, ht, ⟨-, hnext⟩ | ⟨hft, -⟩⟩ := hs'.step hm hf'
    · exact ⟨t, ht, fun _ => hnext⟩
    · exact ⟨t, ht, fun h0 => by simp [h0] at hft⟩
  have hpixel : ∀ {m : Nat} {u : State}, u.store.front = fillPicture x y w.toNat c s.store.front m → ∀ a b : Fin 8,
      Picture.pixel u.store.front a b =
        if ∃ k, k < m ∧ (a.val : Int) = fillX x w.toNat k ∧ (b.val : Int) = fillY y w.toNat k then c
        else Picture.pixel s.store.front a b := by
    intro m u hu a b
    rw [hu, fillPicture_pixel]
    exact if_congr (mem_fillCells x y w.toNat m a b) rfl rfl
  obtain ⟨u, hu, ⟨hfu, hp, hin⟩ | ⟨m, -, hm, ⟨hp, hin⟩, hoob⟩ | ⟨m, s', -, hm, hs', hf', hst, hfu⟩⟩ :=
    runAgents_induct (P := Filled x y w.toNat h.toNat c s) (fun _ _ _ hs ht => ⟨hs.1.tick ht, hs.2⟩) hhost gs 0 _
      (by omega) ⟨Progress.start hc hw _, fun k hk => absurd hk (Nat.not_lt_zero k)⟩ hf
  · rw [Nat.zero_add] at hp hin
    exact ⟨u, _, hu, le_rfl, hin, hpixel hp.front,
      Or.inl ⟨hfu, rfl, fun hall => hp.routine.trans (if_neg (by omega))⟩⟩
  · exact ⟨u, m, hu, by omega, hin, hpixel hp.front, Or.inr (Or.inr hoob)⟩
  · obtain ⟨t, ht, ⟨hft, -⟩ | ⟨hft, hfront, hout⟩⟩ := hs'.step (by omega) hf'
    all_goals obtain rfl := Host.Outcome.next.inj (ht.symm.trans hst)
    · exact absurd hft hfu
    · exact ⟨t, m, hu, by omega, hs'.2, hpixel (hfront.trans hs'.1.front), Or.inr (Or.inl ⟨hft, by omega, hout⟩)⟩

end Sys2Proof.Machine
end

section
/-!
PROOFS. FRAME_SYNC_SHOW_LOAD and the load bar (spec/44_host_library.md R244, R245).
-/

namespace Sys2Proof.Machine

/-- Settles O52: each host step is its primitive's, and the sample decides whether the bar comes before the wait. -/
theorem showLoadSteps : Obligations.ShowLoadSteps := by
  refine fun s hc => ⟨ifConfigured_on hc, fun hw => ⟨fun hr => ?_, fun bar hr => ?_, fun hr => ?_⟩⟩
  · have hsample := exec_getLoadSample hc
    have hstep := hostStep_routine hw hr rfl hsample
    refine ⟨_, _, _, _, hsample, rfl, fun ⟨hv, hd⟩ => ?_, fun hn => ?_⟩
    · have hpos : 0 < s.frame.sweepDur.toNat := Nat.pos_of_ne_zero fun h => hd (BitVec.eq_of_toNat_eq h)
      rw [hstep]
      simp [Routine.after, hv, hpos]
    · have hskip : ¬ (s.frame.meas.isValid = true ∧ 0 < s.frame.sweepDur.toNat) := by
        rintro ⟨hv, hpos⟩
        rcases hn with hn | hn
        · simp [hn] at hv
        · simp [hn] at hpos
      rw [hstep]
      simp only [State.answer_host, Routine.after, if_neg hskip]
  · exact ⟨_, ifConfigured_on hc, hostStep_routine hw hr rfl (ifConfigured_on hc)⟩
  · exact ⟨_, ifConfigured_on hc, hostStep_routine hw hr rfl (ifConfigured_on hc)⟩

/-- Settles O53: the low ones of a power of two less one, or a byte of ones shifted up. -/
theorem loadBarShape : Obligations.LoadBarShape := by
  intro e d j hd hj
  rw [loadBar, if_neg hd.ne']
  by_cases h : e ≤ d
  · rw [if_pos h, if_pos h, BitVec.getLsbD_ofNat, Nat.testBit_two_pow_sub_one]
    simp [hj]
  · rw [if_neg h, if_neg h]
    generalize min 7 (8 * (e - d) / (3 * d)) = m
    have hones : (0xFF#8).getLsbD (j - m) = true := by
      rw [show 0xFF#8 = BitVec.allOnes 8 from rfl, BitVec.getLsbD_allOnes]
      exact decide_eq_true (by omega)
    rw [BitVec.getLsbD_shiftLeft, hones]
    simp only [hj, decide_true, Bool.true_and, Bool.and_true, ← decide_not, Nat.not_lt]

end Sys2Proof.Machine
end

section
/-!
PROOFS. FAULTS stops the block and a step raises at most once (spec/60_exceptions.md R261, R263, R267).
-/

namespace Sys2Proof.Machine

theorem step_quiescent {s : State} (h : s.faults ≠ []) : step s = .fault .quiescent := if_neg h

/-- A command's effect on an empty FAULTS: still empty, or the one fault it raises. -/
theorem CommandSound.faults_of_nil {s t : State} (h : CommandSound s t) (hf : s.faults = []) :
    t.faults = [] ∨ ∃ f, t.faults = [f] := by
  rcases h.faults with heq | ⟨f, heq⟩
  · exact Or.inl (heq.trans hf)
  · exact Or.inr ⟨f, heq.trans (State.raise_faults s f hf)⟩

theorem resetWith_faults (s : State) (l : BitVec 2) : (s.resetWith l).faults = s.faults := by rw [resetWith_eq]

/-- SETUP keeps FAULTS (70 R280), or raises BAD_DIVISOR alone. -/
theorem exec_setup_faults {div : Int} {s t : State} (hf : s.faults = []) (h : exec (.setup div) s = .next t) :
    t.faults = [] ∨ ∃ f, t.faults = [f] := by
  rcases exec_setup div s with ⟨l, -, he⟩ | ⟨-, he⟩
  · obtain rfl := Host.Outcome.next.inj (he.symm.trans h)
    exact Or.inl ((resetWith_faults s l).trans hf)
  · obtain rfl := Host.Outcome.next.inj (he.symm.trans h)
    exact Or.inr ⟨_, State.raise_faults s _ hf⟩

theorem hostStep_faults {s t : State} (hf : s.faults = []) (h : hostStep s = .next t) :
    t.faults = [] ∨ ∃ f, t.faults = [f] := by
  rcases hostStep_frame h with ⟨rest, div, -, -, -, he⟩ | ⟨-, hsound⟩
  · exact exec_setup_faults (s := s.popAct rest) hf he
  · exact hsound.faults_of_nil hf

/-- Settles O28: the step tests FAULTS before it picks an agent; a tick step raises only TOKEN_OOB and a host step at most
the one fault of its command. -/
theorem faultsStopTheBlock : Obligations.FaultsStopTheBlock := by
  refine fun s => ⟨step_quiescent, fun t hst => ?_, fun t => tick_faults⟩
  obtain ⟨hf, hcases⟩ := step_cases hst
  have hf' : s.turnTaken.faults = [] := (turnTaken_faults s).trans hf
  refine ⟨hf, ?_⟩
  rcases hcases with ⟨-, ht⟩ | ⟨-, -, hh⟩
  · exact (tick_faults hf' ht).imp_right fun ⟨c, hc⟩ => ⟨.tokenOob c, hc⟩
  · exact hostStep_faults hf' hh

end Sys2Proof.Machine
end
